-- ==== Sys2Proof/Word.lean ====
section
/-! DEFINITION. The word types of the block (spec rule R8): bytes, the 16-bit length and counters, the 5-bit
event codes, the 18-bit raw-byte counter of TX. All are unsigned; nothing in the block is signed (rule R130). -/

namespace Sys2Proof

/-- One byte: bit 7 is the most significant (rules R8, R64). -/
abbrev Byte := BitVec 8

/-- The 16-bit unsigned length and the counters of that width (rules R22, R23, R41). -/
abbrev Len := BitVec 16

/-- A 5-bit event code (rules R28, R36). -/
abbrev Code := BitVec 5

/-- The counter `tx.sent` of raw bytes, 18 bits (rule R41). -/
abbrev Sent := BitVec 18

end Sys2Proof
end

