-- ==== Sys2Proof/Config.lean ====
section
/-! DEFINITION. The constants of rule R6, the parameters of rule R7, and the free values: what the spec leaves
open and the model does not choose. -/

namespace Sys2Proof

/-- `START`, the frame-start marker (rule R6). -/
def startByte : Byte := 0x7E

/-- `ESC`, the escape marker (rule R6). -/
def escByte : Byte := 0x7D

/-- The stuffed value the spec labels XON (rule R6; the name is general knowledge, G1; log entry 36). -/
def xonByte : Byte := 0x11

/-- The stuffed value the spec labels XOFF (rule R6; the name is general knowledge, G1; log entry 36). -/
def xoffByte : Byte := 0x13

/-- `ESC_XOR` (rule R6). -/
def escXor : Byte := 0x20

/-- `CSUM_OK` (rule R6). -/
def csumOk : Byte := 0xFF

/-- The widths of a numeric command payload (R259). -/
inductive NumWidth where
  | one
  | two
  | four
deriving DecidableEq, Repr

/-- The shape of a command payload: what a decoder or an encoder of the registry is (R250). The source has these four
kinds (N7). -/
inductive CmdShape where
  /-- The generic fallback of a command with no entry of its own: the payload bytes unchanged. -/
  | opaqueBytes
  /-- The node-discovery record (R256). -/
  | ndRecord
  /-- A numeric payload of a fixed width (R259). -/
  | number (w : NumWidth)
  /-- ASCII characters, as many as there are (N7, log entry 40). -/
  | text
deriving DecidableEq, Repr

/-- One entry of a table of the registry (R250): the frame type and the command's two characters, and the shape of the
command's payload. -/
structure CmdEntry where
  ftype : Byte
  cmd0 : Byte
  cmd1 : Byte
  shape : CmdShape
deriving DecidableEq, Repr

/-- The fields of a node-discovery record (R256), and the bytes after it (R252). -/
structure NdRecord where
  net16 : BitVec 16
  ext64 : BitVec 64
  identifier : List Byte
  parent16 : BitVec 16
  deviceType : Byte
  status : Byte
  profileId : BitVec 16
  manufacturerId : BitVec 16
  tail : List Byte
deriving DecidableEq, Repr

/-- A command payload as its registered decoder reads it and its encoder writes it (R250). A decoded one is meaningful
only beside the command and the frame type it was decoded under, which stand in the result it is part of. -/
inductive CmdPayload where
  | bytes (bs : List Byte)
  | ndRecord (r : NdRecord)
  | number (n : Nat) (tail : List Byte)
  /-- The characters, and the bytes from their terminator on where there is one (log entry 40). -/
  | text (cs tail : List Byte)
deriving DecidableEq, Repr

/-- The parameters of rule R7, fixed from reset to reset (rule R75), and the command catalogue of rule R250.
DESIGN CHOICE (log entry 1): State carries them, latched, and no step writes them. -/
structure Cfg where
  /-- `RX_MAX_LEN`, 1..65535: the capacity of the RX frame buffer. -/
  rxMaxLen : Len
  /-- `TX_MAX_LEN`, 1..65535: the longest payload TX accepts. -/
  txMaxLen : Len
  /-- The open entries of `TYPE_KNOWN`: bit `t` is the entry of type code `t`. The five entries the source fixes
  are not read from here (`typeKnown`). -/
  typeOpen : BitVec 256
  /-- `FID_DEFAULT`, a byte other than 0: the reserved default frame id (rule R291). -/
  fidDefault : Byte
  /-- `AT_REQ_TYPE`: the type code of the local command request (rule R260). -/
  atReqType : Byte
  /-- The open entries of the registry's decoder table (rule R250): the catalogue is not in the source (N7; log
  entry 38). The entry of command `ND` is not read from here (`commandDecoder`). -/
  registry : List CmdEntry
  /-- The entries of the registry's inverse table, the encoders of outbound requests (rule R250; log entry 39). -/
  encoders : List CmdEntry
deriving DecidableEq, Repr

/-- The ranges rule R7 gives the parameters. -/
def Cfg.wf (c : Cfg) : Bool := c.rxMaxLen != 0 && c.txMaxLen != 0 && c.fidDefault != 0

/-- The defaults of rule R7. `TYPE_KNOWN` has no default: here every open entry is false, as in the spec's vector
configuration CFG0, and `AT_REQ_TYPE` is the 0x08 of general knowledge (DESIGN CHOICE and PRESUMED, log entry 2).
The registry's two tables have no entry of their own (DESIGN CHOICE, log entries 38 and 39). No statement rests on
these. -/
def Cfg.default : Cfg :=
  { rxMaxLen := 65535, txMaxLen := 65535, typeOpen := 0, fidDefault := 0x01, atReqType := 0x08, registry := [],
    encoders := [] }

/-- FREE VALUE (log entry 15): what entry `i` of `rx.buf` holds before anything was written to it. Rules R29 and
R50 leave it unspecified (U5: any value). -/
opaque Config.unwrittenByte : Nat → Byte

/-- FREE VALUE (log entry 18): `tx_encode(P)` outside the domain `1 <= |P| <= 65535` that rule R223 gives it. -/
opaque Config.txEncodeOutside : List Byte → List Byte

/-- FREE VALUE (log entry 19): the `need` field of `LAYOUT_TRUNCATED` for an identifier that has no terminator;
rule R257 raises the error and states no fields. -/
opaque Config.unterminatedNeed : List Byte → Nat

/-- FREE VALUE (log entry 39): the bytes an encoder of the registry writes for a value that no bytes of its shape
decode to (a number beyond the width, a value of another shape). -/
opaque Config.encodedOutside : CmdShape → CmdPayload → List Byte

end Sys2Proof
end

