-- ==== Sys2Proof/Machine/Codec.lean ====
section
/-! DEFINITION. The byte codec: the pure functions of spec/40_byte_codec.md, the frame as one function (rule R223),
the type lookup (rules R7, R181) and the frame-id allocator's function (rule R292). None reads or writes State. -/

namespace Sys2Proof

/-- R131: exactly four of the 256 values are special. -/
def isSpecial (v : Byte) : Bool :=
  v == startByte || v == escByte || v == xonByte || v == xoffByte

/-- R132: a special byte becomes the escape marker and the byte with bit 5 flipped. -/
def escape (v : Byte) : List Byte :=
  if isSpecial v then [escByte, v ^^^ escXor] else [v]

/-- The three results of `unescape` (R133). -/
inductive Unescaped where
  /-- A logical byte and the raw bytes left. -/
  | byte (v : Byte) (rest : List Byte)
  /-- `END_OF_STREAM`: there is no raw byte. -/
  | endOfStream
  /-- `ESC_TRUNCATED`: the escape marker is the last raw byte. -/
  | escTruncated
deriving DecidableEq, Repr

/-- R133: the second byte of a pair is XORed and never examined. -/
def unescape : List Byte → Unescaped
  | [] => .endOfStream
  | [b] => if b = escByte then .escTruncated else .byte b []
  | b :: e :: rest => if b = escByte then .byte (e ^^^ escXor) rest else .byte b (e :: rest)

/-- The sum of a byte sequence modulo 256 (R130, R134). -/
def sumBytes : List Byte → Byte
  | [] => 0
  | b :: bs => b + sumBytes bs

/-- R134: `0xFF - (sum & 0xFF)`. -/
def checksum (p : List Byte) : Byte := csumOk - sumBytes p

/-- R135: the sum of the payload and the received checksum, masked to 8 bits, must be `0xFF`. -/
def verify (p : List Byte) (c : Byte) : Bool := sumBytes p + c == csumOk

/-- `bits[15:8]` of a 16-bit value (R8, R92). -/
def hiByte (n : Len) : Byte := (n >>> 8).setWidth 8

/-- `bits[7:0]` of a 16-bit value (R8, R92). -/
def loByte (n : Len) : Byte := n.setWidth 8

/-- R136: two raw bytes, most significant first, never stuffed. The operand type is the domain 0..65535. -/
def lenEncode (n : Len) : List Byte := [hiByte n, loByte n]

/-- R137: `hi * 256 + lo`. -/
def lenDecode (hi lo : Byte) : Len := BitVec.ofNat 16 (hi.toNat * 256 + lo.toNat)

/-- R138: the escapes of the logical bytes, in order. -/
def stuff : List Byte → List Byte
  | [] => []
  | v :: vs => escape v ++ stuff vs

/-- R138: `unescape` from the left until the raw bytes are used up; `none` is `ESC_TRUNCATED`. -/
def unstuff : List Byte → Option (List Byte)
  | [] => some []
  | [b] => if b = escByte then none else some [b]
  | b :: e :: rest =>
    if b = escByte then (unstuff rest).map ((e ^^^ escXor) :: ·)
    else (unstuff (e :: rest)).map (b :: ·)

/-- R188: apply `unescape` `n` times; the logical bytes and the raw bytes left, or `none` where the raw bytes run
out first. -/
def takeLogical : Nat → List Byte → Option (List Byte × List Byte)
  | 0, r => some ([], r)
  | n + 1, r =>
    match unescape r with
    | .byte v rest => (takeLogical n rest).map fun (vs, r') => (v :: vs, r')
    | .endOfStream => none
    | .escTruncated => none

/-- The raw bytes of the frame that carries payload `p` (R91, R223): start marker, length, and the stuffed payload
and checksum. For `|p| > 65535` the length field cannot hold `|p|`; such a frame has no encoding. -/
def frameBytes (p : List Byte) : List Byte :=
  startByte :: lenEncode (BitVec.ofNat 16 p.length) ++ stuff (p ++ [checksum p])

/-- R223: `tx_encode(P)` for `1 <= |P| <= 65535`; a free value outside that domain (log entry 18). -/
def txEncode (p : List Byte) : List Byte :=
  if 1 ≤ p.length ∧ p.length ≤ 65535 then frameBytes p else Config.txEncodeOutside p

/-- `TYPE_KNOWN[t]` (R7, R99): four entries fixed true, one fixed false, the others as configured. -/
def typeKnown (c : Cfg) (t : Byte) : Bool :=
  if t = 0x88 ∨ t = 0x97 ∨ t = 0x92 ∨ t = 0x17 then true
  else if t = 0x03 then false
  else c.typeOpen.getLsbD t.toNat

/-- One turn of the allocator's loop (R292): 0xFF is followed by 0x01, never by 0. -/
def fidSucc (v : Byte) : Byte := if v = 0xFF then 0x01 else v + 1

/-- R292: the next frame id after `last`; the loop body runs once, or twice where it meets `FID_DEFAULT`. -/
def fidNext (dflt last : Byte) : Byte :=
  if fidSucc last = dflt then fidSucc (fidSucc last) else fidSucc last

/-- `FID_MIN` (R291): the least byte in 0x01..0xFF other than `FID_DEFAULT`. -/
def fidMin (dflt : Byte) : Byte := if dflt = 0x01 then 0x02 else 0x01

/-- `FID_MAX` (R291): the greatest byte in 0x01..0xFF other than `FID_DEFAULT`. -/
def fidMax (dflt : Byte) : Byte := if dflt = 0xFF then 0xFE else 0xFF

end Sys2Proof
end

