-- ==== Sys2Proof/Syntax.lean ====
section
/-! DEFINITION. The operations of the block, one constructor of `Instr` per row of spec/opcode_table.json (rules
R10, R105), their formats (R90) and their operand types. -/

namespace Sys2Proof

/-- The formats of rule R90. -/
inductive Format where
  /-- One raw byte on the stream. -/
  | sym8
  /-- An escape pair: two raw bytes. -/
  | esc16
  /-- A frame header: three raw bytes. -/
  | hdr24
  /-- A whole frame, of variable length. -/
  | frame
  /-- A frame-type code: the value of logical byte 0. -/
  | ftype8
  /-- A command status code inside certain payloads. -/
  | status8
  /-- An RX operation, selected by state and symbol; it has no bits. -/
  | rxStep
  /-- A TX operation, selected by state; it has no bits. -/
  | txStep
  /-- A function or procedure; it has no bits. -/
  | func
deriving DecidableEq, Repr

/-- The input symbols of RX (R34). -/
inductive Symbol where
  /-- `BYTE(b)`: a raw byte from the transport. -/
  | byte (b : Byte)
  /-- `EOS`: the transport's end of stream. -/
  | eos
  /-- `STOP`: the controller's stop request. -/
  | stop
deriving DecidableEq, Repr

/-- Which command response a status byte stands in (R255). -/
inductive RespKind where
  | inLocal
  | inRemote
deriving DecidableEq, Repr

/-- The type operand of `ATREQ` (R260): the parameter `AT_REQ_TYPE`, or a code given outright. -/
inductive TypeArg where
  | atReqType
  | code (t : Byte)
deriving DecidableEq, Repr

/-- Why the decoder reads no instruction from a sequence of bytes. -/
inductive DecodeError where
  /-- Not the number of bytes the format has (R90). -/
  | wrongLength
  /-- An escape pair that does not begin with `0x7D` (R95). -/
  | notEscape
  /-- A header or frame that does not begin with `0x7E` (R91). -/
  | notStart
  /-- A frame that ends inside an escape pair (R133). -/
  | escTruncated
  /-- A frame whose logical bytes are not the length field plus one (R93). -/
  | lengthMismatch
  /-- A frame whose checksum byte does not verify (R135). -/
  | badChecksum
  /-- A frame with a raw special byte or a non-canonical pair after its header: not the `stuff` of its logical
  bytes (R91, R138(e)). RX accepts such raw bytes one by one; the row FRAME does not stand for them. -/
  | notCanonical
  /-- A format whose rows have no bits (R105). -/
  | noBits
deriving DecidableEq, Repr

/-- A command payload and the type of the frame it stands in: what a layout over a command payload is a function of
(R252, R256, R257, R259; log entry 19). -/
structure CmdData where
  ftype : Byte
  data : List Byte
deriving DecidableEq, Repr

/-- The operations of spec/opcode_table.json, in the table's order. -/
inductive Instr where
  -- raw byte classes, format SYM8 (R94)
  | start
  | esc
  | xon
  | xoff
  | plain (value : Byte)
  -- escape pairs, format ESC16 (R95)
  | escStart
  | escEsc
  | escXon
  | escXoff
  | escAny (e : Byte)
  -- frame header and frame (R91)
  | hdr (lenHi lenLo : Byte)
  | frame (p : List Byte)
  -- frame-type codes, format FTYPE8 (R99)
  | ftLocalCmdResponse
  | ftRemoteCmdResponse
  | ftIoSample
  | ftRemoteCmdRequest
  | ftUnmappedExample
  | ftOther (code : Byte)
  -- command status codes, format STATUS8 (R100, R255)
  | stOk
  | stError
  | stInvalidCommand
  | stInvalidParameter
  | stTransmissionFailure
  | stNoSecureSession
  | stEncryptionError
  | stSentInsecurely
  | stUnknown (code : Byte)
  -- RX steps (R160); the operand is the byte of the symbol consumed
  | rxSkip (b : Byte)
  | rxStart
  | rxLenHi (b : Byte)
  | rxLenLo (b : Byte)
  | rxBodyEsc
  | rxBodyLit (b : Byte)
  | rxBodyXor (b : Byte)
  | rxCsumEsc
  | rxCsumLit (b : Byte)
  | rxCsumXor (b : Byte)
  | rxEosIdle
  | rxEosLen
  | rxEosFrame
  | rxStop
  | rxIgnore (sym : Symbol)
  -- RX procedures and the whole-stream function (R173, R180, R188)
  | rxAccept (v : Byte)
  | rxVerify (c : Byte)
  | deframe (r : List Byte)
  -- TX steps (R210); a byte step runs on the sink's answer OK, TX.FAIL on FAIL
  | txReq (p : List Byte)
  | txStart
  | txLenHi
  | txLenLo
  | txData
  | txDataEsc1
  | txDataEsc2
  | txCsum
  | txCsumEsc2
  | txFail
  -- TX procedure and the whole-frame function (R224, R223)
  | finish
  | txEncode (p : List Byte)
  -- byte codec functions (R131 to R138)
  | isSpecial (v : Byte)
  | escape (v : Byte)
  | unescape (s : List Byte)
  | checksum (p : List Byte)
  | verify (p : List Byte) (c : Byte)
  | lenEncode (n : Len)
  | lenDecode (hi lo : Byte)
  | stuff (l : List Byte)
  | unstuff (r : List Byte)
  -- payload layouts (R253 to R261); `data` is the payload without its type byte, which the row's operand fixes
  | decodeLocalResponse (data : List Byte)
  | decodeRemoteResponse (data : List Byte)
  | decodeStatus (kind : RespKind) (v : Byte)
  | decodeNdRecord (q : CmdData)
  | scanIdentifier (q : CmdData)
  | decodeIoSample (data : List Byte)
  | numDecode (w : NumWidth) (q : CmdData)
  | atreq (t : TypeArg) (fid c0 c1 : Byte) (v : List Byte)
  | ratreq (fid : Byte) (a64 : BitVec 64) (a16 : BitVec 16) (opt c0 c1 : Byte) (v : List Byte)
  -- pseudo-operation and allocator (R104, R292)
  | wire (p : List Byte)
  | fidNext
deriving DecidableEq, Repr

/-- The format of the table row an operation stands for (R90, R105). -/
def Instr.format : Instr → Format
  | .start => .sym8
  | .esc => .sym8
  | .xon => .sym8
  | .xoff => .sym8
  | .plain _ => .sym8
  | .escStart => .esc16
  | .escEsc => .esc16
  | .escXon => .esc16
  | .escXoff => .esc16
  | .escAny _ => .esc16
  | .hdr _ _ => .hdr24
  | .frame _ => .frame
  | .ftLocalCmdResponse => .ftype8
  | .ftRemoteCmdResponse => .ftype8
  | .ftIoSample => .ftype8
  | .ftRemoteCmdRequest => .ftype8
  | .ftUnmappedExample => .ftype8
  | .ftOther _ => .ftype8
  | .stOk => .status8
  | .stError => .status8
  | .stInvalidCommand => .status8
  | .stInvalidParameter => .status8
  | .stTransmissionFailure => .status8
  | .stNoSecureSession => .status8
  | .stEncryptionError => .status8
  | .stSentInsecurely => .status8
  | .stUnknown _ => .status8
  | .rxSkip _ => .rxStep
  | .rxStart => .rxStep
  | .rxLenHi _ => .rxStep
  | .rxLenLo _ => .rxStep
  | .rxBodyEsc => .rxStep
  | .rxBodyLit _ => .rxStep
  | .rxBodyXor _ => .rxStep
  | .rxCsumEsc => .rxStep
  | .rxCsumLit _ => .rxStep
  | .rxCsumXor _ => .rxStep
  | .rxEosIdle => .rxStep
  | .rxEosLen => .rxStep
  | .rxEosFrame => .rxStep
  | .rxStop => .rxStep
  | .rxIgnore _ => .rxStep
  | .rxAccept _ => .func
  | .rxVerify _ => .func
  | .deframe _ => .func
  | .txReq _ => .txStep
  | .txStart => .txStep
  | .txLenHi => .txStep
  | .txLenLo => .txStep
  | .txData => .txStep
  | .txDataEsc1 => .txStep
  | .txDataEsc2 => .txStep
  | .txCsum => .txStep
  | .txCsumEsc2 => .txStep
  | .txFail => .txStep
  | .finish => .func
  | .txEncode _ => .func
  | .isSpecial _ => .func
  | .escape _ => .func
  | .unescape _ => .func
  | .checksum _ => .func
  | .verify _ _ => .func
  | .lenEncode _ => .func
  | .lenDecode _ _ => .func
  | .stuff _ => .func
  | .unstuff _ => .func
  | .decodeLocalResponse _ => .func
  | .decodeRemoteResponse _ => .func
  | .decodeStatus _ _ => .func
  | .decodeNdRecord _ => .func
  | .scanIdentifier _ => .func
  | .decodeIoSample _ => .func
  | .numDecode _ _ => .func
  | .atreq _ _ _ _ _ => .func
  | .ratreq _ _ _ _ _ _ _ => .func
  | .wire _ => .func
  | .fidNext => .func

/-- The formats whose rows have bits (R105). -/
def Format.hasBits : Format → Bool
  | .sym8 => true
  | .esc16 => true
  | .hdr24 => true
  | .frame => true
  | .ftype8 => true
  | .status8 => true
  | .rxStep => false
  | .txStep => false
  | .func => false

end Sys2Proof
end

