-- ==== Sys2Proof/Machine/State.lean ====
section
/-! DEFINITION. The state of the block (spec/10_state.md), its outputs, the environment's inputs, the reasons a step
can stop, and the state after reset (rule R50). -/

namespace Sys2Proof.Machine

/-- `rx.state`, the RX sequencer (R21). -/
inductive RxSeq where
  | seek
  | lenHi
  | lenLo
  | body
  | csum
  | stopped
  | dead
deriving DecidableEq, Repr

/-- `tx.state`, the TX sequencer (R40). -/
inductive TxSeq where
  | idle
  | start
  | lenHi
  | lenLo
  | data
  | dataEsc
  | csum
  | csumEsc
  | dead
deriving DecidableEq, Repr

/-- The causes of `EV_FRAMING_ERR` (R36). -/
inductive FramingCause where
  | eosInLength
  | eosInBody
  | eosInChecksum
  | escTruncated
deriving DecidableEq, Repr

/-- The events of rule R36, with their fields. -/
inductive Event where
  /-- `EV_FRAME`, 0x00. -/
  | frame (ftype : Byte) (data : List Byte)
  /-- `EV_CHECKSUM_ERR`, 0x01. -/
  | checksumErr (len : Len) (got want : Byte)
  /-- `EV_UNKNOWN_TYPE`, 0x02. -/
  | unknownType (ftype : Byte) (data : List Byte)
  /-- `EV_EMPTY_FRAME`, 0x03. -/
  | emptyFrame
  /-- `EV_OVERSIZE`, 0x04. -/
  | oversize (len : Len)
  /-- `EV_FRAMING_ERR`, 0x08 to 0x0B by its cause. -/
  | framingErr (cause : FramingCause) (offset expected : Len)
  /-- `EV_TRANSPORT_CLOSED`, 0x0C. -/
  | transportClosed
  /-- `EV_STOPPED`, 0x0F. -/
  | stopped
  /-- `TX_DONE`, 0x10. -/
  | txDone (len : Len)
  /-- `TX_ERR_EMPTY`, 0x11. -/
  | txErrEmpty
  /-- `TX_ERR_TOO_LONG`, 0x12; the length may exceed 16 bits. -/
  | txErrTooLong (len : Nat)
  /-- `TX_ERR_TRANSPORT`, 0x18; the raw bytes the sink accepted before the failure. -/
  | txErrTransport (sent : Nat)
  /-- `TX_ERR_DEAD`, 0x19. -/
  | txErrDead
deriving DecidableEq, Repr

/-- The kinds of frame type the source gives codes for (R99). -/
inductive FtKind where
  | localCmdResponse
  | remoteCmdResponse
  | ioSample
  | remoteCmdRequest
  /-- The source's example of a code that is not mapped. -/
  | unmapped
  /-- A code the source does not give (N6). -/
  | notGiven
deriving DecidableEq, Repr

/-- The direction of a frame type (R99). -/
inductive Direction where
  | inbound
  | outbound
  /-- The unmapped code has no direction. -/
  | noDirection
  /-- The source does not give it (N6). -/
  | notGiven
deriving DecidableEq, Repr

/-- What the type table says of a code (R99, R181). -/
structure FtInfo where
  code : Byte
  kind : FtKind
  direction : Direction
  known : Bool
deriving DecidableEq, Repr

/-- The named statuses of rule R255. -/
inductive Status where
  | ok
  | error
  | invalidCommand
  | invalidParameter
  | transmissionFailure
  | noSecureSession
  | encryptionError
  | sentInsecurely
  /-- `STATUS_UNKNOWN(v)`. -/
  | unknown (v : Byte)
deriving DecidableEq, Repr

/-- The errors of the layout functions (R252, R257, R260). -/
inductive LayoutError where
  /-- `LAYOUT_TRUNCATED(ftype, have, need)`: `have` and `need` count the bytes the function is given, a payload or a
  command payload (log entry 19). -/
  | truncated (ftype : Byte) (got need : Nat)
  /-- `ND_BAD_IDENTIFIER(index, value)`. -/
  | ndBadIdentifier (index : Nat) (value : Byte)
  /-- `VALUE_TOO_LONG`. -/
  | valueTooLong
  /-- The second decode error of rule R250: a known type that has no decoder registered. -/
  | noDecoder (ftype : Byte)
deriving DecidableEq, Repr

/-- The fields of a local command response (R253). -/
structure LocalResponse where
  frameId : Byte
  cmd0 : Byte
  cmd1 : Byte
  status : Status
  payload : List Byte
deriving DecidableEq, Repr

/-- The fields of a remote command response (R254). -/
structure RemoteResponse where
  frameId : Byte
  src64 : BitVec 64
  src16 : BitVec 16
  cmd0 : Byte
  cmd1 : Byte
  status : Status
  payload : List Byte
deriving DecidableEq, Repr

/-- The fields of an IO-sample indicator (R258): the digital word where the mask has a bit set, one analog sample
for each bit of the analog mask with the bit's number, and the bytes after the one set (R252). -/
structure IoSample where
  src64 : BitVec 64
  src16 : BitVec 16
  options : Byte
  count : Byte
  digitalMask : BitVec 16
  analogMask : Byte
  digital : Option (BitVec 16)
  analog : List (Nat × BitVec 16)
  tail : List Byte
deriving DecidableEq, Repr

/-- Where a command request goes: the local node, under a request type (R260), or the node with an address (R261). -/
inductive CmdTarget where
  | localNode (t : TypeArg)
  | remoteNode (addr64 : BitVec 64) (addr16 : BitVec 16) (options : Byte)
deriving DecidableEq, Repr

/-- A command request as the registry is asked to encode it (R250); no value is a pure query (R260). -/
structure CmdRequest where
  target : CmdTarget
  frameId : Byte
  cmd0 : Byte
  cmd1 : Byte
  value : Option CmdPayload
deriving DecidableEq, Repr

/-- What a function of the table, or the registry, returns. -/
inductive FnResult where
  /-- `is_special`, `verify`. -/
  | flag (b : Bool)
  /-- `checksum`, `FID.NEXT`. -/
  | byte (v : Byte)
  /-- `escape`, `len_encode`, `stuff`, `unstuff`, `tx_encode`, `WIRE`, `ATREQ`, `RATREQ`, and a request the
  registry encodes. -/
  | bytes (bs : List Byte)
  /-- `len_decode`, `scan_identifier`. -/
  | num (n : Nat)
  /-- `unescape`. -/
  | unescaped (u : Unescaped)
  /-- `unstuff` of raw bytes that end in an unpaired escape marker: `ESC_TRUNCATED`. -/
  | escTruncated
  /-- `deframe`. -/
  | events (es : List Event)
  /-- A frame-type code looked up. -/
  | ftype (info : FtInfo)
  /-- A status code read in a local and in a remote response. -/
  | statusCode (code : Byte) (inLocal inRemote : Status)
  /-- `decode_status`. -/
  | status (st : Status)
  | localResponse (r : LocalResponse)
  | remoteResponse (r : RemoteResponse)
  | ndRecord (r : NdRecord)
  | ioSample (r : IoSample)
  /-- `num_decode`, with the bytes after the number. -/
  | number (n : Nat) (tail : List Byte)
  /-- The registry's reading of a local command response, frame type 0x88 (R250). -/
  | localCommand (r : LocalResponse) (payload : CmdPayload)
  /-- The registry's reading of a remote command response, frame type 0x97 (R250). -/
  | remoteCommand (r : RemoteResponse) (payload : CmdPayload)
  | layoutError (e : LayoutError)
deriving DecidableEq, Repr

/-- RX state (R20 to R29). -/
structure Rx where
  /-- `rx.state` (R21). -/
  state : RxSeq
  /-- `rx.len`: the length `N` of the frame (R22). -/
  len : Len
  /-- `rx.cnt`: logical payload bytes accumulated so far (R23). -/
  cnt : Len
  /-- `rx.sum`: their sum modulo 256 (R24). -/
  sum : Byte
  /-- `rx.esc`: the raw byte before this one was an escape marker taken as a marker (R25). -/
  esc : Bool
  /-- `rx.over`: the frame is longer than the buffer (R26). -/
  oversize : Bool
  /-- `rx.stop_pending` (R27). -/
  stopPending : Bool
  /-- `rx.cause`: the code of the fatal error taken, else 0 (R28). -/
  cause : Code
  /-- `rx.buf`: the entries written so far, indexes strictly rising (R29). -/
  buf : List Host.Cell
deriving DecidableEq, Repr

/-- TX state (R20, R40, R41). -/
structure Tx where
  /-- `tx.state` (R40). -/
  state : TxSeq
  /-- `tx.pay`: the payload of the request in progress (R41). -/
  pay : List Byte
  /-- `tx.len`: its length (R41). -/
  len : Len
  /-- `tx.idx`: the index of the next payload byte to send (R41). -/
  idx : Len
  /-- `tx.sum`: the sum modulo 256 of the payload bytes before `tx.idx` (R41). -/
  sum : Byte
  /-- `tx.sent`: raw bytes of this frame the sink accepted (R41). -/
  sent : Sent
  /-- `tx.cause`: 0x18 once TX is dead, else 0 (R41). -/
  cause : Code
deriving DecidableEq, Repr

/-- What the environment presents to the block (R11, R14, R34, R42, R340). DESIGN CHOICE (log entry 3): one list in
the order of presentation holds the inputs and, with them, which agent moves next. -/
inductive Stimulus where
  /-- The bytes of a format: SYM8, ESC16, HDR24 and FRAME on the RX raw stream, FTYPE8 and STATUS8 to the two
  code maps. -/
  | word (fmt : Format) (bytes : List Byte)
  /-- The RX symbol `EOS`. -/
  | eos
  /-- The RX symbol `STOP`. -/
  | stop
  /-- A sender makes the request `SEND(P)`. -/
  | send (p : List Byte)
  /-- TX takes the waiting request with index `k`: the environment's choice (R213). -/
  | take (k : Nat)
  /-- TX presents its byte and the sink answers `OK` (true) or `FAIL` (false) (R211). -/
  | answer (ok : Bool)
  /-- An operation presented by name with its operands: how the rows without bits are reached. -/
  | call (i : Instr)
  /-- The adjacent registry decodes the RX event with index `k`, if it is an `EV_FRAME` (R250, R4; log entry 38). -/
  | registry (k : Nat)
  /-- The adjacent registry encodes a command request: the payload of a `SEND` (R250, R4; log entry 39). -/
  | encode (r : CmdRequest)
  /-- The reset input (R340). -/
  | reset
deriving DecidableEq, Repr

/-- The state of the block and of what stands at its ports. -/
structure State where
  /-- The configuration, sampled at reset (R7, R75). -/
  cfg : Cfg
  /-- RX (R20). -/
  rx : Rx
  /-- TX (R20). -/
  tx : Tx
  /-- `fid.last` of the adjacent allocator (R290). -/
  fidLast : Byte
  /-- The RX event output, oldest first (R35, R36). -/
  rxEvents : List Event
  /-- The RX trace output: the bytes of the `SKIP` records, oldest first (R37). -/
  rxTrace : List Byte
  /-- The TX raw stream: the bytes the sink accepted (R42, R60). -/
  txOut : List Byte
  /-- The TX completion event output, oldest first (R42). -/
  txEvents : List Event
  /-- The MODEL's own: the result of the last function called (log entry 12). -/
  ret : Option FnResult
  /-- Requests made and not yet taken, waiting outside the block (R213). -/
  waiting : List (List Byte)
  /-- What the environment will present, in order (log entry 3). -/
  env : List Stimulus
deriving DecidableEq, Repr

/-- Why the machine stops with a fault. Both are accesses to a place the spec says does not exist, and neither is
reached from a state that keeps the invariants of rules R30 and R43. -/
inductive Fault where
  /-- An index of `rx.buf` at or beyond `RX_MAX_LEN` (R29, R60). Raised by `rx_accept`, `rx_verify` and what runs
  them. Safe: the machine stops. Log entry 16. -/
  | bufAddress
  /-- An index of `tx.pay` at or beyond its length (R41, R60). Raised by TX.DATA, TX.DATA_ESC1 and TX.DATA_ESC2.
  Safe: the machine stops. Log entry 17. -/
  | payAddress
deriving DecidableEq, Repr

/-- Why the machine gives what was presented no meaning. -/
inductive Refusal where
  /-- An instruction not modelled yet; raised by exec's arms alone. Safe. -/
  | notModelled (mnemonic : String)
  /-- Bytes that the decoder reads no instruction from; raised by step. Safe. -/
  | undecodable (e : DecodeError)
  /-- A call of an ill-formed instruction; raised by step. Safe. -/
  | illFormed
  /-- An RX or TX operation, or a procedure of one, named in a state that does not select it (R160, R210): the spec
  gives it no effect there. Raised by their meanings. Safe. Log entry 13. -/
  | notSelected
deriving DecidableEq, Repr

/-- RX after reset (R50). The buffer's contents are unspecified: nothing is listed (log entries 15 and 25). -/
def Rx.reset : Rx :=
  { state := .seek, len := 0, cnt := 0, sum := 0, esc := false, oversize := false, stopPending := false,
    cause := 0, buf := [] }

/-- TX after reset (R50). -/
def Tx.reset : Tx :=
  { state := .idle, pay := [], len := 0, idx := 0, sum := 0, sent := 0, cause := 0 }

/-- The state after reset under a configuration (R50, R340): the outputs are empty and nothing is presented yet. -/
def State.resetWith (c : Cfg) : State :=
  { cfg := c, rx := Rx.reset, tx := Tx.reset, fidLast := fidMax c.fidDefault, rxEvents := [], rxTrace := [],
    txOut := [], txEvents := [], ret := none, waiting := [], env := [] }

/-- The state after reset under the defaults of rule R7 (log entry 2). -/
def State.reset : State := State.resetWith Cfg.default

end Sys2Proof.Machine
end

