-- ==== Sys2Proof/Machine/Flags.lean ====
section
/-! DEFINITION. The event codes and classes (R36, R300), the status levels (R45) and the operating modes (R320):
pure functions. The block has no condition codes. -/

namespace Sys2Proof.Machine

/-- The code of a framing cause (R36). -/
def FramingCause.code : FramingCause → Code
  | .eosInLength => 0x08
  | .eosInBody => 0x09
  | .eosInChecksum => 0x0A
  | .escTruncated => 0x0B

/-- The 5-bit code of an event (R36). -/
def Event.code : Event → Code
  | .frame _ _ => 0x00
  | .checksumErr _ _ _ => 0x01
  | .unknownType _ _ => 0x02
  | .emptyFrame => 0x03
  | .oversize _ => 0x04
  | .framingErr c _ _ => c.code
  | .transportClosed => 0x0C
  | .stopped => 0x0F
  | .txDone _ => 0x10
  | .txErrEmpty => 0x11
  | .txErrTooLong _ => 0x12
  | .txErrTransport _ => 0x18
  | .txErrDead => 0x19

/-- The class column of rule R36. -/
inductive EventClass where
  | good
  | recoverable
  | fatal
  | terminal
  | refused
deriving DecidableEq, Repr

/-- The class of an event as the column of rule R36 has it (log entry 30). -/
def Event.cls : Event → EventClass
  | .frame _ _ => .good
  | .checksumErr _ _ _ => .recoverable
  | .unknownType _ _ => .recoverable
  | .emptyFrame => .recoverable
  | .oversize _ => .recoverable
  | .framingErr _ _ _ => .fatal
  | .transportClosed => .fatal
  | .stopped => .terminal
  | .txDone _ => .good
  | .txErrEmpty => .refused
  | .txErrTooLong _ => .refused
  | .txErrTransport _ => .fatal
  | .txErrDead => .refused

/-- Does the sequencer stand inside a frame? The level `rx_in_frame` (R45). -/
def RxSeq.inFrame : RxSeq → Bool
  | .seek => false
  | .lenHi => true
  | .lenLo => true
  | .body => true
  | .csum => true
  | .stopped => false
  | .dead => false

/-- The seven sending states of TX (R210, R320), where `tx_busy` is set (R45). -/
def TxSeq.sending : TxSeq → Bool
  | .idle => false
  | .start => true
  | .lenHi => true
  | .lenLo => true
  | .data => true
  | .dataEsc => true
  | .csum => true
  | .csumEsc => true
  | .dead => false

/-- `rx_dead` (R45). -/
def rxDead (s : State) : Bool := s.rx.state == .dead

/-- `rx_stopped` (R45). -/
def rxStopped (s : State) : Bool := s.rx.state == .stopped

/-- `rx_in_frame` (R45). -/
def rxInFrame (s : State) : Bool := s.rx.state.inFrame

/-- `tx_busy` (R45). -/
def txBusy (s : State) : Bool := s.tx.state.sending

/-- `tx_dead` (R45). -/
def txDead (s : State) : Bool := s.tx.state == .dead

/-- The operating modes of RX (R320). -/
inductive RxMode where
  | running
  | stopped
  | dead
deriving DecidableEq, Repr

/-- The operating modes of TX (R320). -/
inductive TxMode where
  | idle
  | sending
  | dead
deriving DecidableEq, Repr

/-- The mode RX is in (R320). -/
def rxMode (s : State) : RxMode :=
  match s.rx.state with
  | .seek => .running
  | .lenHi => .running
  | .lenLo => .running
  | .body => .running
  | .csum => .running
  | .stopped => .stopped
  | .dead => .dead

/-- The mode TX is in (R320). -/
def txMode (s : State) : TxMode :=
  match s.tx.state with
  | .idle => .idle
  | .start => .sending
  | .lenHi => .sending
  | .lenLo => .sending
  | .data => .sending
  | .dataEsc => .sending
  | .csum => .sending
  | .csumEsc => .sending
  | .dead => .dead

end Sys2Proof.Machine
end

