-- ==== Sys2Proof/Machine/Operands.lean ====
section
/-! DEFINITION. The operand forms of the adjacent functions: big-endian fields (R251), numeric widths (R259), the
type operand (R260), and fields of a payload by position. -/

namespace Sys2Proof.Machine

/-- The unsigned integer of a byte sequence, most significant byte first (R251). -/
def beNat (bs : List Byte) : Nat := bs.foldl (fun n b => n * 256 + b.toNat) 0

/-- The bytes of a 16-bit field, most significant first (R251). -/
def be16Bytes (v : BitVec 16) : List Byte := [(v >>> 8).setWidth 8, v.setWidth 8]

/-- The bytes of a 64-bit field, most significant first (R251). -/
def be64Bytes (v : BitVec 64) : List Byte :=
  [(v >>> 56).setWidth 8, (v >>> 48).setWidth 8, (v >>> 40).setWidth 8, (v >>> 32).setWidth 8,
   (v >>> 24).setWidth 8, (v >>> 16).setWidth 8, (v >>> 8).setWidth 8, v.setWidth 8]

/-- The `n` bytes of a payload from index `i` on. -/
def fieldBytes (p : List Byte) (i n : Nat) : List Byte := (p.drop i).take n

/-- The 16-bit field at index `i`. -/
def field16 (p : List Byte) (i : Nat) : BitVec 16 := BitVec.ofNat 16 (beNat (fieldBytes p i 2))

/-- The 64-bit field at index `i`. -/
def field64 (p : List Byte) (i : Nat) : BitVec 64 := BitVec.ofNat 64 (beNat (fieldBytes p i 8))

/-- The byte at index `i`; every use stands behind a check that the payload holds the index. -/
def field8 (p : List Byte) (i : Nat) : Byte := p.getD i 0

/-- The number of bytes of a numeric width (R259). -/
def widthBytes : NumWidth → Nat
  | .one => 1
  | .two => 2
  | .four => 4

/-- The bytes of a number at a numeric width, most significant first (R251). -/
def numBytes (w : NumWidth) (n : Nat) : List Byte :=
  match w with
  | .one => [BitVec.ofNat 8 n]
  | .two => be16Bytes (BitVec.ofNat 16 n)
  | .four => be16Bytes (BitVec.ofNat 16 (n / 65536)) ++ be16Bytes (BitVec.ofNat 16 n)

/-- The type code `ATREQ` puts first (R260): the parameter, or the code given. -/
def typeArg (c : Cfg) : TypeArg → Byte
  | .atReqType => c.atReqType
  | .code t => t

end Sys2Proof.Machine
end

