-- ==== Sys2Proof/Machine/Layout.lean ====
section
/-! DEFINITION. The payload layouts of spec/43_payload_layouts.md as pure functions, and the two code maps (R99,
R100). Positions are the spec's indexes into the payload `P`, whose byte 0 is the type byte. -/

namespace Sys2Proof.Machine

/-- R99: what the table of frame types says of a code. -/
def lookupFtype (c : Cfg) (t : Byte) : FtInfo :=
  if t = 0x88 then ⟨t, .localCmdResponse, .inbound, typeKnown c t⟩
  else if t = 0x97 then ⟨t, .remoteCmdResponse, .inbound, typeKnown c t⟩
  else if t = 0x92 then ⟨t, .ioSample, .inbound, typeKnown c t⟩
  else if t = 0x17 then ⟨t, .remoteCmdRequest, .outbound, typeKnown c t⟩
  else if t = 0x03 then ⟨t, .unmapped, .noDirection, typeKnown c t⟩
  else ⟨t, .notGiven, .notGiven, typeKnown c t⟩

/-- R255: the status byte of a local or of a remote response. -/
def readStatus (k : RespKind) (v : Byte) : Status :=
  if v = 0x00 then .ok
  else if v = 0x01 then .error
  else if v = 0x02 then .invalidCommand
  else if v = 0x03 then .invalidParameter
  else
    match k with
    | .inLocal => .unknown v
    | .inRemote =>
      if v = 0x04 then .transmissionFailure
      else if v = 0x0B then .noSecureSession
      else if v = 0x0C then .encryptionError
      else if v = 0x0D then .sentInsecurely
      else .unknown v

/-- A status code in both readings (R100, R255). -/
def lookupStatus (v : Byte) : FnResult := .statusCode v (readStatus .inLocal v) (readStatus .inRemote v)

/-- The result of a layout function that reads an `α` or fails. -/
def layoutResult {α : Type} (f : α → FnResult) (r : Except LayoutError α) : FnResult :=
  match r with
  | .ok a => f a
  | .error e => .layoutError e

/-- R252: a layout over `n` bytes of which `need` are required; fewer are `LAYOUT_TRUNCATED`. -/
def withLength {α : Type} (ftype : Byte) (n need : Nat) (r : Except LayoutError α) : Except LayoutError α :=
  if n < need then .error (.truncated ftype n need) else r

/-- R253, on the payload `P`. -/
def readLocalResponse (p : List Byte) : Except LayoutError LocalResponse :=
  withLength 0x88 p.length 5
    (.ok
      { frameId := field8 p 1, cmd0 := field8 p 2, cmd1 := field8 p 3,
        status := readStatus .inLocal (field8 p 4), payload := p.drop 5 })

/-- R254, on the payload `P`. -/
def readRemoteResponse (p : List Byte) : Except LayoutError RemoteResponse :=
  withLength 0x97 p.length 15
    (.ok
      { frameId := field8 p 1, src64 := field64 p 2, src16 := field16 p 10, cmd0 := field8 p 12,
        cmd1 := field8 p 13, status := readStatus .inRemote (field8 p 14), payload := p.drop 15 })

/-- The loop of rule R257 from index `z` on; `none` is the end of the record without a terminator. -/
def scanFrom (z : Nat) : List Byte → Option (Except LayoutError Nat)
  | [] => none
  | b :: bs =>
    if b = 0x00 then some (.ok z)
    else if b < 32 ∨ 126 < b then some (.error (.ndBadIdentifier z b))
    else scanFrom (z + 1) bs

/-- R257: the index of the terminator, from index 10 on, in a command payload of a frame of type `ftype`. -/
def scanIdent (ftype : Byte) (q : List Byte) : Except LayoutError Nat :=
  match scanFrom 10 (q.drop 10) with
  | some r => r
  | none => .error (.truncated ftype q.length (Config.unterminatedNeed q))

/-- R256: the fields of a record whose terminator stands at index `z`. -/
def ndFields (q : List Byte) (z : Nat) : NdRecord :=
  { net16 := field16 q 0, ext64 := field64 q 2, identifier := fieldBytes q 10 (z - 10),
    parent16 := field16 q (z + 1), deviceType := field8 q (z + 3), status := field8 q (z + 4),
    profileId := field16 q (z + 5), manufacturerId := field16 q (z + 7), tail := q.drop (z + 9) }

/-- R256, R252: the node-discovery record in a command payload `q` of a frame of type `ftype`. -/
def readNdRecord (ftype : Byte) (q : List Byte) : Except LayoutError NdRecord :=
  withLength ftype q.length 19
    (match scanIdent ftype q with
    | .error e => .error e
    | .ok z => withLength ftype q.length (z + 9) (.ok (ndFields q z)))

/-- The bits set in an analog mask, bit 0 first (R258). -/
def maskBits (am : Byte) : List Nat := (List.range 8).filter fun k => am.getLsbD k

/-- The bytes of digital sample values present (R258). -/
def digitalBytes (dm : BitVec 16) : Nat := if dm ≠ 0 then 2 else 0

/-- The analog samples from index `at_` on, two bytes for each bit in the list (R258). -/
def analogSamples (p : List Byte) (at_ : Nat) : List Nat → List (Nat × BitVec 16)
  | [] => []
  | k :: ks => (k, field16 p at_) :: analogSamples p (at_ + 2) ks

/-- The expected length of an IO-sample payload (R258). -/
def ioSampleLen (dm : BitVec 16) (am : Byte) : Nat := 16 + digitalBytes dm + 2 * (maskBits am).length

/-- R258: the fields of a payload `P` with digital mask `dm` and analog mask `am`. -/
def ioFields (p : List Byte) (dm : BitVec 16) (am : Byte) : IoSample :=
  { src64 := field64 p 1, src16 := field16 p 9, options := field8 p 11, count := field8 p 12,
    digitalMask := dm, analogMask := am,
    digital := if dm ≠ 0 then some (field16 p 16) else none,
    analog := analogSamples p (16 + digitalBytes dm) (maskBits am),
    tail := p.drop (ioSampleLen dm am) }

/-- R258, on the payload `P`. -/
def readIoSample (p : List Byte) : Except LayoutError IoSample :=
  withLength 0x92 p.length 16
    (withLength 0x92 p.length (ioSampleLen (field16 p 13) (field8 p 15))
      (.ok (ioFields p (field16 p 13) (field8 p 15))))

/-- R259: a number of `w` bytes at the front of `q`, and the bytes after it, in a frame of type `ftype`. -/
def readNumber (ftype : Byte) (w : Nat) (q : List Byte) : Except LayoutError (Nat × List Byte) :=
  withLength ftype q.length w (.ok (beNat (q.take w), q.drop w))

/-- The ASCII characters at the front of a command payload, up to the first zero byte or the end, and the bytes from
there on; a byte that is not printable is the error of rule R257 (N7, log entry 40). -/
def readText (q : List Byte) : Except LayoutError (List Byte × List Byte) :=
  match scanFrom 0 q with
  | some (.error e) => .error e
  | some (.ok z) => .ok (q.take z, q.drop z)
  | none => .ok (q, [])

/-! ### The outbound layouts -/

/-- The value of a request: at most four bytes after the fixed part (R260, R261). -/
def withValue (fixedPart v : List Byte) : FnResult :=
  if 4 < v.length then .layoutError .valueTooLong else .bytes (fixedPart ++ v)

/-- R260. -/
def buildAtReq (t fid c0 c1 : Byte) (v : List Byte) : FnResult := withValue [t, fid, c0, c1] v

/-- R261. -/
def buildRatReq (fid : Byte) (a64 : BitVec 64) (a16 : BitVec 16) (opt c0 c1 : Byte) (v : List Byte) : FnResult :=
  withValue ([0x17, fid] ++ be64Bytes a64 ++ be16Bytes a16 ++ [opt, c0, c1]) v

/-! ### The registry (R250) -/

/-- The shape a table of the registry has for a command under a frame type: the first entry that names both, else the
generic fallback. -/
def lookupShape (table : List CmdEntry) (ftype c0 c1 : Byte) : CmdShape :=
  ((table.find? fun e => e.ftype == ftype && e.cmd0 == c0 && e.cmd1 == c1).map CmdEntry.shape).getD .opaqueBytes

/-- The decoder the registry has for a command under a frame type: the record of rule R256 for `ND`, else the
catalogue's. -/
def commandDecoder (c : Cfg) (ftype c0 c1 : Byte) : CmdShape :=
  if c0 = 0x4E ∧ c1 = 0x44 then .ndRecord else lookupShape c.registry ftype c0 c1

/-- A decoder on a command payload. -/
def readCommand (ftype : Byte) (d : CmdShape) (q : List Byte) : Except LayoutError CmdPayload :=
  match d with
  | .opaqueBytes => .ok (.bytes q)
  | .ndRecord => (readNdRecord ftype q).map .ndRecord
  | .number w => (readNumber ftype (widthBytes w) q).map fun (n, tail) => .number n tail
  | .text => (readText q).map fun (cs, tail) => .text cs tail

/-- The registry on a delivered frame: the response's layout and then its command's decoder for the two response
types, the layout of rule R258, and for any other type the decode error of a type without a decoder. DESIGN CHOICE (log
entry 38): which types have a decoder, and that the error of a command payload is the whole result, without the fields
of its response. -/
def registryDecode (c : Cfg) (ftype : Byte) (data : List Byte) : FnResult :=
  if ftype = 0x88 then
    match readLocalResponse (ftype :: data) with
    | .error e => .layoutError e
    | .ok r => layoutResult (.localCommand r) (readCommand ftype (commandDecoder c ftype r.cmd0 r.cmd1) r.payload)
  else if ftype = 0x97 then
    match readRemoteResponse (ftype :: data) with
    | .error e => .layoutError e
    | .ok r => layoutResult (.remoteCommand r) (readCommand ftype (commandDecoder c ftype r.cmd0 r.cmd1) r.payload)
  else if ftype = 0x92 then layoutResult .ioSample (readIoSample (ftype :: data))
  else .layoutError (.noDecoder ftype)

/-! ### The registry's inverse table: the encoders of outbound requests (R250; log entry 39) -/

/-- The bytes of a node-discovery record in the layout of rule R256. -/
def ndBytes (r : NdRecord) : List Byte :=
  be16Bytes r.net16 ++ be64Bytes r.ext64 ++ r.identifier ++ [0x00] ++ be16Bytes r.parent16 ++
    [r.deviceType, r.status] ++ be16Bytes r.profileId ++ be16Bytes r.manufacturerId ++ r.tail

/-- A value laid out under a shape; the width of a number is the shape's. -/
def payloadBytes (d : CmdShape) (p : CmdPayload) : List Byte :=
  match p with
  | .bytes bs => bs
  | .ndRecord r => ndBytes r
  | .number n tail =>
    match d with
    | .number w => numBytes w n ++ tail
    | _ => []
  | .text cs tail => cs ++ tail

/-- The encoder of a shape, the inverse of its decoder: the bytes the decoder reads the value from. A value it reads
from no bytes has no stated encoding, and a free value stands for it. (A decoder's success does not depend on the frame
type, which only its error names.) -/
def writeCommand (d : CmdShape) (p : CmdPayload) : List Byte :=
  if (readCommand 0 d (payloadBytes d p)).toOption = some p then payloadBytes d p else Config.encodedOutside d p

/-- The encoder the registry has for a command under a request's frame type. -/
def commandEncoder (c : Cfg) (ftype c0 c1 : Byte) : CmdShape := lookupShape c.encoders ftype c0 c1

/-- The value bytes of a request under a frame type; none for a pure query (R260). -/
def requestValue (c : Cfg) (ftype : Byte) (r : CmdRequest) : List Byte :=
  match r.value with
  | none => []
  | some p => writeCommand (commandEncoder c ftype r.cmd0 r.cmd1) p

/-- The registry on an outbound request: the payload of a `SEND`, by the layout of rule R260 or R261 with the value its
command's encoder writes. -/
def registryEncode (c : Cfg) (r : CmdRequest) : FnResult :=
  match r.target with
  | .localNode t => buildAtReq (typeArg c t) r.frameId r.cmd0 r.cmd1 (requestValue c (typeArg c t) r)
  | .remoteNode a64 a16 opt => buildRatReq r.frameId a64 a16 opt r.cmd0 r.cmd1 (requestValue c 0x17 r)

end Sys2Proof.Machine
end

