-- ==== Sys2Proof/Machine/Ops.lean ====
section
/-! DEFINITION. The shared operations: the frame buffer, the outputs, the one error entry (R301), the RX operations
and their dispatch table (R160 to R186), the TX operations (R210 to R225), the whole-stream function (R188), reset
(R340). -/

namespace Sys2Proof.Machine

/-- The outcome of an operation of this machine. -/
abbrev Res := Host.Outcome State Fault Refusal

/-- Run a second operation on the state the first one leaves; a stop of the first is the whole's. -/
def andThen (o : Res) (f : State → Res) : Res :=
  match o with
  | .next s => f s
  | .fault r => .fault r
  | .refused r => .refused r

/-- An operation with a selection: outside it the spec gives it no effect (R160, R210; log entry 13). -/
def onlyIf (sel : Bool) (o : Res) : Res := if sel then o else .refused .notSelected

/-! ### The RX frame buffer (R29, R60) -/

/-- The entry written at index `a`, if one was. -/
def bufRead (m : List Host.Cell) (a : Nat) : Option Byte :=
  match m with
  | [] => none
  | c :: cs => if c.1 = a then some c.2 else bufRead cs a

/-- Write entry `a`, keeping the indexes strictly rising. -/
def bufWrite (m : List Host.Cell) (a : Nat) (v : Byte) : List Host.Cell :=
  match m with
  | [] => [(a, v)]
  | c :: cs => if a < c.1 then (a, v) :: c :: cs else if a = c.1 then (a, v) :: cs else c :: bufWrite cs a v

/-- The canonical form: indexes strictly rising. An unlisted index holds no entry, so no listed entry equals what an
unlisted one reads as. -/
def bufWf : List Host.Cell → Bool
  | [] => true
  | [_] => true
  | c :: d :: cs => decide (c.1 < d.1) && bufWf (d :: cs)

/-- The byte of entry `a`: what was written, else the free value of an entry nothing was written to (R29, U5). -/
def bufByte (m : List Host.Cell) (a : Nat) : Byte := (bufRead m a).getD (Config.unwrittenByte a)

/-- `MemRead(a, n)` (R9). -/
def bufSlice (m : List Host.Cell) (a : Nat) : Nat → List Byte
  | 0 => []
  | n + 1 => bufByte m a :: bufSlice m (a + 1) n

/-! ### Named updates of the state -/

/-- Write RX state. -/
def setRx (r : Rx) (s : State) : State := { s with rx := r }

/-- Write TX state. -/
def setTx (t : Tx) (s : State) : State := { s with tx := t }

/-- Write `fid.last`. -/
def setFid (v : Byte) (s : State) : State := { s with fidLast := v }

/-- `emit` on the RX event output (R9, R36). -/
def emitRx (e : Event) (s : State) : State := { s with rxEvents := s.rxEvents ++ [e] }

/-- `emit` on the TX completion event output (R9, R42). -/
def emitTx (e : Event) (s : State) : State := { s with txEvents := s.txEvents ++ [e] }

/-- `trace SKIP(b)` (R9, R37). -/
def traceSkip (b : Byte) (s : State) : State := { s with rxTrace := s.rxTrace ++ [b] }

/-- Append to the TX raw stream (R60, R211). -/
def putRaw (b : Byte) (s : State) : State := { s with txOut := s.txOut ++ [b] }

/-- Return a function's result (log entry 12). -/
def setRet (r : FnResult) (s : State) : State := { s with ret := some r }

/-- Write the list of waiting requests. -/
def setWaiting (w : List (List Byte)) (s : State) : State := { s with waiting := w }

/-- Write what the environment will present. -/
def setEnv (e : List Stimulus) (s : State) : State := { s with env := e }

/-! ### Ending a frame and raising an error (R180, R301) -/

/-- Back to seeking, or stopped where a stop is pending (last lines of R180). -/
def resumeRx (s : State) : State :=
  if s.rx.stopPending then emitRx .stopped (setRx { s.rx with state := .stopped } s)
  else setRx { s.rx with state := .seek } s

/-- The end of a frame attempt at its checksum byte: its one event, then `resumeRx` (R180). For a recoverable error
this is the whole of `raise` (R301). -/
def endFrame (e : Event) (s : State) : State := resumeRx (emitRx e s)

/-- `raise` of a fatal RX error (R301): its event, its code to `rx.cause`, DEAD. -/
def raiseRxFatal (e : Event) (s : State) : State :=
  setRx { s.rx with cause := e.code, state := .dead } (emitRx e s)

/-- `raise` of a fatal TX error (R301, R225): its event, its code to `tx.cause`, T_DEAD. -/
def raiseTxFatal (e : Event) (s : State) : State :=
  setTx { s.tx with cause := e.code, state := .dead } (emitTx e s)

/-- `raise` (R301), the block's one error entry, by the class of the event: a fatal event latches DEAD in the agent
whose event it is, a recoverable one ends the frame; a request refused at TX changes no state. The events that are
no errors (R300, last line) are not raised. -/
def raise (e : Event) (s : State) : State :=
  match e.cls with
  | .fatal =>
    match e with
    | .txErrTransport _ => raiseTxFatal e s
    | _ => raiseRxFatal e s
  | .recoverable => endFrame e s
  | .refused => emitTx e s
  | .good => s
  | .terminal => s

/-! ### RX operations (R161 to R186) -/

/-- R161. -/
def opSkip (b : Byte) (s : State) : Res := .next (traceSkip b s)

/-- R162. -/
def opStart (s : State) : Res :=
  .next (setRx { s.rx with
    len := 0, cnt := 0, sum := 0, esc := false, oversize := false, state := .lenHi } s)

/-- R163: the byte is the length's high byte, raw. -/
def opLenHi (b : Byte) (s : State) : Res :=
  .next (setRx { s.rx with len := lenDecode b 0, state := .lenLo } s)

/-- The RX registers after R164 with length `n`. -/
def lenLoRx (c : Cfg) (n : Len) (r : Rx) : Rx :=
  { r with
    len := n, cnt := 0, sum := 0, esc := false, oversize := decide (c.rxMaxLen < n),
    state := if n = 0 then .csum else .body }

/-- R164: the byte is the length's low byte, raw. -/
def opLenLo (b : Byte) (s : State) : Res :=
  .next (setRx (lenLoRx s.cfg (lenDecode (hiByte s.rx.len) b) s.rx) s)

/-- R170, R176: the first half of `unescape`. -/
def opEscSet (s : State) : Res := .next (setRx { s.rx with esc := true } s)

/-- `rx.esc <- 0`, the first line of R172 and R178. -/
def escClear (s : State) : State := setRx { s.rx with esc := false } s

/-- The RX registers after R173 with logical byte `v`. -/
def acceptRx (v : Byte) (r : Rx) : Rx :=
  { r with
    buf := if r.oversize then r.buf else bufWrite r.buf r.cnt.toNat v,
    sum := r.sum + v, cnt := r.cnt + 1,
    state := if r.cnt + 1 = r.len then .csum else r.state }

/-- R173: `rx_accept(v)`. A store at or beyond `RX_MAX_LEN` has no entry to go to and faults (log entry 16). -/
def opAccept (v : Byte) (s : State) : Res :=
  if s.rx.oversize = false ∧ s.cfg.rxMaxLen ≤ s.rx.cnt then .fault .bufAddress
  else .next (setRx (acceptRx v s.rx) s)

/-- The event a verified, stored frame gives: R180's last arms and R181. -/
def frameEvent (s : State) : Event :=
  if typeKnown s.cfg (bufByte s.rx.buf 0) then
    .frame (bufByte s.rx.buf 0) (bufSlice s.rx.buf 1 (s.rx.len.toNat - 1))
  else .unknownType (bufByte s.rx.buf 0) (bufSlice s.rx.buf 1 (s.rx.len.toNat - 1))

/-- R180: `rx_verify(c)`; the first test that holds decides (R310). A read beyond `RX_MAX_LEN` faults (log entry
16). -/
def opVerify (c : Byte) (s : State) : Res :=
  if s.rx.sum + c ≠ csumOk then .next (raise (.checksumErr s.rx.len c (csumOk - s.rx.sum)) s)
  else if s.rx.len = 0 then .next (raise .emptyFrame s)
  else if s.rx.oversize then .next (raise (.oversize s.rx.len) s)
  else if s.cfg.rxMaxLen < s.rx.len then .fault .bufAddress
  else .next (endFrame (frameEvent s) s)

/-- R182. -/
def opEosIdle (s : State) : Res := .next (raise .transportClosed s)

/-- R183: `offset` counts the length bytes read. -/
def opEosLen (s : State) : Res :=
  .next (raise (.framingErr .eosInLength (if s.rx.state = .lenHi then 0 else 1) 2) s)

/-- The cause of R184. -/
def eosCause (r : Rx) : FramingCause :=
  if r.esc then .escTruncated else if r.state = .body then .eosInBody else .eosInChecksum

/-- R184. -/
def opEosFrame (s : State) : Res := .next (raise (.framingErr (eosCause s.rx) s.rx.cnt s.rx.len) s)

/-- R185: latched in any live state, honoured at once in SEEK. -/
def opStop (s : State) : Res :=
  if s.rx.state = .seek then
    .next (emitRx .stopped (setRx { s.rx with stopPending := true, state := .stopped } s))
  else .next (setRx { s.rx with stopPending := true } s)

/-- R186: the symbol is consumed and lost. -/
def opIgnore (s : State) : Res := .next s

/-- A raw byte in BODY: R170 to R172. -/
def opBodyByte (b : Byte) (s : State) : Res :=
  if s.rx.esc then opAccept (b ^^^ escXor) (escClear s)
  else if b = escByte then opEscSet s
  else opAccept b s

/-- A raw byte in CSUM: R176 to R178. -/
def opCsumByte (b : Byte) (s : State) : Res :=
  if s.rx.esc then opVerify (b ^^^ escXor) (escClear s)
  else if b = escByte then opEscSet s
  else opVerify b s

/-- R160: the step of RX on one symbol (R35). -/
def rxSymbol (sym : Symbol) (s : State) : Res :=
  match s.rx.state with
  | .seek =>
    match sym with
    | .byte b => if b = startByte then opStart s else opSkip b s
    | .eos => opEosIdle s
    | .stop => opStop s
  | .lenHi =>
    match sym with
    | .byte b => opLenHi b s
    | .eos => opEosLen s
    | .stop => opStop s
  | .lenLo =>
    match sym with
    | .byte b => opLenLo b s
    | .eos => opEosLen s
    | .stop => opStop s
  | .body =>
    match sym with
    | .byte b => opBodyByte b s
    | .eos => opEosFrame s
    | .stop => opStop s
  | .csum =>
    match sym with
    | .byte b => opCsumByte b s
    | .eos => opEosFrame s
    | .stop => opStop s
  | .stopped => opIgnore s
  | .dead => opIgnore s

/-- Raw bytes consumed in order, one RX step each (R66, R70). -/
def feed : List Byte → State → Res
  | [], s => .next s
  | b :: bs, s => andThen (rxSymbol (.byte b) s) (feed bs)

/-! ### The whole-stream function (R188) -/

/-- The event of a frame attempt with length `n`, payload `p` and checksum byte `c` (R180, as one function). -/
def classify (cfg : Cfg) (n : Len) (p : List Byte) (c : Byte) : Event :=
  if verify p c = false then .checksumErr n c (checksum p)
  else
    match p with
    | [] => .emptyFrame
    | t :: data =>
      if cfg.rxMaxLen < n then .oversize n
      else if typeKnown cfg t then .frame t data
      else .unknownType t data

/-- R188, with a bound on the number of turns: drop bytes through the first marker, take the length, unescape
`N + 1` times, classify, go on with what is left. -/
def deframeUpTo (cfg : Cfg) : Nat → List Byte → List Event
  | 0, _ => []
  | _ + 1, [] => []
  | k + 1, b :: r =>
    if b ≠ startByte then deframeUpTo cfg k r
    else
      match r with
      | hi :: lo :: raw =>
        match takeLogical ((lenDecode hi lo).toNat + 1) raw with
        | some (l, rest) =>
          classify cfg (lenDecode hi lo) (l.take (lenDecode hi lo).toNat) (l.getD (lenDecode hi lo).toNat 0)
            :: deframeUpTo cfg k rest
        | none => []
      | [_] => []
      | [] => []

/-- R188: the events of a raw byte sequence read from SEEK with no stop pending. Each turn uses at least one byte. -/
def deframe (cfg : Cfg) (r : List Byte) : List Event := deframeUpTo cfg r.length r

/-! ### TX operations (R210 to R225) -/

/-- `send b` answered OK (R211), on the TX registers `t` the step writes: the byte joins the raw stream and
`tx.sent` counts it. -/
def sendByte (b : Byte) (t : Tx) (s : State) : State := setTx { t with sent := t.sent + 1 } (putRaw b s)

/-- R224: `finish()`. -/
def finishTx (s : State) : State := emitTx (.txDone s.tx.len) (setTx { s.tx with state := .idle } s)

/-- R225: the sink answers FAIL. -/
def failTx (s : State) : State := raise (.txErrTransport s.tx.sent.toNat) s

/-- The TX registers after an accepted request (R214). -/
def acceptTx (p : List Byte) (t : Tx) : Tx :=
  { t with pay := p, len := BitVec.ofNat 16 p.length, idx := 0, sum := 0, sent := 0, state := .start }

/-- R214 in T_IDLE and T_DEAD; in a sending state the request waits (R210, R213; log entry 22). -/
def opReq (p : List Byte) (s : State) : State :=
  if s.tx.state.sending then setWaiting (s.waiting ++ [p]) s
  else if s.tx.state = .dead then raise .txErrDead s
  else if p.length = 0 then raise .txErrEmpty s
  else if s.cfg.txMaxLen.toNat < p.length then raise (.txErrTooLong p.length) s
  else setTx (acceptTx p s.tx) s

/-- The TX registers after logical byte `v` has been sent whole (R218, R220): the logical value is summed. -/
def advanceTx (v : Byte) (t : Tx) : Tx :=
  { t with
    sum := t.sum + v, idx := t.idx + 1,
    state := if t.idx + 1 = t.len then .csum else .data }

/-- The checksum byte of the frame in progress (R221). -/
def txCheck (t : Tx) : Byte := csumOk - t.sum

/-- `tx.pay[tx.idx]` (R41), if it is an entry of the payload. -/
def payByte (t : Tx) : Option Byte := t.pay[t.idx.toNat]?

/-- A byte step on the payload byte at `tx.idx`; an index beyond the payload faults (log entry 17). -/
def withPayByte (s : State) (f : Byte → Res) : Res :=
  match payByte s.tx with
  | some v => f v
  | none => .fault .payAddress

/-! ### The registry on a delivered frame (R250) -/

/-- The registry decodes the RX event with index `k` and returns what it reads; an event that is not `EV_FRAME`, or
none, is not its business (log entry 38). -/
def applyRegistry (k : Nat) (s : State) : State :=
  match s.rxEvents[k]? with
  | some (.frame ftype data) => setRet (registryDecode s.cfg ftype data) s
  | _ => s

/-! ### Reset (R340) -/

/-- The reset input: every piece of state at its value of rule R50, the outputs empty. The configuration is sampled
again, unchanged (R75); what stands outside the block stays (log entry 24). -/
def applyReset (s : State) : State := setEnv s.env (setWaiting s.waiting (State.resetWith s.cfg))

end Sys2Proof.Machine
end

