-- ==== Sys2Proof/Machine/Codes.lean ====
section
/-! DEFINITION. The code maps: the frame-type codes (R99) and the command status codes (R100). A code is looked up
and what the map says of it is returned; no state of RX or TX takes part. -/

namespace Sys2Proof.Machine

/-- FT.LOCAL_CMD_RESPONSE (R99). -/
def execFtLocalCmdResponse (s : State) : Res := .next (setRet (.ftype (lookupFtype s.cfg 0x88)) s)

/-- FT.REMOTE_CMD_RESPONSE (R99). -/
def execFtRemoteCmdResponse (s : State) : Res := .next (setRet (.ftype (lookupFtype s.cfg 0x97)) s)

/-- FT.IO_SAMPLE (R99). -/
def execFtIoSample (s : State) : Res := .next (setRet (.ftype (lookupFtype s.cfg 0x92)) s)

/-- FT.REMOTE_CMD_REQUEST (R99). -/
def execFtRemoteCmdRequest (s : State) : Res := .next (setRet (.ftype (lookupFtype s.cfg 0x17)) s)

/-- FT.UNMAPPED_EXAMPLE (R99). -/
def execFtUnmappedExample (s : State) : Res := .next (setRet (.ftype (lookupFtype s.cfg 0x03)) s)

/-- FT.OTHER (R99): known or not as the configuration says (R7). -/
def execFtOther (c : Byte) (s : State) : Res := .next (setRet (.ftype (lookupFtype s.cfg c)) s)

/-- ST.OK (R100). -/
def execStOk (s : State) : Res := .next (setRet (lookupStatus 0x00) s)

/-- ST.ERROR (R100). -/
def execStError (s : State) : Res := .next (setRet (lookupStatus 0x01) s)

/-- ST.INVALID_COMMAND (R100). -/
def execStInvalidCommand (s : State) : Res := .next (setRet (lookupStatus 0x02) s)

/-- ST.INVALID_PARAMETER (R100). -/
def execStInvalidParameter (s : State) : Res := .next (setRet (lookupStatus 0x03) s)

/-- ST.TRANSMISSION_FAILURE (R100), remote only. -/
def execStTransmissionFailure (s : State) : Res := .next (setRet (lookupStatus 0x04) s)

/-- ST.NO_SECURE_SESSION (R100), remote only. -/
def execStNoSecureSession (s : State) : Res := .next (setRet (lookupStatus 0x0B) s)

/-- ST.ENCRYPTION_ERROR (R100), remote only. -/
def execStEncryptionError (s : State) : Res := .next (setRet (lookupStatus 0x0C) s)

/-- ST.SENT_INSECURELY (R100), remote only. -/
def execStSentInsecurely (s : State) : Res := .next (setRet (lookupStatus 0x0D) s)

/-- ST.UNKNOWN (R255): an unlisted value. -/
def execStUnknown (c : Byte) (s : State) : Res := .next (setRet (lookupStatus c) s)

end Sys2Proof.Machine
end

