-- ==== Sys2Proof/Machine/Functions.lean ====
section
/-! DEFINITION. The function rows: the byte codec (R131 to R138), the whole-frame and whole-stream functions (R223,
R188), the pseudo-operation WIRE (R104) and the allocator (R292). A function returns its result and, the allocator
apart, writes nothing else. -/

namespace Sys2Proof.Machine

/-- `is_special` (R131). -/
def execIsSpecial (v : Byte) (s : State) : Res := .next (setRet (.flag (isSpecial v)) s)

/-- `escape` (R132). -/
def execEscape (v : Byte) (s : State) : Res := .next (setRet (.bytes (escape v)) s)

/-- `unescape` (R133). -/
def execUnescape (r : List Byte) (s : State) : Res := .next (setRet (.unescaped (unescape r)) s)

/-- `checksum` (R134). -/
def execChecksum (p : List Byte) (s : State) : Res := .next (setRet (.byte (checksum p)) s)

/-- `verify` (R135). -/
def execVerify (p : List Byte) (c : Byte) (s : State) : Res := .next (setRet (.flag (verify p c)) s)

/-- `len_encode` (R136). -/
def execLenEncode (n : Len) (s : State) : Res := .next (setRet (.bytes (lenEncode n)) s)

/-- `len_decode` (R137). -/
def execLenDecode (hi lo : Byte) (s : State) : Res := .next (setRet (.num (lenDecode hi lo).toNat) s)

/-- `stuff` (R138). -/
def execStuff (l : List Byte) (s : State) : Res := .next (setRet (.bytes (stuff l)) s)

/-- What `unstuff` returns (R138). -/
def unstuffResult (r : List Byte) : FnResult :=
  match unstuff r with
  | some l => .bytes l
  | none => .escTruncated

/-- `unstuff` (R138). -/
def execUnstuff (r : List Byte) (s : State) : Res := .next (setRet (unstuffResult r) s)

/-- `tx_encode` (R223). -/
def execTxEncode (p : List Byte) (s : State) : Res := .next (setRet (.bytes (txEncode p)) s)

/-- WIRE (R104): it expands to `tx_encode(P)`. -/
def execWire (p : List Byte) (s : State) : Res := .next (setRet (.bytes (txEncode p)) s)

/-- `deframe` (R188). -/
def execDeframe (r : List Byte) (s : State) : Res := .next (setRet (.events (deframe s.cfg r)) s)

/-- FID.NEXT (R292). -/
def execFidNext (s : State) : Res :=
  .next (setRet (.byte (fidNext s.cfg.fidDefault s.fidLast)) (setFid (fidNext s.cfg.fidDefault s.fidLast) s))

end Sys2Proof.Machine
end

