-- ==== Sys2Proof/Machine/Payloads.lean ====
section
/-! DEFINITION. The rows of the payload layouts (R253 to R261). The operand `data` is a payload without its type
byte, which the row fixes (log entry 27); the operand `q` of a row on a command payload carries the type of the
frame it stands in, which `LAYOUT_TRUNCATED` reports (R252, log entry 19). -/

namespace Sys2Proof.Machine

/-- `decode_local_response` (R253). -/
def execDecodeLocalResponse (data : List Byte) (s : State) : Res :=
  .next (setRet (layoutResult .localResponse (readLocalResponse (0x88 :: data))) s)

/-- `decode_remote_response` (R254). -/
def execDecodeRemoteResponse (data : List Byte) (s : State) : Res :=
  .next (setRet (layoutResult .remoteResponse (readRemoteResponse (0x97 :: data))) s)

/-- `decode_status` (R255). -/
def execDecodeStatus (k : RespKind) (v : Byte) (s : State) : Res := .next (setRet (.status (readStatus k v)) s)

/-- `decode_nd_record` (R256). -/
def execDecodeNdRecord (q : CmdData) (s : State) : Res :=
  .next (setRet (layoutResult .ndRecord (readNdRecord q.ftype q.data)) s)

/-- `scan_identifier` (R257). -/
def execScanIdentifier (q : CmdData) (s : State) : Res :=
  .next (setRet (layoutResult .num (scanIdent q.ftype q.data)) s)

/-- `decode_io_sample` (R258). -/
def execDecodeIoSample (data : List Byte) (s : State) : Res :=
  .next (setRet (layoutResult .ioSample (readIoSample (0x92 :: data))) s)

/-- `num_decode` (R259). -/
def execNumDecode (w : NumWidth) (q : CmdData) (s : State) : Res :=
  .next (setRet (layoutResult (fun (n, tail) => .number n tail) (readNumber q.ftype (widthBytes w) q.data)) s)

/-- ATREQ (R260). -/
def execAtreq (t : TypeArg) (fid c0 c1 : Byte) (v : List Byte) (s : State) : Res :=
  .next (setRet (buildAtReq (typeArg s.cfg t) fid c0 c1 v) s)

/-- RATREQ (R261). -/
def execRatreq (fid : Byte) (a64 : BitVec 64) (a16 : BitVec 16) (opt c0 c1 : Byte) (v : List Byte) (s : State) : Res :=
  .next (setRet (buildRatReq fid a64 a16 opt c0 c1 v) s)

end Sys2Proof.Machine
end

