-- ==== Sys2Proof/Machine/RxSteps.lean ====
section
/-! DEFINITION. The RX steps by name (R161 to R186), each with the selection rule R160 gives it, and the two RX
procedures (R173, R180). Named where it is not selected, a step is refused (log entry 13). -/

namespace Sys2Proof.Machine

/-- RX.SKIP (R161). -/
def execRxSkip (b : Byte) (s : State) : Res := onlyIf (s.rx.state == .seek && b != startByte) (opSkip b s)

/-- RX.START (R162). -/
def execRxStart (s : State) : Res := onlyIf (s.rx.state == .seek) (opStart s)

/-- RX.LEN_HI (R163). -/
def execRxLenHi (b : Byte) (s : State) : Res := onlyIf (s.rx.state == .lenHi) (opLenHi b s)

/-- RX.LEN_LO (R164). -/
def execRxLenLo (b : Byte) (s : State) : Res := onlyIf (s.rx.state == .lenLo) (opLenLo b s)

/-- RX.BODY_ESC (R170). -/
def execRxBodyEsc (s : State) : Res := onlyIf (s.rx.state == .body && !s.rx.esc) (opEscSet s)

/-- RX.BODY_LIT (R171). -/
def execRxBodyLit (b : Byte) (s : State) : Res :=
  onlyIf (s.rx.state == .body && !s.rx.esc && b != escByte) (opAccept b s)

/-- RX.BODY_XOR (R172). -/
def execRxBodyXor (b : Byte) (s : State) : Res :=
  onlyIf (s.rx.state == .body && s.rx.esc) (opAccept (b ^^^ escXor) (escClear s))

/-- RX.CSUM_ESC (R176). -/
def execRxCsumEsc (s : State) : Res := onlyIf (s.rx.state == .csum && !s.rx.esc) (opEscSet s)

/-- RX.CSUM_LIT (R177). -/
def execRxCsumLit (b : Byte) (s : State) : Res :=
  onlyIf (s.rx.state == .csum && !s.rx.esc && b != escByte) (opVerify b s)

/-- RX.CSUM_XOR (R178). -/
def execRxCsumXor (b : Byte) (s : State) : Res :=
  onlyIf (s.rx.state == .csum && s.rx.esc) (opVerify (b ^^^ escXor) (escClear s))

/-- RX.EOS_IDLE (R182). -/
def execRxEosIdle (s : State) : Res := onlyIf (s.rx.state == .seek) (opEosIdle s)

/-- RX.EOS_LEN (R183). -/
def execRxEosLen (s : State) : Res := onlyIf (s.rx.state == .lenHi || s.rx.state == .lenLo) (opEosLen s)

/-- RX.EOS_FRAME (R184). -/
def execRxEosFrame (s : State) : Res := onlyIf (s.rx.state == .body || s.rx.state == .csum) (opEosFrame s)

/-- RX.STOP (R185). -/
def execRxStop (s : State) : Res := onlyIf (s.rx.state == .seek || s.rx.state.inFrame) (opStop s)

/-- RX.IGNORE (R186), of any symbol. -/
def execRxIgnore (_sym : Symbol) (s : State) : Res :=
  onlyIf (s.rx.state == .stopped || s.rx.state == .dead) (opIgnore s)

/-- `rx_accept` by name (R173), under its precondition; `rx.esc` is left as both its callers leave it, 0 (log entry
14). -/
def execRxAccept (v : Byte) (s : State) : Res :=
  onlyIf (s.rx.state == .body && decide (s.rx.cnt < s.rx.len)) (opAccept v (escClear s))

/-- `rx_verify` by name (R180), under its precondition; `rx.esc` is left as both its callers leave it, 0 (log entry
14). -/
def execRxVerify (c : Byte) (s : State) : Res :=
  onlyIf (s.rx.state == .csum && s.rx.cnt == s.rx.len) (opVerify c (escClear s))

end Sys2Proof.Machine
end

