-- ==== Sys2Proof/Machine/Symbols.lean ====
section
/-! DEFINITION. The rows with bits on the RX raw stream: raw bytes (SYM8), escape pairs (ESC16), the header (HDR24)
and the frame. A row's raw bytes are consumed by RX in order, each by the RX operation its state selects: the
columns of rule R94. Rows wider than one byte are run whole (log entry 8). What TX does with a byte of each class
(R94's third column) is in the TX steps. -/

namespace Sys2Proof.Machine

/-- START: raw byte 0x7E (R94). -/
def execStart (s : State) : Res := rxSymbol (.byte 0x7E) s

/-- ESC: raw byte 0x7D (R94). -/
def execEsc (s : State) : Res := rxSymbol (.byte 0x7D) s

/-- XON: raw byte 0x11 (R94). -/
def execXon (s : State) : Res := rxSymbol (.byte 0x11) s

/-- XOFF: raw byte 0x13 (R94). -/
def execXoff (s : State) : Res := rxSymbol (.byte 0x13) s

/-- PLAIN: any other raw byte (R94). -/
def execPlain (v : Byte) (s : State) : Res := rxSymbol (.byte v) s

/-- ESC.START: `7D 5E` (R95). -/
def execEscStart (s : State) : Res := feed [0x7D, 0x5E] s

/-- ESC.ESC: `7D 5D` (R95). -/
def execEscEsc (s : State) : Res := feed [0x7D, 0x5D] s

/-- ESC.XON: `7D 31` (R95). -/
def execEscXon (s : State) : Res := feed [0x7D, 0x31] s

/-- ESC.XOFF: `7D 33` (R95). -/
def execEscXoff (s : State) : Res := feed [0x7D, 0x33] s

/-- ESC.ANY: `7D e`, any second byte (R95). -/
def execEscAny (e : Byte) (s : State) : Res := feed [0x7D, e] s

/-- HDR: `7E len_hi len_lo` (R91). -/
def execHdr (hi lo : Byte) (s : State) : Res := feed [0x7E, hi, lo] s

/-- FRAME: the raw bytes of the whole frame (R91). -/
def execFrame (p : List Byte) (s : State) : Res := feed (frameBytes p) s

end Sys2Proof.Machine
end

