-- ==== Sys2Proof/Machine/TxSteps.lean ====
section
/-! DEFINITION. The TX steps (R214 to R222, R225) and the procedure `finish` (R224). A byte step by name is the step
the sink answers OK; TX.FAIL is the step it answers FAIL, which overrides the rest (R211). -/

namespace Sys2Proof.Machine

/-- TX.REQ (R214). -/
def execTxReq (p : List Byte) (s : State) : Res := .next (opReq p s)

/-- TX.START (R215). -/
def execTxStart (s : State) : Res :=
  onlyIf (s.tx.state == .start) (.next (sendByte startByte { s.tx with state := .lenHi } s))

/-- TX.LEN_HI (R216). -/
def execTxLenHi (s : State) : Res :=
  onlyIf (s.tx.state == .lenHi) (.next (sendByte (hiByte s.tx.len) { s.tx with state := .lenLo } s))

/-- TX.LEN_LO (R217). -/
def execTxLenLo (s : State) : Res :=
  onlyIf (s.tx.state == .lenLo) (.next (sendByte (loByte s.tx.len) { s.tx with state := .data } s))

/-- TX.DATA (R218). -/
def execTxData (s : State) : Res :=
  onlyIf (s.tx.state == .data)
    (withPayByte s fun v => onlyIf (!isSpecial v) (.next (sendByte v (advanceTx v s.tx) s)))

/-- TX.DATA_ESC1 (R219). -/
def execTxDataEsc1 (s : State) : Res :=
  onlyIf (s.tx.state == .data)
    (withPayByte s fun v => onlyIf (isSpecial v) (.next (sendByte escByte { s.tx with state := .dataEsc } s)))

/-- TX.DATA_ESC2 (R220). -/
def execTxDataEsc2 (s : State) : Res :=
  onlyIf (s.tx.state == .dataEsc)
    (withPayByte s fun v => .next (sendByte (v ^^^ escXor) (advanceTx v s.tx) s))

/-- TX.CSUM (R221). -/
def execTxCsum (s : State) : Res :=
  onlyIf (s.tx.state == .csum)
    (.next (if isSpecial (txCheck s.tx) then sendByte escByte { s.tx with state := .csumEsc } s
      else finishTx (sendByte (txCheck s.tx) s.tx s)))

/-- TX.CSUM_ESC2 (R222). -/
def execTxCsumEsc2 (s : State) : Res :=
  onlyIf (s.tx.state == .csumEsc) (.next (finishTx (sendByte (txCheck s.tx ^^^ escXor) s.tx s)))

/-- TX.FAIL (R225). -/
def execTxFail (s : State) : Res := onlyIf s.tx.state.sending (.next (failTx s))

/-- `finish` by name (R224), where its callers run it: at a checksum that is one raw byte, or at the second byte of
its pair (log entry 14). -/
def execFinish (s : State) : Res :=
  onlyIf (s.tx.state == .csum && !isSpecial (txCheck s.tx) || s.tx.state == .csumEsc) (.next (finishTx s))

end Sys2Proof.Machine
end

