-- ==== Sys2Proof/Machine/Dispatch.lean ====
section
/-! DEFINITION. The dispatch: one arm per operation of spec/opcode_table.json, each a direct call of its meaning. -/

namespace Sys2Proof.Machine

def exec (i : Instr) (s : State) : Host.Outcome State Fault Refusal :=
  match i with
  | .start => Sys2Proof.Machine.execStart s
  | .esc => Sys2Proof.Machine.execEsc s
  | .xon => Sys2Proof.Machine.execXon s
  | .xoff => Sys2Proof.Machine.execXoff s
  | .plain value => Sys2Proof.Machine.execPlain value s
  | .escStart => Sys2Proof.Machine.execEscStart s
  | .escEsc => Sys2Proof.Machine.execEscEsc s
  | .escXon => Sys2Proof.Machine.execEscXon s
  | .escXoff => Sys2Proof.Machine.execEscXoff s
  | .escAny e => Sys2Proof.Machine.execEscAny e s
  | .hdr lenHi lenLo => Sys2Proof.Machine.execHdr lenHi lenLo s
  | .frame p => Sys2Proof.Machine.execFrame p s
  | .ftLocalCmdResponse => Sys2Proof.Machine.execFtLocalCmdResponse s
  | .ftRemoteCmdResponse => Sys2Proof.Machine.execFtRemoteCmdResponse s
  | .ftIoSample => Sys2Proof.Machine.execFtIoSample s
  | .ftRemoteCmdRequest => Sys2Proof.Machine.execFtRemoteCmdRequest s
  | .ftUnmappedExample => Sys2Proof.Machine.execFtUnmappedExample s
  | .ftOther code => Sys2Proof.Machine.execFtOther code s
  | .stOk => Sys2Proof.Machine.execStOk s
  | .stError => Sys2Proof.Machine.execStError s
  | .stInvalidCommand => Sys2Proof.Machine.execStInvalidCommand s
  | .stInvalidParameter => Sys2Proof.Machine.execStInvalidParameter s
  | .stTransmissionFailure => Sys2Proof.Machine.execStTransmissionFailure s
  | .stNoSecureSession => Sys2Proof.Machine.execStNoSecureSession s
  | .stEncryptionError => Sys2Proof.Machine.execStEncryptionError s
  | .stSentInsecurely => Sys2Proof.Machine.execStSentInsecurely s
  | .stUnknown code => Sys2Proof.Machine.execStUnknown code s
  | .rxSkip b => Sys2Proof.Machine.execRxSkip b s
  | .rxStart => Sys2Proof.Machine.execRxStart s
  | .rxLenHi b => Sys2Proof.Machine.execRxLenHi b s
  | .rxLenLo b => Sys2Proof.Machine.execRxLenLo b s
  | .rxBodyEsc => Sys2Proof.Machine.execRxBodyEsc s
  | .rxBodyLit b => Sys2Proof.Machine.execRxBodyLit b s
  | .rxBodyXor b => Sys2Proof.Machine.execRxBodyXor b s
  | .rxCsumEsc => Sys2Proof.Machine.execRxCsumEsc s
  | .rxCsumLit b => Sys2Proof.Machine.execRxCsumLit b s
  | .rxCsumXor b => Sys2Proof.Machine.execRxCsumXor b s
  | .rxEosIdle => Sys2Proof.Machine.execRxEosIdle s
  | .rxEosLen => Sys2Proof.Machine.execRxEosLen s
  | .rxEosFrame => Sys2Proof.Machine.execRxEosFrame s
  | .rxStop => Sys2Proof.Machine.execRxStop s
  | .rxIgnore sym => Sys2Proof.Machine.execRxIgnore sym s
  | .rxAccept v => Sys2Proof.Machine.execRxAccept v s
  | .rxVerify c => Sys2Proof.Machine.execRxVerify c s
  | .deframe r => Sys2Proof.Machine.execDeframe r s
  | .txReq p => Sys2Proof.Machine.execTxReq p s
  | .txStart => Sys2Proof.Machine.execTxStart s
  | .txLenHi => Sys2Proof.Machine.execTxLenHi s
  | .txLenLo => Sys2Proof.Machine.execTxLenLo s
  | .txData => Sys2Proof.Machine.execTxData s
  | .txDataEsc1 => Sys2Proof.Machine.execTxDataEsc1 s
  | .txDataEsc2 => Sys2Proof.Machine.execTxDataEsc2 s
  | .txCsum => Sys2Proof.Machine.execTxCsum s
  | .txCsumEsc2 => Sys2Proof.Machine.execTxCsumEsc2 s
  | .txFail => Sys2Proof.Machine.execTxFail s
  | .finish => Sys2Proof.Machine.execFinish s
  | .txEncode p => Sys2Proof.Machine.execTxEncode p s
  | .isSpecial v => Sys2Proof.Machine.execIsSpecial v s
  | .escape v => Sys2Proof.Machine.execEscape v s
  | .unescape r => Sys2Proof.Machine.execUnescape r s
  | .checksum p => Sys2Proof.Machine.execChecksum p s
  | .verify p c => Sys2Proof.Machine.execVerify p c s
  | .lenEncode n => Sys2Proof.Machine.execLenEncode n s
  | .lenDecode hi lo => Sys2Proof.Machine.execLenDecode hi lo s
  | .stuff l => Sys2Proof.Machine.execStuff l s
  | .unstuff r => Sys2Proof.Machine.execUnstuff r s
  | .decodeLocalResponse data => Sys2Proof.Machine.execDecodeLocalResponse data s
  | .decodeRemoteResponse data => Sys2Proof.Machine.execDecodeRemoteResponse data s
  | .decodeStatus kind v => Sys2Proof.Machine.execDecodeStatus kind v s
  | .decodeNdRecord q => Sys2Proof.Machine.execDecodeNdRecord q s
  | .scanIdentifier q => Sys2Proof.Machine.execScanIdentifier q s
  | .decodeIoSample data => Sys2Proof.Machine.execDecodeIoSample data s
  | .numDecode w q => Sys2Proof.Machine.execNumDecode w q s
  | .atreq t fid c0 c1 v => Sys2Proof.Machine.execAtreq t fid c0 c1 v s
  | .ratreq fid a64 a16 opt c0 c1 v => Sys2Proof.Machine.execRatreq fid a64 a16 opt c0 c1 v s
  | .wire p => Sys2Proof.Machine.execWire p s
  | .fidNext => Sys2Proof.Machine.execFidNext s

end Sys2Proof.Machine
end

