-- ==== Sys2Proof/WellFormed.lean ====
section
/-! DEFINITION. Which operations the table's rows stand for: a catch-all row does not stand for the values its
format's specific rows name (rule R105), a FRAME has a payload its 16-bit length can count (R92), and an RX row does
not stand for the bytes its selection leaves out (R160). -/

namespace Sys2Proof

/-- The frame-type codes that have rows of their own (R99). -/
def ftypeCodes : List Byte := [0x88, 0x97, 0x92, 0x17, 0x03]

/-- The status codes that have rows of their own (R100). -/
def statusCodes : List Byte := [0x00, 0x01, 0x02, 0x03, 0x04, 0x0B, 0x0C, 0x0D]

/-- Well-formedness of an operation. Operands not tested here have types that hold exactly the row's values. -/
def Instr.wf : Instr → Bool
  | .start => true
  | .esc => true
  | .xon => true
  | .xoff => true
  | .plain v => !Sys2Proof.isSpecial v
  | .escStart => true
  | .escEsc => true
  | .escXon => true
  | .escXoff => true
  | .escAny e => !Sys2Proof.isSpecial (e ^^^ escXor)
  | .hdr _ _ => true
  | .frame p => decide (p.length ≤ 65535)
  | .ftLocalCmdResponse => true
  | .ftRemoteCmdResponse => true
  | .ftIoSample => true
  | .ftRemoteCmdRequest => true
  | .ftUnmappedExample => true
  | .ftOther c => !(ftypeCodes.contains c)
  | .stOk => true
  | .stError => true
  | .stInvalidCommand => true
  | .stInvalidParameter => true
  | .stTransmissionFailure => true
  | .stNoSecureSession => true
  | .stEncryptionError => true
  | .stSentInsecurely => true
  | .stUnknown c => !(statusCodes.contains c)
  | .rxSkip b => b != startByte
  | .rxStart => true
  | .rxLenHi _ => true
  | .rxLenLo _ => true
  | .rxBodyEsc => true
  | .rxBodyLit b => b != escByte
  | .rxBodyXor _ => true
  | .rxCsumEsc => true
  | .rxCsumLit b => b != escByte
  | .rxCsumXor _ => true
  | .rxEosIdle => true
  | .rxEosLen => true
  | .rxEosFrame => true
  | .rxStop => true
  | .rxIgnore _ => true
  | .rxAccept _ => true
  | .rxVerify _ => true
  | .deframe _ => true
  | .txReq _ => true
  | .txStart => true
  | .txLenHi => true
  | .txLenLo => true
  | .txData => true
  | .txDataEsc1 => true
  | .txDataEsc2 => true
  | .txCsum => true
  | .txCsumEsc2 => true
  | .txFail => true
  | .finish => true
  | .txEncode _ => true
  | .isSpecial _ => true
  | .escape _ => true
  | .unescape _ => true
  | .checksum _ => true
  | .verify _ _ => true
  | .lenEncode _ => true
  | .lenDecode _ _ => true
  | .stuff _ => true
  | .unstuff _ => true
  | .decodeLocalResponse _ => true
  | .decodeRemoteResponse _ => true
  | .decodeStatus _ _ => true
  | .decodeNdRecord _ => true
  | .scanIdentifier _ => true
  | .decodeIoSample _ => true
  | .numDecode _ _ => true
  | .atreq _ _ _ _ _ => true
  | .ratreq _ _ _ _ _ _ _ => true
  | .wire _ => true
  | .fidNext => true

end Sys2Proof
end

