-- ==== Sys2Proof/Decode.lean ====
section
/-! DEFINITION. The decoder, total on any bytes of any format and rejecting by name, and the encoder beside it,
both written from the tables of spec/30_encoding.md (rules R91, R94, R95, R99, R100, R105). What distinguishes the
three 8-bit formats is the position a byte stands in (R90), so a decode is of a format and its bytes. -/

namespace Sys2Proof

/-- R94: the class of a raw byte; PLAIN is matched last. -/
def decodeSym8 (b : Byte) : Instr :=
  if b = startByte then .start
  else if b = escByte then .esc
  else if b = xonByte then .xon
  else if b = xoffByte then .xoff
  else .plain b

/-- R95: the escape pair `0x7D e`; ESC.ANY is matched last. -/
def decodeEsc16 (a e : Byte) : Except DecodeError Instr :=
  if a ≠ escByte then .error .notEscape
  else if e = 0x5E then .ok .escStart
  else if e = 0x5D then .ok .escEsc
  else if e = 0x31 then .ok .escXon
  else if e = 0x33 then .ok .escXoff
  else .ok (.escAny e)

/-- R91: the three header bytes. -/
def decodeHdr24 (a hi lo : Byte) : Except DecodeError Instr :=
  if a ≠ startByte then .error .notStart else .ok (.hdr hi lo)

/-- The rest of a frame after its three header bytes: `n` from the length field, `raw` the stuffed part (R91). -/
def decodeFrameRest (n : Len) (raw : List Byte) : Except DecodeError Instr :=
  match unstuff raw with
  | none => .error .escTruncated
  | some l =>
    if l.length ≠ n.toNat + 1 then .error .lengthMismatch
    else if verify (l.take n.toNat) (l.getD n.toNat 0) = false then .error .badChecksum
    else if stuff l ≠ raw then .error .notCanonical
    else .ok (.frame (l.take n.toNat))

/-- R91: a whole frame. -/
def decodeFrame : List Byte → Except DecodeError Instr
  | [] => .error .wrongLength
  | [_] => .error .wrongLength
  | [_, _] => .error .wrongLength
  | a :: hi :: lo :: raw =>
    if a ≠ startByte then .error .notStart else decodeFrameRest (lenDecode hi lo) raw

/-- R99: the frame-type codes; FT.OTHER is matched last. -/
def decodeFtype8 (c : Byte) : Instr :=
  if c = 0x88 then .ftLocalCmdResponse
  else if c = 0x97 then .ftRemoteCmdResponse
  else if c = 0x92 then .ftIoSample
  else if c = 0x17 then .ftRemoteCmdRequest
  else if c = 0x03 then .ftUnmappedExample
  else .ftOther c

/-- R100: the status codes; ST.UNKNOWN is matched last. -/
def decodeStatus8 (c : Byte) : Instr :=
  if c = 0x00 then .stOk
  else if c = 0x01 then .stError
  else if c = 0x02 then .stInvalidCommand
  else if c = 0x03 then .stInvalidParameter
  else if c = 0x04 then .stTransmissionFailure
  else if c = 0x0B then .stNoSecureSession
  else if c = 0x0C then .stEncryptionError
  else if c = 0x0D then .stSentInsecurely
  else .stUnknown c

/-- The instruction the bytes of a format stand for. -/
def decode (fmt : Format) (bs : List Byte) : Except DecodeError Instr :=
  match fmt with
  | .sym8 =>
    match bs with
    | [b] => .ok (decodeSym8 b)
    | _ => .error .wrongLength
  | .esc16 =>
    match bs with
    | [a, e] => decodeEsc16 a e
    | _ => .error .wrongLength
  | .hdr24 =>
    match bs with
    | [a, hi, lo] => decodeHdr24 a hi lo
    | _ => .error .wrongLength
  | .frame => decodeFrame bs
  | .ftype8 =>
    match bs with
    | [c] => .ok (decodeFtype8 c)
    | _ => .error .wrongLength
  | .status8 =>
    match bs with
    | [c] => .ok (decodeStatus8 c)
    | _ => .error .wrongLength
  | .rxStep => .error .noBits
  | .txStep => .error .noBits
  | .func => .error .noBits

/-- The raw bytes of an operation whose row has bits (R91, R94, R95, R99, R100); a row without bits has no bytes. -/
def encode : Instr → List Byte
  | .start => [0x7E]
  | .esc => [0x7D]
  | .xon => [0x11]
  | .xoff => [0x13]
  | .plain v => [v]
  | .escStart => [0x7D, 0x5E]
  | .escEsc => [0x7D, 0x5D]
  | .escXon => [0x7D, 0x31]
  | .escXoff => [0x7D, 0x33]
  | .escAny e => [0x7D, e]
  | .hdr hi lo => [0x7E, hi, lo]
  | .frame p => frameBytes p
  | .ftLocalCmdResponse => [0x88]
  | .ftRemoteCmdResponse => [0x97]
  | .ftIoSample => [0x92]
  | .ftRemoteCmdRequest => [0x17]
  | .ftUnmappedExample => [0x03]
  | .ftOther c => [c]
  | .stOk => [0x00]
  | .stError => [0x01]
  | .stInvalidCommand => [0x02]
  | .stInvalidParameter => [0x03]
  | .stTransmissionFailure => [0x04]
  | .stNoSecureSession => [0x0B]
  | .stEncryptionError => [0x0C]
  | .stSentInsecurely => [0x0D]
  | .stUnknown c => [c]
  | .rxSkip _ => []
  | .rxStart => []
  | .rxLenHi _ => []
  | .rxLenLo _ => []
  | .rxBodyEsc => []
  | .rxBodyLit _ => []
  | .rxBodyXor _ => []
  | .rxCsumEsc => []
  | .rxCsumLit _ => []
  | .rxCsumXor _ => []
  | .rxEosIdle => []
  | .rxEosLen => []
  | .rxEosFrame => []
  | .rxStop => []
  | .rxIgnore _ => []
  | .rxAccept _ => []
  | .rxVerify _ => []
  | .deframe _ => []
  | .txReq _ => []
  | .txStart => []
  | .txLenHi => []
  | .txLenLo => []
  | .txData => []
  | .txDataEsc1 => []
  | .txDataEsc2 => []
  | .txCsum => []
  | .txCsumEsc2 => []
  | .txFail => []
  | .finish => []
  | .txEncode _ => []
  | .isSpecial _ => []
  | .escape _ => []
  | .unescape _ => []
  | .checksum _ => []
  | .verify _ _ => []
  | .lenEncode _ => []
  | .lenDecode _ _ => []
  | .stuff _ => []
  | .unstuff _ => []
  | .decodeLocalResponse _ => []
  | .decodeRemoteResponse _ => []
  | .decodeStatus _ _ => []
  | .decodeNdRecord _ => []
  | .scanIdentifier _ => []
  | .decodeIoSample _ => []
  | .numDecode _ _ => []
  | .atreq _ _ _ _ _ => []
  | .ratreq _ _ _ _ _ _ _ => []
  | .wire _ => []
  | .fidNext => []

/-- The bytes of a table word of `nbits` bits: the first-sent byte is the most significant (R105). -/
def tableBytes : Nat → Nat → List Byte
  | 0, _ => []
  | k + 1, w => BitVec.ofNat 8 (w / 256 ^ k) :: tableBytes k w

/-- The format of a bare table word. The 8-bit formats overlap and a bare word does not say where it stands, so the
rows with fixed bits decide, in the table's order, before the catch-all rows (R105; DESIGN CHOICE, log entry 6). -/
def tableFormat (nbits w : Nat) : Format :=
  if nbits = 8 then
    let b := BitVec.ofNat 8 w
    if isSpecial b then .sym8
    else if ftypeCodes.contains b then .ftype8
    else if statusCodes.contains b then .status8
    else .sym8
  else if nbits = 16 then .esc16
  else if nbits = 24 then .hdr24
  else .frame

/-- The instruction the decoder reads from a table word; `none` where it refuses, or where the word is not whole
bytes. -/
def decodeTableWord (nbits w : Nat) : Option Instr :=
  if nbits % 8 = 0 ∧ w < 2 ^ nbits then
    (decode (tableFormat nbits w) (tableBytes (nbits / 8) w)).toOption
  else none

end Sys2Proof
end

