-- ==== Sys2Proof/Machine/Fetch.lean ====
section
/-! DEFINITION. What the machine does next: the operation that the next thing presented selects (R160, R210), or a
move of the environment that runs none (log entries 3, 4, 22, 23, 24). -/

namespace Sys2Proof.Machine

/-- R160, as a table of operations: the one an RX state and a symbol select. -/
def selectRx (r : Rx) (sym : Symbol) : Instr :=
  match r.state with
  | .seek =>
    match sym with
    | .byte b => if b = startByte then .rxStart else .rxSkip b
    | .eos => .rxEosIdle
    | .stop => .rxStop
  | .lenHi =>
    match sym with
    | .byte b => .rxLenHi b
    | .eos => .rxEosLen
    | .stop => .rxStop
  | .lenLo =>
    match sym with
    | .byte b => .rxLenLo b
    | .eos => .rxEosLen
    | .stop => .rxStop
  | .body =>
    match sym with
    | .byte b => if r.esc then .rxBodyXor b else if b = escByte then .rxBodyEsc else .rxBodyLit b
    | .eos => .rxEosFrame
    | .stop => .rxStop
  | .csum =>
    match sym with
    | .byte b => if r.esc then .rxCsumXor b else if b = escByte then .rxCsumEsc else .rxCsumLit b
    | .eos => .rxEosFrame
    | .stop => .rxStop
  | .stopped => .rxIgnore sym
  | .dead => .rxIgnore sym

/-- The symbol an RX step consumes, as its selection in rule R160 names it; the other operations consume none. -/
def symbolOf : Instr → Option Symbol
  | .rxSkip b => some (.byte b)
  | .rxStart => some (.byte startByte)
  | .rxLenHi b => some (.byte b)
  | .rxLenLo b => some (.byte b)
  | .rxBodyEsc => some (.byte escByte)
  | .rxBodyLit b => some (.byte b)
  | .rxBodyXor b => some (.byte b)
  | .rxCsumEsc => some (.byte escByte)
  | .rxCsumLit b => some (.byte b)
  | .rxCsumXor b => some (.byte b)
  | .rxEosIdle => some .eos
  | .rxEosLen => some .eos
  | .rxEosFrame => some .eos
  | .rxStop => some .stop
  | .rxIgnore sym => some sym
  | _ => none

/-- The byte step of TX on an OK answer (R210): none in T_IDLE and T_DEAD. In T_DATA an index beyond the payload
selects TX.DATA, which faults (log entry 17). -/
def selectTxByte (t : Tx) : Option Instr :=
  match t.state with
  | .idle => none
  | .start => some .txStart
  | .lenHi => some .txLenHi
  | .lenLo => some .txLenLo
  | .data => if (payByte t).any isSpecial then some .txDataEsc1 else some .txData
  | .dataEsc => some .txDataEsc2
  | .csum => some .txCsum
  | .csumEsc => some .txCsumEsc2
  | .dead => none

/-- The byte step of TX on the sink's answer (R210, R211): on FAIL the failure overrides the step. -/
def selectTx (t : Tx) (ok : Bool) : Option Instr :=
  if ok then selectTxByte t else if t.state.sending then some .txFail else none

/-- What comes next. -/
inductive Fetched where
  /-- An operation runs on the state. -/
  | run (i : Instr) (s : State)
  /-- No operation runs; the environment moved, or nothing is presented and the block waits. -/
  | move (s : State)
  /-- What is presented has no meaning. -/
  | refuse (r : Refusal)
deriving DecidableEq, Repr

/-- What the next thing presented selects, on the state with it taken from the list. -/
def fetchStimulus (st : Stimulus) (s : State) : Fetched :=
  match st with
  | .word fmt bs =>
    match decode fmt bs with
    | .ok i => .run i s
    | .error e => .refuse (.undecodable e)
  | .eos => .run (selectRx s.rx .eos) s
  | .stop => .run (selectRx s.rx .stop) s
  | .send p => .run (.txReq p) s
  | .take k =>
    match s.waiting[k]? with
    | some p => if s.tx.state.sending then .move s else .run (.txReq p) (setWaiting (s.waiting.eraseIdx k) s)
    | none => .move s
  | .answer ok =>
    match selectTx s.tx ok with
    | some i => .run i s
    | none => .move s
  | .call i => if i.wf then .run i s else .refuse .illFormed
  | .registry k => .move (applyRegistry k s)
  | .encode r => .move (setRet (registryEncode s.cfg r) s)
  | .reset => .move (applyReset s)

/-- What the machine does next. With nothing presented the block waits (R62, R354; log entry 4). -/
def fetch (s : State) : Fetched :=
  match s.env with
  | [] => .move s
  | st :: rest => fetchStimulus st (setEnv rest s)

end Sys2Proof.Machine
end

