-- ==== Sys2Proof/Machine/Step.lean ====
section
/-! DEFINITION. One step of the machine: what is presented next is taken, and the operation it selects is run. -/

namespace Sys2Proof.Machine

/-- One step: run the operation fetched on the state with what was presented taken from the list. -/
def step (s : State) : Host.Outcome State Fault Refusal :=
  match fetch s with
  | .run i t => exec i t
  | .move t => .next t
  | .refuse r => .refused r

/-- The state with a table word presented next (log entries 5, 6 and 7). -/
def State.withFetchWord (s : State) (nbits w : Nat) : State :=
  { s with env := .word (tableFormat nbits w) (tableBytes (nbits / 8) w) :: s.env }

end Sys2Proof.Machine
end

