-- ==== Sys2Proof/Safety.lean ====
section
/-! DEFINITION. What a good state and a good environment are: the invariants of rules R30 and R43 in the terms of
State, and the inputs on which a step completes. -/

namespace Sys2Proof.Machine

/-- RX stands in BODY or CSUM, where logical bytes are read. -/
def RxSeq.reading : RxSeq → Bool
  | .seek => false
  | .lenHi => false
  | .lenLo => false
  | .body => true
  | .csum => true
  | .stopped => false
  | .dead => false

/-- The codes `rx.cause` may hold (R28, R300). -/
def rxCauses : List Code := [0x00, 0x08, 0x09, 0x0A, 0x0B, 0x0C]

/-- The invariants of RX state, rule R30, and what they rest on. -/
structure RxInv (c : Cfg) (r : Rx) : Prop where
  /-- R30(a). -/
  body : r.state = .body → r.cnt < r.len
  /-- R30(b). -/
  csum : r.state = .csum → r.cnt = r.len
  /-- R30(c), but for the DEAD that `ESC_TRUNCATED` leads to: rule R184 writes the cause and the state there and
  leaves `rx.esc` at 1 (log entry 35). -/
  esc : r.esc = true → r.state.reading = true ∨ r.state = .dead ∧ r.cause = 0x0B
  /-- R30(d). -/
  dead : r.state = .dead ↔ r.cause ≠ 0
  /-- R28: the cause is the code of a fatal RX event. -/
  cause : r.cause ∈ rxCauses
  /-- R30(e). -/
  stopped : r.state = .stopped → r.stopPending = true
  /-- R30(f). -/
  oversize : r.oversize = true → c.rxMaxLen < r.len
  /-- R26: while reading, a frame that fits is not marked oversize and one that does not is. -/
  fits : r.state.reading = true → r.oversize = false → r.len ≤ c.rxMaxLen
  /-- R162: cleared at the start marker, set at LEN_LO. -/
  lens : r.state = .lenHi ∨ r.state = .lenLo → r.oversize = false
  /-- R30(g), R29: every index below `rx.cnt` has been written in this frame. -/
  stored : r.state.reading = true → r.oversize = false → ∀ a < r.cnt.toNat, (bufRead r.buf a).isSome = true
  /-- R30(g): the running sum is the sum of the stored bytes. In an oversize frame none is stored, and no register
  holds the bytes it is the sum of: Obligations.RunningSumIsTheSumOfTheLogicalBytes says it of the bytes read. -/
  sum : r.state.reading = true → r.oversize = false → r.sum = sumBytes (bufSlice r.buf 0 r.cnt.toNat)
  /-- The buffer is in canonical form. -/
  bufWf : bufWf r.buf = true
  /-- R29: no entry stands at or beyond `RX_MAX_LEN`. -/
  bufRange : ∀ e ∈ r.buf, e.1 < c.rxMaxLen.toNat

/-- The raw bytes of the frame in progress that the sink has accepted, by the state of TX (R41, R215 to R222). -/
def sentCount (t : Tx) : Nat :=
  match t.state with
  | .idle => 0
  | .start => 0
  | .lenHi => 1
  | .lenLo => 2
  | .data => 3 + (stuff (t.pay.take t.idx.toNat)).length
  | .dataEsc => 3 + (stuff (t.pay.take t.idx.toNat)).length + 1
  | .csum => 3 + (stuff t.pay).length
  | .csumEsc => 3 + (stuff t.pay).length + 1
  | .dead => 0

/-- The invariants of TX state, rule R43, and what they rest on. -/
structure TxInv (c : Cfg) (t : Tx) : Prop where
  /-- R41: `tx.pay` holds `tx.len` bytes. -/
  payLen : t.state.sending = true → t.pay.length = t.len.toNat
  /-- R41: `tx.len` is in 1..`TX_MAX_LEN`. -/
  lenPos : t.state.sending = true → 1 ≤ t.len.toNat
  lenMax : t.state.sending = true → t.len ≤ c.txMaxLen
  /-- R214: the header is sent before any payload byte. -/
  header : t.state = .start ∨ t.state = .lenHi ∨ t.state = .lenLo → t.idx = 0
  /-- R43(b). -/
  data : t.state = .data ∨ t.state = .dataEsc → t.idx < t.len
  /-- R43(b). -/
  csum : t.state = .csum ∨ t.state = .csumEsc → t.idx = t.len
  /-- R41, R43(b): `tx.sum` is the sum of the payload bytes before `tx.idx`. -/
  sum : t.state.sending = true → t.sum = sumBytes (t.pay.take t.idx.toNat)
  /-- R43(c). -/
  dataEsc : t.state = .dataEsc → (payByte t).any isSpecial = true
  /-- R43(c). -/
  csumEsc : t.state = .csumEsc → isSpecial (txCheck t) = true
  /-- R43(d). -/
  dead : t.state = .dead ↔ t.cause = 0x18
  /-- R41: the cause is 0x18 or 0. -/
  cause : t.cause = 0 ∨ t.cause = 0x18
  /-- R41: `tx.sent` counts the raw bytes of this frame accepted so far. -/
  sent : t.state.sending = true → t.sent.toNat = sentCount t

/-- R67(b), R223: while TX is sending, the TX raw stream ends with the bytes of this frame sent so far, and they are
the first bytes of the frame. -/
def TxWire (s : State) : Prop :=
  s.tx.state.sending = true → ∃ before, s.txOut = before ++ (frameBytes s.tx.pay).take (sentCount s.tx)

/-- R291: the id last returned is a valid one. -/
def FidInv (s : State) : Prop := s.fidLast ≠ 0 ∧ s.fidLast ≠ s.cfg.fidDefault

/-- The invariant of the whole machine. -/
structure Inv (s : State) : Prop where
  cfg : s.cfg.wf = true
  rx : RxInv s.cfg s.rx
  tx : TxInv s.cfg s.tx
  wire : TxWire s
  fid : FidInv s

/-- The functions of the table that have no precondition and touch neither RX nor TX: the FUNC rows less the
procedures of the two agents (R173, R180, R224). -/
def pureFunc : Instr → Bool
  | .rxAccept _ => false
  | .rxVerify _ => false
  | .finish => false
  | i => i.format == .func

/-- An input on which a step completes: bytes that decode, and of the operations named, functions only. -/
def Stimulus.ok : Stimulus → Bool
  | .word fmt bs =>
    match decode fmt bs with
    | .ok _ => true
    | .error _ => false
  | .eos => true
  | .stop => true
  | .send _ => true
  | .take _ => true
  | .answer _ => true
  | .call i => pureFunc i && i.wf
  | .registry _ => true
  | .encode _ => true
  | .reset => true

/-- An environment all of whose inputs are of that kind. -/
def EnvOk (s : State) : Prop := ∀ st ∈ s.env, st.ok = true

end Sys2Proof.Machine
end

