-- ==== Sys2Proof/Certificates/Slice0/Obligations.lean ====
section
/-! DEFINITION. The statements for the provers, and the few predicates they share. Each statement's docstring names
the rules of spec/ it formalises; a clause that is the model's choice names its log entry. -/

open Sys2Proof Sys2Proof.Machine

namespace Sys2Proof.Statements

/-- The outcome `o` is that logical byte `v` has been taken in state `s` (R173): counted and summed, stored at index
`rx.cnt` unless the frame is oversize, `rx.esc` 0; nothing else changes. -/
def Accepted (v : Byte) (s : State) (o : Res) : Prop :=
  ∃ buf',
    o = .next { s with
      rx := { s.rx with
        buf := buf', esc := false, sum := s.rx.sum + v, cnt := s.rx.cnt + 1,
        state := if s.rx.cnt + 1 = s.rx.len then .csum else .body } } ∧
    ∀ a, bufRead buf' a = if s.rx.oversize = false ∧ a = s.rx.cnt.toNat then some v else bufRead s.rx.buf a

/-- The store of R173 has an entry to go to (R29), or there is no store. -/
def StoreFits (s : State) : Prop := s.rx.oversize = true ∨ s.rx.cnt < s.cfg.rxMaxLen

/-- The event of rule R180 for checksum byte `c`, the first test that holds deciding. -/
def verdict (c : Byte) (s : State) : Event :=
  if s.rx.sum + c ≠ 0xFF then .checksumErr s.rx.len c (0xFF - s.rx.sum)
  else if s.rx.len = 0 then .emptyFrame
  else if s.rx.oversize = true then .oversize s.rx.len
  else if typeKnown s.cfg (bufByte s.rx.buf 0) = true then
    .frame (bufByte s.rx.buf 0) ((List.range (s.rx.len.toNat - 1)).map fun i => bufByte s.rx.buf (i + 1))
  else .unknownType (bufByte s.rx.buf 0) ((List.range (s.rx.len.toNat - 1)).map fun i => bufByte s.rx.buf (i + 1))

/-- The outcome `o` is that checksum byte `c` has been verified in state `s` (R180): one event, a pending stop
honoured after it, back to seeking otherwise, `rx.esc` 0; nothing else changes. -/
def Verified (c : Byte) (s : State) (o : Res) : Prop :=
  o = .next { s with
    rxEvents := s.rxEvents ++ verdict c s :: (if s.rx.stopPending then [.stopped] else []),
    rx := { s.rx with esc := false, state := if s.rx.stopPending then .stopped else .seek } }

/-- The read of R180 stays inside the buffer (R29), or there is no read. -/
def ReadFits (s : State) : Prop := s.rx.oversize = true ∨ s.rx.len ≤ s.cfg.rxMaxLen

/-- RX died on event `e` in state `s`: its event, its code in `rx.cause`, DEAD, and nothing else (R301). -/
def DiedOn (e : Event) (s : State) (o : Res) : Prop :=
  o = .next { s with rxEvents := s.rxEvents ++ [e], rx := { s.rx with cause := e.code, state := .dead } }

/-- The outcome is that function result `r` was returned and nothing else changed. -/
def Returns (r : FnResult) (s : State) (o : Res) : Prop := o = .next { s with ret := some r }

/-- A step in state `s` returned function result `r`, left `rest` to be presented and changed nothing else. -/
def StepReturns (rest : List Stimulus) (s : State) (r : FnResult) : Prop :=
  step s = .next { s with env := rest, ret := some r }

/-- A byte the framer sent in state `s` with registers `t` otherwise: it joins the raw stream and is counted (R211). -/
def Sends (b : Byte) (t : Tx) (s : State) : State :=
  { s with txOut := s.txOut ++ [b], tx := { t with sent := s.tx.sent + 1 } }

/-- The byte steps of TX by name (R210). -/
def byteSteps : List Instr :=
  [.txStart, .txLenHi, .txLenLo, .txData, .txDataEsc1, .txDataEsc2, .txCsum, .txCsumEsc2]

/-- The TX operations by name (R210, R224, R225). -/
def isTxOp : Instr → Bool
  | .finish => true
  | i => i.format == .txStep

/-- The operations of RX: its steps and procedures, and the rows of raw bytes (R160, R173, R180, R91, R94, R95). -/
def isRxOp : Instr → Bool
  | .rxAccept _ => true
  | .rxVerify _ => true
  | i => i.format == .rxStep || i.format == .sym8 || i.format == .esc16 || i.format == .hdr24 || i.format == .frame

/-- The requests TX has taken and not answered (R43(a)). -/
def inProgress (s : State) : Nat := if s.tx.state.sending then 1 else 0

/-- A run of `n` steps. -/
def run (n : Nat) (s : State) : Res := Host.Core.run Sys2Proof.core n s

end Sys2Proof.Statements

open Sys2Proof.Statements

/-! ### Encoding -/

/-- R91, R94, R95, R99, R100, R105. For every well-formed operation whose row has bits, the decoder reads the
operation back from its bytes. -/
def Obligations.DecodeOfEncodeIsTheOperation : Prop :=
  ∀ i : Instr, i.wf = true → i.format.hasBits = true → decode i.format (encode i) = .ok i

/-- R91, R94, R95, R99, R100, R105. Where the decoder reads an operation from the bytes of a format, the operation
is well-formed, of that format, and these are its bytes. For the row FRAME this rests on the model's choice that the
row stands for canonical frames alone, while RX accepts other bytes too (log entry 32). -/
def Obligations.EncodeOfDecodeIsTheBytes : Prop :=
  ∀ (fmt : Format) (bs : List Byte) (i : Instr),
    decode fmt bs = .ok i → i.wf = true ∧ i.format = fmt ∧ encode i = bs

/-- R91, R94, R95, R99, R100: words written out from the spec's tables, one or more of each format. The last three
rest on the reading of bare table words (log entries 6 and 7). -/
def Obligations.WordsOfTheSpecDecode : Prop :=
  decode .sym8 [0x7E] = .ok .start ∧ decode .sym8 [0x13] = .ok .xoff ∧ decode .sym8 [0x5E] = .ok (.plain 0x5E) ∧
  decode .esc16 [0x7D, 0x33] = .ok .escXoff ∧ decode .esc16 [0x7D, 0x21] = .ok (.escAny 0x21) ∧
  decode .hdr24 [0x7E, 0x00, 0x0F] = .ok (.hdr 0x00 0x0F) ∧
  decode .frame [0x7E, 0x00, 0x05, 0x88, 0x7D, 0x5E, 0x7D, 0x5D, 0x7D, 0x31, 0x7D, 0x33, 0x58] =
    .ok (.frame [0x88, 0x7E, 0x7D, 0x11, 0x13]) ∧
  decode .ftype8 [0x97] = .ok .ftRemoteCmdResponse ∧ decode .status8 [0x0B] = .ok .stNoSecureSession ∧
  decode .status8 [0x05] = .ok (.stUnknown 0x05) ∧ decode .rxStep [] = .error .noBits ∧
  decodeTableWord 24 0x7E0007 = some (.hdr 0x00 0x07) ∧ decodeTableWord 16 0x7D5E = some .escStart ∧
  decodeTableWord 8 0x92 = some .ftIoSample

/-! ### The byte codec -/

/-- R138, its laws (a) to (e): unstuffing takes back stuffing; stuffing is injective; stuffed bytes hold no 0x7E,
0x11 or 0x13, and 0x7D only before the second byte of a canonical pair; the bounds on the length; and raw bytes that
hold a raw 0x7E, 0x11 or 0x13 are not the stuffing of what they unstuff to. -/
def Obligations.StuffingLaws : Prop :=
  (∀ l, unstuff (stuff l) = some l) ∧
  (∀ l m, stuff l = stuff m → l = m) ∧
  (∀ l, (0x7E : Byte) ∉ stuff l ∧ (0x11 : Byte) ∉ stuff l ∧ (0x13 : Byte) ∉ stuff l) ∧
  (∀ (l : List Byte) (k : Nat), (stuff l)[k]? = some 0x7D → ∃ v, isSpecial v = true ∧ (stuff l)[k + 1]? = some (v ^^^ 0x20)) ∧
  (∀ l, l.length ≤ (stuff l).length ∧ (stuff l).length ≤ 2 * l.length) ∧
  (∀ r l, unstuff r = some l → ((0x7E : Byte) ∈ r ∨ (0x11 : Byte) ∈ r ∨ (0x13 : Byte) ∈ r) → stuff l ≠ r)

/-- R135 and its corner cases: exactly one checksum byte verifies a payload, and a change of exactly one payload
byte is detected. -/
def Obligations.ChecksumDetectsOneByte : Prop :=
  (∀ p c, verify p c = true ↔ c = checksum p) ∧
  (∀ (p : List Byte) (k : Nat) (v : Byte) (h : k < p.length), p[k] ≠ v → verify (p.set k v) (checksum p) = false)

/-- R131, R132, R133: the rows `is_special`, `escape` and `unescape` return what their rules give and change nothing
else. -/
def Obligations.EscapeFunctionsReturn : Prop :=
  ∀ (s : State) (v : Byte),
    Returns (.flag (decide (v = 0x7E ∨ v = 0x7D ∨ v = 0x11 ∨ v = 0x13))) s (exec (.isSpecial v) s) ∧
    Returns (.bytes (if v = 0x7E ∨ v = 0x7D ∨ v = 0x11 ∨ v = 0x13 then [0x7D, v ^^^ 0x20] else [v])) s
      (exec (.escape v) s) ∧
    Returns (.unescaped .endOfStream) s (exec (.unescape []) s) ∧
    Returns (.unescaped .escTruncated) s (exec (.unescape [0x7D]) s) ∧
    (∀ rest, v ≠ 0x7D → Returns (.unescaped (.byte v rest)) s (exec (.unescape (v :: rest)) s)) ∧
    (∀ rest, Returns (.unescaped (.byte (v ^^^ 0x20) rest)) s (exec (.unescape (0x7D :: v :: rest)) s))

/-- R134, R135, R136, R137: the rows `checksum`, `verify`, `len_encode` and `len_decode` return what their rules
give, in integer arithmetic, and change nothing else. -/
def Obligations.ChecksumAndLengthFunctionsReturn : Prop :=
  ∀ (s : State) (p : List Byte) (c hi lo : Byte) (n : Len),
    Returns (.byte (BitVec.ofNat 8 (255 - (p.map BitVec.toNat).sum % 256))) s (exec (.checksum p) s) ∧
    Returns (.flag (decide (((p.map BitVec.toNat).sum + c.toNat) % 256 = 255))) s (exec (.verify p c) s) ∧
    Returns (.bytes [BitVec.ofNat 8 (n.toNat / 256), BitVec.ofNat 8 (n.toNat % 256)]) s (exec (.lenEncode n) s) ∧
    Returns (.num (hi.toNat * 256 + lo.toNat)) s (exec (.lenDecode hi lo) s)

/-- R138: the rows `stuff` and `unstuff` return the escapes in order, and the logical bytes that `unescape` gives
from the left, or `ESC_TRUNCATED`; nothing else changes. -/
def Obligations.StuffFunctionsReturn : Prop :=
  (∀ (s : State) (l : List Byte), Returns (.bytes (l.flatMap escape)) s (exec (.stuff l) s)) ∧
  (∀ (s : State) (r l : List Byte), unstuff r = some l → Returns (.bytes l) s (exec (.unstuff r) s)) ∧
  (∀ (s : State) (r : List Byte), unstuff r = none → Returns .escTruncated s (exec (.unstuff r) s)) ∧
  unstuff [] = some [] ∧
  (∀ r v rest, unescape r = .byte v rest → unstuff r = (unstuff rest).map (v :: ·)) ∧
  (∀ r, unescape r = .escTruncated → unstuff r = none)

/-- R223, R104: the rows `tx_encode` and WIRE return the start marker, the length and the stuffed payload and
checksum for a payload of 1 to 65535 bytes. Outside that domain they return a free value of the model's (log entry
18). Nothing else changes. -/
def Obligations.WholeFrameFunctionsReturn : Prop :=
  ∀ (s : State) (p : List Byte),
    (1 ≤ p.length → p.length ≤ 65535 →
      Returns (.bytes ([0x7E, BitVec.ofNat 8 (p.length / 256), BitVec.ofNat 8 (p.length % 256)] ++
        stuff (p ++ [checksum p]))) s (exec (.txEncode p) s) ∧
      exec (.wire p) s = exec (.txEncode p) s) ∧
    (∃ bs, Returns (.bytes bs) s (exec (.txEncode p) s) ∧ Returns (.bytes bs) s (exec (.wire p) s))

/-! ### The RX steps -/

/-- R161. In SEEK, RX.SKIP of a byte other than 0x7E, the escape marker among them, appends one trace record and
changes nothing else. -/
def Obligations.RxSkipTracesTheByte : Prop :=
  ∀ (s : State) (b : Byte), s.rx.state = .seek → b ≠ 0x7E →
    exec (.rxSkip b) s = .next { s with rxTrace := s.rxTrace ++ [b] }

/-- R162. In SEEK, RX.START clears length, count, sum, escape and oversize bits and goes to LEN_HI; it emits and
traces nothing and changes nothing else. -/
def Obligations.RxStartBeginsAFrame : Prop :=
  ∀ s : State, s.rx.state = .seek →
    exec .rxStart s = .next { s with
      rx := { s.rx with len := 0, cnt := 0, sum := 0, esc := false, oversize := false, state := .lenHi } }

/-- R163. In LEN_HI, RX.LEN_HI takes any byte raw, 0x7E and 0x7D among them, as the length's high byte, and nothing
else changes. -/
def Obligations.RxLenHiTakesAnyByte : Prop :=
  ∀ (s : State) (b : Byte), s.rx.state = .lenHi →
    exec (.rxLenHi b) s = .next { s with
      rx := { s.rx with len := BitVec.ofNat 16 (b.toNat * 256), state := .lenLo } }

/-- R164. In LEN_LO, RX.LEN_LO takes any byte raw as the length's low byte, clears count, sum and escape bit, marks
a frame longer than the buffer, and goes to BODY, or to CSUM for length 0; nothing else changes. -/
def Obligations.RxLenLoSetsTheLength : Prop :=
  ∀ (s : State) (b : Byte) (n : Len), s.rx.state = .lenLo →
    n = BitVec.ofNat 16 (s.rx.len.toNat / 256 * 256 + b.toNat) →
    exec (.rxLenLo b) s = .next { s with
      rx := { s.rx with
        len := n, cnt := 0, sum := 0, esc := false, oversize := decide (s.cfg.rxMaxLen < n),
        state := if n = 0 then .csum else .body } }

/-- R170, R176. In BODY and in CSUM with the escape bit clear, the escape marker sets the bit and nothing else
changes. -/
def Obligations.RxEscapeMarkerSetsTheBit : Prop :=
  ∀ s : State, s.rx.esc = false →
    (s.rx.state = .body → exec .rxBodyEsc s = .next { s with rx := { s.rx with esc := true } }) ∧
    (s.rx.state = .csum → exec .rxCsumEsc s = .next { s with rx := { s.rx with esc := true } })

/-- R171, R172, R173. In BODY, a literal byte other than 0x7D is taken as it is, the second byte of a pair with bit 5
flipped, and `rx_accept` takes its logical byte: counted, summed, stored unless oversize, CSUM after the last; nothing
else changes. `rx_accept` by name leaves the escape bit as its callers do (log entry 14). A store outside the buffer
faults (log entry 16). -/
def Obligations.RxBodyTakesLogicalBytes : Prop :=
  ∀ (s : State) (b : Byte), s.rx.state = .body →
    (StoreFits s →
      (s.rx.esc = false → b ≠ 0x7D → Accepted b s (exec (.rxBodyLit b) s)) ∧
      (s.rx.esc = true → Accepted (b ^^^ 0x20) s (exec (.rxBodyXor b) s)) ∧
      (s.rx.cnt < s.rx.len → Accepted b s (exec (.rxAccept b) s))) ∧
    (¬ StoreFits s →
      (s.rx.esc = false → b ≠ 0x7D → exec (.rxBodyLit b) s = .fault .bufAddress) ∧
      (s.rx.esc = true → exec (.rxBodyXor b) s = .fault .bufAddress) ∧
      (s.rx.cnt < s.rx.len → exec (.rxAccept b) s = .fault .bufAddress))

/-- R177, R178, R180, R181, R310. In CSUM, the logical checksum byte gives exactly one event, by the priority
checksum, empty, oversize, unknown type, good; then EV_STOPPED and STOPPED if a stop is pending, else SEEK; nothing
else changes. `rx_verify` by name leaves the escape bit as its callers do (log entry 14). A read outside the buffer
faults (log entry 16). -/
def Obligations.RxChecksumByteIsVerified : Prop :=
  ∀ (s : State) (b : Byte), s.rx.state = .csum →
    (ReadFits s →
      (s.rx.esc = false → b ≠ 0x7D → Verified b s (exec (.rxCsumLit b) s)) ∧
      (s.rx.esc = true → Verified (b ^^^ 0x20) s (exec (.rxCsumXor b) s)) ∧
      (s.rx.cnt = s.rx.len → Verified b s (exec (.rxVerify b) s))) ∧
    (¬ ReadFits s → s.rx.len ≠ 0 →
      (s.rx.esc = false → b ≠ 0x7D → s.rx.sum + b = 0xFF → exec (.rxCsumLit b) s = .fault .bufAddress) ∧
      (s.rx.esc = true → s.rx.sum + (b ^^^ 0x20) = 0xFF → exec (.rxCsumXor b) s = .fault .bufAddress) ∧
      (s.rx.cnt = s.rx.len → s.rx.sum + b = 0xFF → exec (.rxVerify b) s = .fault .bufAddress))

/-- R182, R183, R184, R301. The end of the stream is fatal: between frames EV_TRANSPORT_CLOSED; in the length field
EOS_IN_LENGTH with the length bytes read out of two; in BODY and CSUM ESC_TRUNCATED, EOS_IN_BODY or EOS_IN_CHECKSUM
with count and length. The code goes to `rx.cause`, RX is DEAD, and nothing else changes. -/
def Obligations.RxEndOfStreamIsFatal : Prop :=
  ∀ s : State,
    (s.rx.state = .seek → DiedOn .transportClosed s (exec .rxEosIdle s)) ∧
    (s.rx.state = .lenHi → DiedOn (.framingErr .eosInLength 0 2) s (exec .rxEosLen s)) ∧
    (s.rx.state = .lenLo → DiedOn (.framingErr .eosInLength 1 2) s (exec .rxEosLen s)) ∧
    (s.rx.state = .body ∨ s.rx.state = .csum → s.rx.esc = true →
      DiedOn (.framingErr .escTruncated s.rx.cnt s.rx.len) s (exec .rxEosFrame s)) ∧
    (s.rx.state = .body → s.rx.esc = false →
      DiedOn (.framingErr .eosInBody s.rx.cnt s.rx.len) s (exec .rxEosFrame s)) ∧
    (s.rx.state = .csum → s.rx.esc = false →
      DiedOn (.framingErr .eosInChecksum s.rx.cnt s.rx.len) s (exec .rxEosFrame s)) ∧
    (Event.code .transportClosed = 0x0C ∧ Event.code (.framingErr .eosInLength 0 2) = 0x08 ∧
      Event.code (.framingErr .eosInBody s.rx.cnt s.rx.len) = 0x09 ∧
      Event.code (.framingErr .eosInChecksum s.rx.cnt s.rx.len) = 0x0A ∧
      Event.code (.framingErr .escTruncated s.rx.cnt s.rx.len) = 0x0B)

/-- R185, R186. STOP in SEEK stops RX at once with EV_STOPPED; in a frame it is only latched. In STOPPED and DEAD
every symbol is consumed with no effect at all. Nothing else changes. -/
def Obligations.RxStopAndIgnore : Prop :=
  ∀ (s : State) (sym : Symbol),
    (s.rx.state = .seek →
      exec .rxStop s = .next { s with
        rxEvents := s.rxEvents ++ [.stopped], rx := { s.rx with stopPending := true, state := .stopped } }) ∧
    (s.rx.state.inFrame = true →
      exec .rxStop s = .next { s with rx := { s.rx with stopPending := true } }) ∧
    (s.rx.state = .stopped ∨ s.rx.state = .dead → exec (.rxIgnore sym) s = .next s)

/-- R160. Of the RX steps that consume a symbol, exactly one is selected in a state: it does what RX does on the
symbol, and each other one is refused by name (the refusal is the model's, log entry 13). -/
def Obligations.ExactlyOneRxStepIsSelected : Prop :=
  ∀ (s : State) (sym : Symbol),
    symbolOf (selectRx s.rx sym) = some sym ∧
    ∀ i : Instr, symbolOf i = some sym →
      (i = selectRx s.rx sym → exec i s = rxSymbol sym s) ∧
      (i ≠ selectRx s.rx sym → exec i s = .refused .notSelected)

/-! ### Raw bytes, pairs, headers and frames -/

/-- R94, R95, R91, R160. Every row of raw bytes (a byte, a pair, a header, a frame) does in every state what its bytes
do in order, and each byte does what the RX step that the state selects for it does; a stop of one is the whole's.
That a row of several bytes is one operation is the model's choice (log entry 8). -/
def Obligations.RawByteRowsRunTheSelectedStep : Prop :=
  (∀ (s : State) (i : Instr), i.wf = true → i.format ∈ [Format.sym8, .esc16, .hdr24, .frame] →
    exec i s = feed (encode i) s) ∧
  (∀ s : State, feed [] s = .next s) ∧
  (∀ (s : State) (b : Byte) (bs : List Byte),
    (∀ t, exec (selectRx s.rx (.byte b)) s = .next t → feed (b :: bs) s = feed bs t) ∧
    (∀ f, exec (selectRx s.rx (.byte b)) s = .fault f → feed (b :: bs) s = .fault f) ∧
    (∀ r, exec (selectRx s.rx (.byte b)) s ≠ .refused r))

/-- R94, R95, R91, R35. In a state that keeps the invariants of R30, every row of raw bytes (a byte, a pair, a
header, a frame) completes; the invariants are kept, TX is untouched, and RX's outputs only grow. R35 and R66 give RX
one byte a step: that a pair, a header or a frame is one operation is the model's choice (log entry 8). -/
def Obligations.RowsOfRawBytesComplete : Prop :=
  ∀ (s : State) (i : Instr) (b hi lo : Byte) (p : List Byte),
    i ∈ [.start, .esc, .xon, .xoff, .plain b, .escStart, .escEsc, .escXon, .escXoff, .escAny b, .hdr hi lo, .frame p] →
    RxInv s.cfg s.rx →
    ∃ t, exec i s = .next t ∧ RxInv t.cfg t.rx ∧
      t = { s with rx := t.rx, rxEvents := t.rxEvents, rxTrace := t.rxTrace } ∧
      s.rxEvents <+: t.rxEvents ∧ s.rxTrace <+: t.rxTrace

/-- R95, R94. The row of an escape pair takes, in BODY with the escape bit clear, one logical byte, the second raw
byte with bit 5 flipped, and in CSUM verifies it; the four canonical pairs stand for 0x7E, 0x7D, 0x11 and 0x13. That
the pair is one operation is the model's choice (log entry 8); elsewhere it does what its two bytes do
(RawByteRowsRunTheSelectedStep). -/
def Obligations.EscapePairIsOneLogicalByte : Prop :=
  ∀ (s : State) (i : Instr) (e v : Byte),
    (i, v) ∈ ([(.escStart, 0x7E), (.escEsc, 0x7D), (.escXon, 0x11), (.escXoff, 0x13), (.escAny e, e ^^^ 0x20)] :
      List (Instr × Byte)) →
    s.rx.esc = false →
    (s.rx.state = .body → StoreFits s → Accepted v s (exec i s)) ∧
    (s.rx.state = .csum → ReadFits s → Verified v s (exec i s))

/-- R91, R92, R162, R163, R164. In SEEK, a header takes RX to the payload, or for length 0 to the checksum, with the
big-endian length and clear registers; nothing else changes. That the header is one operation is the model's choice
(log entry 8); elsewhere it does what its three bytes do (RawByteRowsRunTheSelectedStep). -/
def Obligations.HeaderSetsTheLength : Prop :=
  ∀ (s : State) (hi lo : Byte) (n : Len), s.rx.state = .seek →
    n = BitVec.ofNat 16 (hi.toNat * 256 + lo.toNat) →
    exec (.hdr hi lo) s = .next { s with
      rx := { s.rx with
        len := n, cnt := 0, sum := 0, esc := false, oversize := decide (s.cfg.rxMaxLen < n),
        state := if n = 0 then .csum else .body } }

/-- R30(g), R23, R24, R29, R173. From LEN_LO, the low length byte and then any raw bytes that stand for at most the
frame's logical bytes leave RX in BODY, or in CSUM after the last, with their count and their sum modulo 256, also in an
oversize frame; in one that fits the buffer holds them in order. (Feeding the bytes at once is the model's, log entry
8.) -/
def Obligations.RunningSumIsTheSumOfTheLogicalBytes : Prop :=
  ∀ (s : State) (b : Byte) (raw l : List Byte) (n : Len), s.rx.state = .lenLo →
    n = BitVec.ofNat 16 (s.rx.len.toNat / 256 * 256 + b.toNat) →
    unstuff raw = some l → l.length ≤ n.toNat →
    ∃ t, feed (b :: raw) s = .next t ∧
      t.rx.state = (if l.length = n.toNat then .csum else .body) ∧ t.rx.esc = false ∧ t.rx.len = n ∧
      t.rx.cnt.toNat = l.length ∧ t.rx.sum.toNat = (l.map BitVec.toNat).sum % 256 ∧
      (t.rx.oversize = true ↔ s.cfg.rxMaxLen < n) ∧
      (t.rx.oversize = false → ∀ i < l.length, bufRead t.rx.buf i = l[i]?) ∧
      t.rxEvents = s.rxEvents

/-- R188, second half, R91. From any state in SEEK with no stop pending, the frame of a payload that fits the buffer
gives exactly one event, EV_FRAME or EV_UNKNOWN_TYPE with every payload byte, no trace, and RX is back in SEEK. That
the frame is one operation is the model's choice (log entry 8); an empty or oversize one, one with a stop pending or
one elsewhere does what its bytes do (RawByteRowsRunTheSelectedStep). -/
def Obligations.FrameDeliversItsPayload : Prop :=
  ∀ (s : State) (t : Byte) (data : List Byte),
    s.rx.state = .seek → s.rx.stopPending = false → (t :: data).length ≤ s.cfg.rxMaxLen.toNat →
    ∃ rx', exec (.frame (t :: data)) s = .next { s with
        rx := rx',
        rxEvents := s.rxEvents ++ [if typeKnown s.cfg t then .frame t data else .unknownType t data] } ∧
      rx'.state = .seek ∧ rx'.stopPending = false ∧ rx'.cause = s.rx.cause

/-- R188, first half. From any state in SEEK with no stop pending, the raw bytes fed to RX one by one give exactly
the events that the row `deframe` returns for them, and `deframe` changes nothing but its result (that the row starts
from SEEK with no stop pending is the model's reading, log entry 26). -/
def Obligations.StreamGivesTheEventsOfDeframe : Prop :=
  ∀ (s : State) (r : List Byte), s.rx.state = .seek → s.rx.stopPending = false →
    ∃ es t, exec (.deframe r) s = .next { s with ret := some (.events es) } ∧
      feed r s = .next t ∧ t.rxEvents = s.rxEvents ++ es ∧ t.tx = s.tx ∧ t.txOut = s.txOut ∧
      t.txEvents = s.txEvents

/-- R187, R67(a). While a frame is in progress a symbol gives no event, unless it ends the attempt; then it gives
exactly one, and EV_STOPPED after it if RX stops. -/
def Obligations.OneEventPerFrameAttempt : Prop :=
  ∀ (s t : State) (sym : Symbol), s.rx.state.inFrame = true → rxSymbol sym s = .next t →
    (t.rx.state.inFrame = true → t.rxEvents = s.rxEvents) ∧
    (t.rx.state.inFrame = false →
      ∃ e, e ≠ .stopped ∧
        t.rxEvents = s.rxEvents ++ e :: (if t.rx.state = .stopped then [.stopped] else []))

/-- R301, R300, R36. Whatever symbol RX takes, an error event it emits does exactly this to RX: a fatal one puts its
code in `rx.cause` and RX in DEAD and writes nothing else; a recoverable one leaves the cause and goes to SEEK, or to
STOPPED if a stop is pending. The code and the class of every event are those of the table of R36 (its column, not the
bits of the code: log entry 30). -/
def Obligations.ErrorEventsDoWhatRaiseDoes : Prop :=
  (∀ (ft got want : Byte) (data : List Byte) (n offset expected : Len) (k : Nat),
    [Event.frame ft data, .checksumErr n got want, .unknownType ft data, .emptyFrame, .oversize n,
      .framingErr .eosInLength offset expected, .framingErr .eosInBody offset expected,
      .framingErr .eosInChecksum offset expected, .framingErr .escTruncated offset expected, .transportClosed,
      .stopped, .txDone n, .txErrEmpty, .txErrTooLong k, .txErrTransport k, .txErrDead].map
        (fun e => (e.code, e.cls)) =
      [(0x00, .good), (0x01, .recoverable), (0x02, .recoverable), (0x03, .recoverable), (0x04, .recoverable),
        (0x08, .fatal), (0x09, .fatal), (0x0A, .fatal), (0x0B, .fatal), (0x0C, .fatal),
        (0x0F, .terminal), (0x10, .good), (0x11, .refused), (0x12, .refused), (0x18, .fatal), (0x19, .refused)]) ∧
  ∀ (s t : State) (sym : Symbol) (e : Event) (more : List Event),
    rxSymbol sym s = .next t → t.rxEvents = s.rxEvents ++ e :: more →
    (e.cls = .fatal → t.rx = { s.rx with cause := e.code, state := .dead } ∧ more = []) ∧
    (e.cls = .recoverable →
      t.rx = { s.rx with esc := false, state := if s.rx.stopPending then .stopped else .seek } ∧
      more = if s.rx.stopPending then [.stopped] else [])

/-! ### The TX steps -/

/-- R214, R210, R212, R213. A request in T_DEAD, an empty one and one over TX_MAX_LEN are refused with their events,
in that order, and nothing sent; any other is taken in T_IDLE, whatever its type byte; in a sending state a request
waits (held outside the block, log entry 22). Nothing else changes. -/
def Obligations.TxRequestIsTakenRefusedOrWaits : Prop :=
  ∀ (s : State) (p : List Byte),
    (s.tx.state.sending = true → exec (.txReq p) s = .next { s with waiting := s.waiting ++ [p] }) ∧
    (s.tx.state = .dead → exec (.txReq p) s = .next { s with txEvents := s.txEvents ++ [.txErrDead] }) ∧
    (s.tx.state = .idle → p = [] → exec (.txReq p) s = .next { s with txEvents := s.txEvents ++ [.txErrEmpty] }) ∧
    (s.tx.state = .idle → p ≠ [] → s.cfg.txMaxLen.toNat < p.length →
      exec (.txReq p) s = .next { s with txEvents := s.txEvents ++ [.txErrTooLong p.length] }) ∧
    (s.tx.state = .idle → p ≠ [] → p.length ≤ s.cfg.txMaxLen.toNat →
      exec (.txReq p) s = .next { s with
        tx := { s.tx with
          pay := p, len := BitVec.ofNat 16 p.length, idx := 0, sum := 0, sent := 0, state := .start } })

/-- R215, R216, R217, R211. The three header bytes: 0x7E, the high and the low byte of the length, raw whatever they
are; each joins the raw stream and is counted, and nothing else changes. -/
def Obligations.TxHeaderBytesAreSentRaw : Prop :=
  ∀ s : State,
    (s.tx.state = .start → exec .txStart s = .next (Sends 0x7E { s.tx with state := .lenHi } s)) ∧
    (s.tx.state = .lenHi →
      exec .txLenHi s = .next (Sends (BitVec.ofNat 8 (s.tx.len.toNat / 256)) { s.tx with state := .lenLo } s)) ∧
    (s.tx.state = .lenLo →
      exec .txLenLo s = .next (Sends (BitVec.ofNat 8 (s.tx.len.toNat % 256)) { s.tx with state := .data } s))

/-- R218, R219, R220, R211. A payload byte that is not special is sent as it is; a special one as 0x7D and then the
byte with bit 5 flipped; the logical value is summed and the index moves once, at the byte's last raw byte; nothing
else changes. An index beyond the payload faults (log entry 17). -/
def Obligations.TxPayloadBytesAreStuffed : Prop :=
  ∀ s : State,
    (∀ v, s.tx.pay[s.tx.idx.toNat]? = some v →
      (s.tx.state = .data → isSpecial v = false →
        exec .txData s = .next (Sends v { s.tx with
          sum := s.tx.sum + v, idx := s.tx.idx + 1,
          state := if s.tx.idx + 1 = s.tx.len then .csum else .data } s)) ∧
      (s.tx.state = .data → isSpecial v = true →
        exec .txDataEsc1 s = .next (Sends 0x7D { s.tx with state := .dataEsc } s)) ∧
      (s.tx.state = .dataEsc →
        exec .txDataEsc2 s = .next (Sends (v ^^^ 0x20) { s.tx with
          sum := s.tx.sum + v, idx := s.tx.idx + 1,
          state := if s.tx.idx + 1 = s.tx.len then .csum else .data } s))) ∧
    (s.tx.pay[s.tx.idx.toNat]? = none →
      (s.tx.state = .data → exec .txData s = .fault .payAddress ∧ exec .txDataEsc1 s = .fault .payAddress) ∧
      (s.tx.state = .dataEsc → exec .txDataEsc2 s = .fault .payAddress))

/-- R221, R222, R224, R211. The checksum byte is sent as it is, or as 0x7D and then with bit 5 flipped if special;
its last raw byte finishes the frame with TX_DONE and T_IDLE; nothing else changes. `finish` by name is its procedure
alone, where its callers run it (log entry 14). -/
def Obligations.TxChecksumEndsTheFrame : Prop :=
  ∀ (s : State) (c : Byte), c = 0xFF - s.tx.sum →
    (s.tx.state = .csum → isSpecial c = true →
      exec .txCsum s = .next (Sends 0x7D { s.tx with state := .csumEsc } s)) ∧
    (s.tx.state = .csum → isSpecial c = false →
      exec .txCsum s = .next { Sends c { s.tx with state := .idle } s with
        txEvents := s.txEvents ++ [.txDone s.tx.len] }) ∧
    (s.tx.state = .csumEsc →
      exec .txCsumEsc2 s = .next { Sends (c ^^^ 0x20) { s.tx with state := .idle } s with
        txEvents := s.txEvents ++ [.txDone s.tx.len] }) ∧
    (s.tx.state = .csumEsc ∨ s.tx.state = .csum ∧ isSpecial c = false →
      exec .finish s = .next { s with
        txEvents := s.txEvents ++ [.txDone s.tx.len], tx := { s.tx with state := .idle } })

/-- R225. In every sending state the sink's FAIL emits TX_ERR_TRANSPORT with the count of raw bytes accepted, puts
0x18 in `tx.cause` and TX in T_DEAD, sends nothing, and changes nothing else, RX least of all. -/
def Obligations.TxSinkFailureIsFatal : Prop :=
  ∀ s : State, s.tx.state.sending = true →
    exec .txFail s = .next { s with
      txEvents := s.txEvents ++ [.txErrTransport s.tx.sent.toNat],
      tx := { s.tx with cause := 0x18, state := .dead } }

/-- R210, R211. In a state that keeps the invariants of R43, the byte step that the TX state selects completes, each
other one is refused by name (log entry 13), in T_IDLE and T_DEAD all are, and so is TX.FAIL. -/
def Obligations.ExactlyOneTxByteStepIsSelected : Prop :=
  ∀ s : State, TxInv s.cfg s.tx →
    (∀ i ∈ byteSteps,
      (selectTx s.tx true = some i → ∃ t, exec i s = .next t) ∧
      (selectTx s.tx true ≠ some i → exec i s = .refused .notSelected)) ∧
    (s.tx.state.sending = true → ∃ i ∈ byteSteps, selectTx s.tx true = some i) ∧
    (s.tx.state.sending = false → selectTx s.tx true = none ∧ exec .txFail s = .refused .notSelected)

/-- R223, R213. A request of 1 to TX_MAX_LEN bytes presented in T_IDLE, and then the answer OK to every byte, puts
exactly the bytes of `tx_encode` on the raw stream in order, ends with TX_DONE, and TX is in T_IDLE; RX is
untouched. -/
def Obligations.TxSendsExactlyTheEncodedFrame : Prop :=
  ∀ (s : State) (p : List Byte) (rest : List Stimulus),
    s.tx.state = .idle → 1 ≤ p.length → p.length ≤ s.cfg.txMaxLen.toNat →
    s.env = .send p :: List.replicate (txEncode p).length (.answer true) ++ rest →
    ∃ tx', run (1 + (txEncode p).length) s = .next { s with
        env := rest, tx := tx', txOut := s.txOut ++ txEncode p,
        txEvents := s.txEvents ++ [.txDone (BitVec.ofNat 16 p.length)] } ∧
      tx'.state = .idle ∧ tx'.sent.toNat = (txEncode p).length

/-- R226, R214, R224, R225. Completions and requests balance: a TX operation that takes a request, or refuses it,
adds one to the requests in progress and the completions together; every other TX operation, and a request that only
waits, leaves their number as it was. -/
def Obligations.OneCompletionPerRequest : Prop :=
  ∀ (s t : State) (i : Instr), isTxOp i = true → exec i s = .next t →
    t.txEvents.length + inProgress t =
      s.txEvents.length + inProgress s +
        (match i with
          | .txReq _ => if s.tx.state.sending = true then 0 else 1
          | _ => 0)

/-- R173, R180, R224. The procedures by name run only where their rules have them run: `rx_accept` in BODY with
`rx.cnt < rx.len`, `rx_verify` in CSUM with `rx.cnt = rx.len`, `finish` at the last raw byte of the checksum. Elsewhere
they are refused by name (the refusal is the model's, log entries 13 and 14). -/
def Obligations.ProceduresStopOutsideTheirPreconditions : Prop :=
  ∀ (s : State) (b : Byte),
    (¬ (s.rx.state = .body ∧ s.rx.cnt < s.rx.len) → exec (.rxAccept b) s = .refused .notSelected) ∧
    (¬ (s.rx.state = .csum ∧ s.rx.cnt = s.rx.len) → exec (.rxVerify b) s = .refused .notSelected) ∧
    (¬ (s.tx.state = .csumEsc ∨ s.tx.state = .csum ∧ isSpecial (0xFF - s.tx.sum) = false) →
      exec .finish s = .refused .notSelected)

/-! ### Both agents -/

/-- R45. The five status levels are functions of the two sequencers. -/
def Obligations.StatusLevelsFollowTheSequencers : Prop :=
  ∀ s : State,
    (rxDead s = true ↔ s.rx.state = .dead) ∧ (rxStopped s = true ↔ s.rx.state = .stopped) ∧
    (rxInFrame s = true ↔
      s.rx.state = .lenHi ∨ s.rx.state = .lenLo ∨ s.rx.state = .body ∨ s.rx.state = .csum) ∧
    (txBusy s = true ↔ s.tx.state ≠ .idle ∧ s.tx.state ≠ .dead) ∧ (txDead s = true ↔ s.tx.state = .dead)

/-- R20, R72, R321. An operation of RX leaves TX's state and outputs as they were, and one of TX leaves RX's; neither
writes the configuration, the allocator or a function's result. -/
def Obligations.AgentsShareNoState : Prop :=
  ∀ (s t : State) (i : Instr), exec i s = .next t →
    (isRxOp i = true → t = { s with rx := t.rx, rxEvents := t.rxEvents, rxTrace := t.rxTrace }) ∧
    (isTxOp i = true → t = { s with tx := t.tx, txOut := t.txOut, txEvents := t.txEvents, waiting := t.waiting })

/-- R20, R321, R72. An operation of RX and one of TX give the same state in either order. -/
def Obligations.AgentsCommute : Prop :=
  ∀ (s s1 s2 : State) (i j : Instr), isRxOp i = true → isTxOp j = true →
    exec i s = .next s1 → exec j s = .next s2 →
    ∃ t, exec j s1 = .next t ∧ exec i s2 = .next t

/-- R60, R66, R70, R71, R38. Over any step but a reset every output only grows: what has been emitted, traced or
sent stays as it was, and at most one raw byte is sent. -/
def Obligations.OutputsOnlyGrow : Prop :=
  ∀ s t : State, step s = .next t → s.env.head? ≠ some .reset →
    s.rxEvents <+: t.rxEvents ∧ s.rxTrace <+: t.rxTrace ∧ s.txOut <+: t.txOut ∧ s.txEvents <+: t.txEvents ∧
    t.txOut.length ≤ s.txOut.length + 1 ∧ t.cfg = s.cfg

/-- R340, R320, R27, R186, R225. Only reset leaves STOPPED, DEAD and T_DEAD, and only reset clears a pending stop:
over any other step from them the agent's registers and outputs stay as they are, but that requests in T_DEAD are
answered. -/
def Obligations.OnlyResetLeavesTheTerminalStates : Prop :=
  ∀ s t : State, step s = .next t → s.env.head? ≠ some .reset →
    (s.rx.state = .stopped ∨ s.rx.state = .dead →
      t.rx = s.rx ∧ t.rxEvents = s.rxEvents ∧ t.rxTrace = s.rxTrace) ∧
    (s.tx.state = .dead → t.tx = s.tx ∧ t.txOut = s.txOut) ∧
    (s.rx.stopPending = true → t.rx.stopPending = true)

/-! ### The code maps, the payload layouts, the allocator -/

/-- R99, R7. Looking up a frame-type code returns its kind and direction and whether it is known: the four types the
source gives, its unmapped example, and any other code as the configuration has it (for which the model reports kind
and direction as not given, log entry 10). Nothing else changes. -/
def Obligations.FrameTypeRowsReturn : Prop :=
  ∀ (s : State) (c : Byte),
    Returns (.ftype ⟨0x88, .localCmdResponse, .inbound, true⟩) s (exec .ftLocalCmdResponse s) ∧
    Returns (.ftype ⟨0x97, .remoteCmdResponse, .inbound, true⟩) s (exec .ftRemoteCmdResponse s) ∧
    Returns (.ftype ⟨0x92, .ioSample, .inbound, true⟩) s (exec .ftIoSample s) ∧
    Returns (.ftype ⟨0x17, .remoteCmdRequest, .outbound, true⟩) s (exec .ftRemoteCmdRequest s) ∧
    Returns (.ftype ⟨0x03, .unmapped, .noDirection, false⟩) s (exec .ftUnmappedExample s) ∧
    ((Instr.ftOther c).wf = true →
      Returns (.ftype ⟨c, .notGiven, .notGiven, s.cfg.typeOpen.getLsbD c.toNat⟩) s (exec (.ftOther c) s))

/-- R100, R255. Looking up a status code returns its reading in a local and in a remote response (both at once is the
model's form, log entry 11), and `decode_status` the one it is asked for: four codes in both, four in a remote
response only, every other value unknown with its byte. Nothing else changes. -/
def Obligations.StatusRowsReturn : Prop :=
  ∀ (s : State) (c : Byte) (k : RespKind),
    Returns (.statusCode 0x00 .ok .ok) s (exec .stOk s) ∧
    Returns (.statusCode 0x01 .error .error) s (exec .stError s) ∧
    Returns (.statusCode 0x02 .invalidCommand .invalidCommand) s (exec .stInvalidCommand s) ∧
    Returns (.statusCode 0x03 .invalidParameter .invalidParameter) s (exec .stInvalidParameter s) ∧
    Returns (.statusCode 0x04 (.unknown 0x04) .transmissionFailure) s (exec .stTransmissionFailure s) ∧
    Returns (.statusCode 0x0B (.unknown 0x0B) .noSecureSession) s (exec .stNoSecureSession s) ∧
    Returns (.statusCode 0x0C (.unknown 0x0C) .encryptionError) s (exec .stEncryptionError s) ∧
    Returns (.statusCode 0x0D (.unknown 0x0D) .sentInsecurely) s (exec .stSentInsecurely s) ∧
    ((Instr.stUnknown c).wf = true → Returns (.statusCode c (.unknown c) (.unknown c)) s (exec (.stUnknown c) s)) ∧
    (∃ st, Returns (.status st) s (exec (.decodeStatus k c) s) ∧
      ∃ stLocal stRemote, exec (decodeStatus8 c) s = .next { s with ret := some (.statusCode c stLocal stRemote) } ∧
        st = match k with
          | .inLocal => stLocal
          | .inRemote => stRemote)

/-- R253, R252. A local command response of at least five payload bytes is read field by field; a shorter one is
LAYOUT_TRUNCATED with what there is and what is needed. Nothing else changes. -/
def Obligations.LocalResponseLayout : Prop :=
  ∀ (s : State) (fid c0 c1 st : Byte) (q data : List Byte),
    Returns (.localResponse ⟨fid, c0, c1, readStatus .inLocal st, q⟩) s
      (exec (.decodeLocalResponse ([fid, c0, c1, st] ++ q)) s) ∧
    (data.length < 4 →
      Returns (.layoutError (.truncated 0x88 (1 + data.length) 5)) s (exec (.decodeLocalResponse data) s))

/-- R254, R251, R252. A remote command response of at least fifteen payload bytes is read field by field, addresses
most significant byte first; a shorter one is LAYOUT_TRUNCATED. Nothing else changes. -/
def Obligations.RemoteResponseLayout : Prop :=
  ∀ (s : State) (fid c0 c1 st : Byte) (a64 : BitVec 64) (a16 : BitVec 16) (q data : List Byte),
    Returns (.remoteResponse ⟨fid, a64, a16, c0, c1, readStatus .inRemote st, q⟩) s
      (exec (.decodeRemoteResponse ([fid] ++ be64Bytes a64 ++ be16Bytes a16 ++ [c0, c1, st] ++ q)) s) ∧
    (data.length < 14 →
      Returns (.layoutError (.truncated 0x97 (1 + data.length) 15)) s
        (exec (.decodeRemoteResponse data) s))

/-- R256, R257, R251, R252. A node-discovery record with a printable identifier and its terminator is read field by
field; `scan_identifier` returns the terminator's index, whatever follows it; a byte outside 32 to 126 before the
terminator fails both with its index and value; a record under nineteen bytes, or one that ends before its last field,
is LAYOUT_TRUNCATED with the type of its frame (what `have` and `need` count is the model's, log entries 19 and 20).
Nothing else changes. -/
def Obligations.NodeDiscoveryLayout : Prop :=
  ∀ (s : State) (n16 par prof man : BitVec 16) (e64 : BitVec 64) (ident tail q more : List Byte)
    (ft dev st bad : Byte),
    (∀ c ∈ ident, 32 ≤ c ∧ c ≤ 126) →
    (q = be16Bytes n16 ++ be64Bytes e64 ++ ident ++ [0x00] ++ be16Bytes par ++ [dev, st] ++ be16Bytes prof ++
        be16Bytes man ++ tail →
      Returns (.ndRecord ⟨n16, e64, ident, par, dev, st, prof, man, tail⟩) s (exec (.decodeNdRecord ⟨ft, q⟩) s)) ∧
    (q = be16Bytes n16 ++ be64Bytes e64 ++ ident ++ [0x00] ++ more →
      Returns (.num (10 + ident.length)) s (exec (.scanIdentifier ⟨ft, q⟩) s)) ∧
    (q = be16Bytes n16 ++ be64Bytes e64 ++ ident ++ [bad] ++ more → bad ≠ 0x00 → bad < 32 ∨ 126 < bad →
      Returns (.layoutError (.ndBadIdentifier (10 + ident.length) bad)) s (exec (.scanIdentifier ⟨ft, q⟩) s) ∧
      (19 ≤ q.length →
        Returns (.layoutError (.ndBadIdentifier (10 + ident.length) bad)) s (exec (.decodeNdRecord ⟨ft, q⟩) s))) ∧
    (q.length < 19 → Returns (.layoutError (.truncated ft q.length 19)) s (exec (.decodeNdRecord ⟨ft, q⟩) s)) ∧
    (q = be16Bytes n16 ++ be64Bytes e64 ++ ident ++ [0x00] ++ more → more.length < 8 → 19 ≤ q.length →
      Returns (.layoutError (.truncated ft q.length (10 + ident.length + 9))) s (exec (.decodeNdRecord ⟨ft, q⟩) s)) ∧
    (q = be16Bytes n16 ++ be64Bytes e64 ++ ident ∨ q.length < 10 → ∃ need,
      Returns (.layoutError (.truncated ft q.length need)) s (exec (.scanIdentifier ⟨ft, q⟩) s) ∧
      (19 ≤ q.length →
        Returns (.layoutError (.truncated ft q.length need)) s (exec (.decodeNdRecord ⟨ft, q⟩) s)))

/-- R258, R251, R252. An IO-sample indicator is read field by field: the digital word where the digital mask is not
zero, then one analog sample for each bit of the analog mask, bit 0 first, and any further bytes as a tail; a shorter
payload is LAYOUT_TRUNCATED (its `need` is the model's reading, log entry 21). Nothing else changes. -/
def Obligations.IoSampleLayout : Prop :=
  ∀ (s : State) (a64 : BitVec 64) (a16 dm dv : BitVec 16) (opt count am : Byte) (vs : List (BitVec 16))
    (tail data rest : List Byte) (bits : List Nat) (need : Nat),
    bits = (List.range 8).filter (fun k => am.getLsbD k) →
    need = 16 + (if dm ≠ 0 then 2 else 0) + 2 * bits.length →
    (vs.length = bits.length →
      Returns (.ioSample ⟨a64, a16, opt, count, dm, am, if dm ≠ 0 then some dv else none, bits.zip vs, tail⟩) s
        (exec (.decodeIoSample (be64Bytes a64 ++ be16Bytes a16 ++ [opt, count] ++ be16Bytes dm ++ [am] ++
          (if dm ≠ 0 then be16Bytes dv else []) ++ vs.flatMap be16Bytes ++ tail)) s)) ∧
    (data.length < 15 →
      Returns (.layoutError (.truncated 0x92 (1 + data.length) 16)) s (exec (.decodeIoSample data) s)) ∧
    (16 + rest.length < need →
      Returns (.layoutError (.truncated 0x92 (16 + rest.length) need)) s
        (exec (.decodeIoSample (be64Bytes a64 ++ be16Bytes a16 ++ [opt, count] ++ be16Bytes dm ++ [am] ++ rest)) s))

/-- R259, R251. `num_decode` of one, two or four bytes returns the unsigned integer, most significant byte first, and
the rest as a tail; fewer bytes are LAYOUT_TRUNCATED with the type of their frame (what `have` and `need` count is the
model's, log entry 19). Nothing else changes. -/
def Obligations.NumericPayloads : Prop :=
  ∀ (s : State) (ft a b c d : Byte) (q : List Byte) (w : NumWidth),
    Returns (.number a.toNat q) s (exec (.numDecode .one ⟨ft, a :: q⟩) s) ∧
    Returns (.number (a.toNat * 256 + b.toNat) q) s (exec (.numDecode .two ⟨ft, a :: b :: q⟩) s) ∧
    Returns (.number (a.toNat * 256 ^ 3 + b.toNat * 256 ^ 2 + c.toNat * 256 + d.toNat) q) s
      (exec (.numDecode .four ⟨ft, a :: b :: c :: d :: q⟩) s) ∧
    (q.length < widthBytes w →
      Returns (.layoutError (.truncated ft q.length (widthBytes w))) s (exec (.numDecode w ⟨ft, q⟩) s)) ∧
    widthBytes .one = 1 ∧ widthBytes .two = 2 ∧ widthBytes .four = 4

/-- R260, R261, R250. ATREQ and RATREQ lay out their fields, addresses most significant byte first, and the value after
them; a value over four bytes is refused (for RATREQ by the rule's analogy, log entry 28). The type operand of ATREQ is
a code or the parameter AT_REQ_TYPE (log entry 29). The registry, asked for a request, gives that layout with no value
for a pure query, else with the value its command's encoder writes: the encoder its table has for the request's frame
type and command, the inverse of the decoder of the same shape, so that it writes the bytes that decoder reads the value
from (what it writes for a value no decoder reads is free). That an input asks, that the table is the configuration's
and that a command without an entry takes the generic fallback are the model's choices (log entry 39). Nothing else
changes. -/
def Obligations.RequestLayouts : Prop :=
  ∀ (s : State) (t fid c0 c1 opt : Byte) (a64 : BitVec 64) (a16 : BitVec 16) (v : List Byte),
    (∀ (e : CmdRequest) (rest : List Stimulus) (ft : Byte) (d : CmdShape), s.env = .encode e :: rest →
      d = ((s.cfg.encoders.find? fun x => x.ftype == ft && x.cmd0 == e.cmd0 && x.cmd1 == e.cmd1).map
        CmdEntry.shape).getD .opaqueBytes →
      ∃ w, (e.value = none → w = []) ∧
        (∀ p ft' q, e.value = some p → readCommand ft' d q = .ok p → w = q) ∧
        (∀ ty r, e.target = .localNode ty → ty = .code ft ∨ ty = .atReqType ∧ ft = s.cfg.atReqType →
          Returns r s (exec (.atreq ty e.frameId e.cmd0 e.cmd1 w) s) → StepReturns rest s r) ∧
        (∀ b64 b16 o r, e.target = .remoteNode b64 b16 o → ft = 0x17 →
          Returns r s (exec (.ratreq e.frameId b64 b16 o e.cmd0 e.cmd1 w) s) → StepReturns rest s r)) ∧
    (v.length ≤ 4 →
      Returns (.bytes ([t, fid, c0, c1] ++ v)) s (exec (.atreq (.code t) fid c0 c1 v) s) ∧
      Returns (.bytes ([s.cfg.atReqType, fid, c0, c1] ++ v)) s (exec (.atreq .atReqType fid c0 c1 v) s) ∧
      Returns (.bytes ([0x17, fid] ++ be64Bytes a64 ++ be16Bytes a16 ++ [opt, c0, c1] ++ v)) s
        (exec (.ratreq fid a64 a16 opt c0 c1 v) s)) ∧
    (4 < v.length →
      Returns (.layoutError .valueTooLong) s (exec (.atreq (.code t) fid c0 c1 v) s) ∧
      Returns (.layoutError .valueTooLong) s (exec (.atreq .atReqType fid c0 c1 v) s) ∧
      Returns (.layoutError .valueTooLong) s (exec (.ratreq fid a64 a16 opt c0 c1 v) s))

/-- R250, R302, R253, R254, R256, R258, R259. The registry on a delivered frame: a response is read by its layout, and
its command payload by the decoder registered for its type and command, the record of R256 for `ND`, the bytes
unchanged where none is registered. An error of either layout is the result. Only the result is written: RX has
consumed the frame. The rules give the lookup, `ND`'s record, the fallback, and that a known type without a decoder is
an error. The model's choices are: that an IO sample is the registry's, read by its layout; which types have a decoder,
so that every type other than 0x88, 0x97 and 0x92 gives the error (the spec does not say, N7, N23); that the error of a
command payload is the whole result, without the fields of a response whose own layout is good; that an input asks the
registry, whose catalogue is the configuration's (log entry 38, all of these); and what the ASCII decoder reads
(log entry 40). -/
def Obligations.RegistryDecodesDeliveredFrames : Prop :=
  ∀ (s : State) (k : Nat) (ft fid c0 c1 st : Byte) (data q : List Byte) (rest : List Stimulus) (d : CmdShape),
    s.env = .registry k :: rest → s.rxEvents[k]? = some (.frame ft data) →
    d = (if c0 = 0x4E ∧ c1 = 0x44 then .ndRecord
      else ((s.cfg.registry.find? fun e => e.ftype == ft && e.cmd0 == c0 && e.cmd1 == c1).map CmdEntry.shape).getD
        .opaqueBytes) →
    (ft = 0x88 → data = [fid, c0, c1, st] ++ q →
      (d = .opaqueBytes → StepReturns rest s (.localCommand ⟨fid, c0, c1, readStatus .inLocal st, q⟩ (.bytes q))) ∧
      (∀ r, d = .ndRecord → Returns (.ndRecord r) s (exec (.decodeNdRecord ⟨ft, q⟩) s) →
        StepReturns rest s (.localCommand ⟨fid, c0, c1, readStatus .inLocal st, q⟩ (.ndRecord r))) ∧
      (∀ w n tail, d = .number w → Returns (.number n tail) s (exec (.numDecode w ⟨ft, q⟩) s) →
        StepReturns rest s (.localCommand ⟨fid, c0, c1, readStatus .inLocal st, q⟩ (.number n tail))) ∧
      (∀ e, d = .ndRecord → Returns (.layoutError e) s (exec (.decodeNdRecord ⟨ft, q⟩) s) →
        StepReturns rest s (.layoutError e)) ∧
      (∀ w e, d = .number w → Returns (.layoutError e) s (exec (.numDecode w ⟨ft, q⟩) s) →
        StepReturns rest s (.layoutError e)) ∧
      (∀ cs tail, d = .text → q = cs ++ tail → (∀ c ∈ cs, 32 ≤ c ∧ c ≤ 126) → tail.headD 0x00 = 0x00 →
        StepReturns rest s (.localCommand ⟨fid, c0, c1, readStatus .inLocal st, q⟩ (.text cs tail))) ∧
      (∀ cs bad more, d = .text → q = cs ++ bad :: more → (∀ c ∈ cs, 32 ≤ c ∧ c ≤ 126) → bad ≠ 0x00 →
        bad < 32 ∨ 126 < bad → StepReturns rest s (.layoutError (.ndBadIdentifier cs.length bad)))) ∧
    (∀ r, ft = 0x97 → Returns (.remoteResponse r) s (exec (.decodeRemoteResponse data) s) → c0 = r.cmd0 →
      c1 = r.cmd1 →
      (d = .opaqueBytes → StepReturns rest s (.remoteCommand r (.bytes r.payload))) ∧
      (∀ nd, d = .ndRecord → Returns (.ndRecord nd) s (exec (.decodeNdRecord ⟨ft, r.payload⟩) s) →
        StepReturns rest s (.remoteCommand r (.ndRecord nd))) ∧
      (∀ w n tail, d = .number w → Returns (.number n tail) s (exec (.numDecode w ⟨ft, r.payload⟩) s) →
        StepReturns rest s (.remoteCommand r (.number n tail))) ∧
      (∀ e, d = .ndRecord → Returns (.layoutError e) s (exec (.decodeNdRecord ⟨ft, r.payload⟩) s) →
        StepReturns rest s (.layoutError e)) ∧
      (∀ w e, d = .number w → Returns (.layoutError e) s (exec (.numDecode w ⟨ft, r.payload⟩) s) →
        StepReturns rest s (.layoutError e)) ∧
      (∀ cs tail, d = .text → r.payload = cs ++ tail → (∀ c ∈ cs, 32 ≤ c ∧ c ≤ 126) → tail.headD 0x00 = 0x00 →
        StepReturns rest s (.remoteCommand r (.text cs tail))) ∧
      (∀ cs bad more, d = .text → r.payload = cs ++ bad :: more → (∀ c ∈ cs, 32 ≤ c ∧ c ≤ 126) → bad ≠ 0x00 →
        bad < 32 ∨ 126 < bad → StepReturns rest s (.layoutError (.ndBadIdentifier cs.length bad)))) ∧
    (∀ e, ft = 0x88 → Returns (.layoutError e) s (exec (.decodeLocalResponse data) s) →
      StepReturns rest s (.layoutError e)) ∧
    (∀ e, ft = 0x97 → Returns (.layoutError e) s (exec (.decodeRemoteResponse data) s) →
      StepReturns rest s (.layoutError e)) ∧
    (∀ r, ft = 0x92 → Returns r s (exec (.decodeIoSample data) s) → StepReturns rest s r) ∧
    (ft ≠ 0x88 → ft ≠ 0x97 → ft ≠ 0x92 → StepReturns rest s (.layoutError (.noDecoder ft)))

/-- R292, R290. FID.NEXT moves on by one, from 0xFF to 0x01, and once more where that gives FID_DEFAULT; the id is
stored and returned, and nothing else changes. -/
def Obligations.FrameIdNext : Prop :=
  ∀ (s : State) (v w : Byte),
    v = (if s.fidLast = 0xFF then 0x01 else s.fidLast + 1) →
    w = (if v = 0xFF then 0x01 else v + 1) →
    exec .fidNext s = .next { s with
      fidLast := if v = s.cfg.fidDefault then w else v,
      ret := some (.byte (if v = s.cfg.fidDefault then w else v)) }

/-- R291, R292. Successive ids never are 0 nor FID_DEFAULT, whatever the last one was; after the greatest valid id
comes the least, and after any other the next valid id above it, with none between; two different valid ids never have
the same successor; and from the least, successive calls reach every valid id. -/
def Obligations.FrameIdsCycle : Prop :=
  ∀ dflt : Byte, dflt ≠ 0 →
    (∀ last, fidNext dflt last ≠ 0 ∧ fidNext dflt last ≠ dflt) ∧
    fidNext dflt (fidMax dflt) = fidMin dflt ∧
    (∀ a, a ≠ 0 → a ≠ dflt → fidMin dflt ≤ a ∧ a ≤ fidMax dflt) ∧
    (∀ a b, a ≠ 0 → a ≠ dflt → b ≠ 0 → b ≠ dflt → fidNext dflt a = fidNext dflt b → a = b) ∧
    (∀ a, a ≠ 0 → a ≠ dflt → a ≠ fidMax dflt →
      a < fidNext dflt a ∧ ∀ b, b ≠ 0 → b ≠ dflt → a < b → fidNext dflt a ≤ b) ∧
    (∀ a, a ≠ 0 → a ≠ dflt → ∃ k < 254, Nat.iterate (fidNext dflt) k (fidMin dflt) = a) ∧
    Nat.iterate (fidNext dflt) 254 (fidMin dflt) = fidMin dflt

/-! ### The step, reset, the invariants -/

/-- R160, R210, R211, R225, R34, R42. A step takes what is presented next and runs the operation it selects: bytes run
the instruction the decoder reads from them, EOS and STOP the RX step their state selects, a request TX.REQ, a sink's
answer OK the byte step TX selects and its answer FAIL, in every sending state, TX.FAIL, a call the well-formed
operation it names. Bytes that do not decode, and ill-formed calls, are refused by name: the refusals are the model's
(log entries 32 and 34), and so is that one list of inputs also says who moves (log entries 3 and 22). -/
def Obligations.StepRunsTheInstruction : Prop :=
  ∀ (s : State) (st : Stimulus) (rest : List Stimulus), s.env = st :: rest →
    (∀ fmt bs i, st = .word fmt bs → decode fmt bs = .ok i → step s = exec i { s with env := rest }) ∧
    (∀ fmt bs e, st = .word fmt bs → decode fmt bs = .error e → step s = .refused (.undecodable e)) ∧
    (st = .eos → step s = exec (selectRx s.rx .eos) { s with env := rest }) ∧
    (st = .stop → step s = exec (selectRx s.rx .stop) { s with env := rest }) ∧
    (∀ p, st = .send p → step s = exec (.txReq p) { s with env := rest }) ∧
    (∀ k p, st = .take k → s.waiting[k]? = some p → s.tx.state.sending = false →
      step s = exec (.txReq p) { s with env := rest, waiting := s.waiting.eraseIdx k }) ∧
    (∀ ok i, st = .answer ok → selectTx s.tx ok = some i → step s = exec i { s with env := rest }) ∧
    (st = .answer false → s.tx.state.sending = true → step s = exec .txFail { s with env := rest }) ∧
    (∀ i, st = .call i → i.wf = true → step s = exec i { s with env := rest }) ∧
    (∀ i, st = .call i → i.wf = false → step s = .refused .illFormed)

/-- R62, R210, R354. With nothing presented the block waits, unchanged; a request is not taken while TX is sending or
where none waits at that place; an answer to no byte, and the registry asked for no frame, have no effect. (That waiting
is a step that changes nothing is the model's choice, log entries 4, 22, 23 and 38.) -/
def Obligations.StepWaits : Prop :=
  ∀ s : State,
    (s.env = [] → step s = .next s) ∧
    (∀ k rest, s.env = .take k :: rest → s.tx.state.sending = true ∨ s.waiting[k]? = none →
      step s = .next { s with env := rest }) ∧
    (∀ ok rest, s.env = .answer ok :: rest → s.tx.state.sending = false → step s = .next { s with env := rest }) ∧
    (∀ k rest, s.env = .registry k :: rest → (∀ ft data, s.rxEvents[k]? ≠ some (.frame ft data)) →
      step s = .next { s with env := rest })

/-- R340, R50, R341, R342, R75. The reset input puts RX, TX and the allocator at their values of R50 from any state
and empties the outputs; the configuration stays. What stands outside the block (requests that wait, inputs to come)
stays too, and the buffers' emptiness is the model's (log entries 24 and 25). -/
def Obligations.ResetInputGivesTheResetValues : Prop :=
  ∀ (s : State) (rest : List Stimulus), s.env = .reset :: rest →
    step s = .next
      { cfg := s.cfg, waiting := s.waiting, env := rest, ret := none,
        rx := ⟨.seek, 0, 0, 0, false, false, false, 0, []⟩,
        tx := ⟨.idle, [], 0, 0, 0, 0, 0⟩,
        fidLast := if s.cfg.fidDefault = 0xFF then 0xFE else 0xFF,
        rxEvents := [], rxTrace := [], txOut := [], txEvents := [] }

/-- R30, R43, R50 (R30(c) as log entry 35 has it). The invariant holds after reset, under every configuration in the
ranges of R7, the one of State.reset among them. -/
def Obligations.InvariantHoldsAtReset : Prop :=
  (∀ c : Cfg, c.wf = true → Inv (State.resetWith c)) ∧ Inv State.reset

/-- R30, R43, R223, R291 (R30(c) as log entry 35 has it). Every step from a state that keeps the invariant gives a
state that keeps it, whatever is presented. -/
def Obligations.StepKeepsTheInvariant : Prop :=
  ∀ s t : State, Inv s → step s = .next t → Inv t

/-- R35, R160, R210, R30, R43. From a state that keeps the invariant, with inputs that decode and calls of functions
only, every step completes with neither a fault nor a refusal, and leads to such a state again. -/
def Obligations.StepAlwaysCompletes : Prop :=
  ∀ s : State, Inv s → EnvOk s → ∃ t, step s = .next t ∧ Inv t ∧ EnvOk t

/-- R29, R60. The frame buffer: a write is read back, leaves every other entry as it was and keeps the canonical
form. -/
def Obligations.BufferLaws : Prop :=
  ∀ (m : List Host.Cell) (a b : Nat) (v : Byte),
    bufRead (bufWrite m a v) a = some v ∧
    (b ≠ a → bufRead (bufWrite m a v) b = bufRead m b) ∧
    (bufWf m = true → bufWf (bufWrite m a v) = true)
end

