-- ==== Sys2Proof/Laws/State.lean ====
section
/-! SUPPORT. The field laws of the state's named updates, one per field and update. -/

namespace Sys2Proof.Machine

@[simp] theorem setRx_cfg (r : Rx) (s : State) : (setRx r s).cfg = s.cfg := rfl
@[simp] theorem setRx_rx (r : Rx) (s : State) : (setRx r s).rx = r := rfl
@[simp] theorem setRx_tx (r : Rx) (s : State) : (setRx r s).tx = s.tx := rfl
@[simp] theorem setRx_fidLast (r : Rx) (s : State) : (setRx r s).fidLast = s.fidLast := rfl
@[simp] theorem setRx_rxEvents (r : Rx) (s : State) : (setRx r s).rxEvents = s.rxEvents := rfl
@[simp] theorem setRx_rxTrace (r : Rx) (s : State) : (setRx r s).rxTrace = s.rxTrace := rfl
@[simp] theorem setRx_txOut (r : Rx) (s : State) : (setRx r s).txOut = s.txOut := rfl
@[simp] theorem setRx_txEvents (r : Rx) (s : State) : (setRx r s).txEvents = s.txEvents := rfl
@[simp] theorem setRx_ret (r : Rx) (s : State) : (setRx r s).ret = s.ret := rfl
@[simp] theorem setRx_waiting (r : Rx) (s : State) : (setRx r s).waiting = s.waiting := rfl
@[simp] theorem setRx_env (r : Rx) (s : State) : (setRx r s).env = s.env := rfl

@[simp] theorem setTx_cfg (t : Tx) (s : State) : (setTx t s).cfg = s.cfg := rfl
@[simp] theorem setTx_rx (t : Tx) (s : State) : (setTx t s).rx = s.rx := rfl
@[simp] theorem setTx_tx (t : Tx) (s : State) : (setTx t s).tx = t := rfl
@[simp] theorem setTx_fidLast (t : Tx) (s : State) : (setTx t s).fidLast = s.fidLast := rfl
@[simp] theorem setTx_rxEvents (t : Tx) (s : State) : (setTx t s).rxEvents = s.rxEvents := rfl
@[simp] theorem setTx_rxTrace (t : Tx) (s : State) : (setTx t s).rxTrace = s.rxTrace := rfl
@[simp] theorem setTx_txOut (t : Tx) (s : State) : (setTx t s).txOut = s.txOut := rfl
@[simp] theorem setTx_txEvents (t : Tx) (s : State) : (setTx t s).txEvents = s.txEvents := rfl
@[simp] theorem setTx_ret (t : Tx) (s : State) : (setTx t s).ret = s.ret := rfl
@[simp] theorem setTx_waiting (t : Tx) (s : State) : (setTx t s).waiting = s.waiting := rfl
@[simp] theorem setTx_env (t : Tx) (s : State) : (setTx t s).env = s.env := rfl

@[simp] theorem setFid_cfg (v : Byte) (s : State) : (setFid v s).cfg = s.cfg := rfl
@[simp] theorem setFid_rx (v : Byte) (s : State) : (setFid v s).rx = s.rx := rfl
@[simp] theorem setFid_tx (v : Byte) (s : State) : (setFid v s).tx = s.tx := rfl
@[simp] theorem setFid_fidLast (v : Byte) (s : State) : (setFid v s).fidLast = v := rfl
@[simp] theorem setFid_rxEvents (v : Byte) (s : State) : (setFid v s).rxEvents = s.rxEvents := rfl
@[simp] theorem setFid_rxTrace (v : Byte) (s : State) : (setFid v s).rxTrace = s.rxTrace := rfl
@[simp] theorem setFid_txOut (v : Byte) (s : State) : (setFid v s).txOut = s.txOut := rfl
@[simp] theorem setFid_txEvents (v : Byte) (s : State) : (setFid v s).txEvents = s.txEvents := rfl
@[simp] theorem setFid_ret (v : Byte) (s : State) : (setFid v s).ret = s.ret := rfl
@[simp] theorem setFid_waiting (v : Byte) (s : State) : (setFid v s).waiting = s.waiting := rfl
@[simp] theorem setFid_env (v : Byte) (s : State) : (setFid v s).env = s.env := rfl

@[simp] theorem emitRx_cfg (e : Event) (s : State) : (emitRx e s).cfg = s.cfg := rfl
@[simp] theorem emitRx_rx (e : Event) (s : State) : (emitRx e s).rx = s.rx := rfl
@[simp] theorem emitRx_tx (e : Event) (s : State) : (emitRx e s).tx = s.tx := rfl
@[simp] theorem emitRx_fidLast (e : Event) (s : State) : (emitRx e s).fidLast = s.fidLast := rfl
@[simp] theorem emitRx_rxEvents (e : Event) (s : State) : (emitRx e s).rxEvents = s.rxEvents ++ [e] := rfl
@[simp] theorem emitRx_rxTrace (e : Event) (s : State) : (emitRx e s).rxTrace = s.rxTrace := rfl
@[simp] theorem emitRx_txOut (e : Event) (s : State) : (emitRx e s).txOut = s.txOut := rfl
@[simp] theorem emitRx_txEvents (e : Event) (s : State) : (emitRx e s).txEvents = s.txEvents := rfl
@[simp] theorem emitRx_ret (e : Event) (s : State) : (emitRx e s).ret = s.ret := rfl
@[simp] theorem emitRx_waiting (e : Event) (s : State) : (emitRx e s).waiting = s.waiting := rfl
@[simp] theorem emitRx_env (e : Event) (s : State) : (emitRx e s).env = s.env := rfl

@[simp] theorem emitTx_cfg (e : Event) (s : State) : (emitTx e s).cfg = s.cfg := rfl
@[simp] theorem emitTx_rx (e : Event) (s : State) : (emitTx e s).rx = s.rx := rfl
@[simp] theorem emitTx_tx (e : Event) (s : State) : (emitTx e s).tx = s.tx := rfl
@[simp] theorem emitTx_fidLast (e : Event) (s : State) : (emitTx e s).fidLast = s.fidLast := rfl
@[simp] theorem emitTx_rxEvents (e : Event) (s : State) : (emitTx e s).rxEvents = s.rxEvents := rfl
@[simp] theorem emitTx_rxTrace (e : Event) (s : State) : (emitTx e s).rxTrace = s.rxTrace := rfl
@[simp] theorem emitTx_txOut (e : Event) (s : State) : (emitTx e s).txOut = s.txOut := rfl
@[simp] theorem emitTx_txEvents (e : Event) (s : State) : (emitTx e s).txEvents = s.txEvents ++ [e] := rfl
@[simp] theorem emitTx_ret (e : Event) (s : State) : (emitTx e s).ret = s.ret := rfl
@[simp] theorem emitTx_waiting (e : Event) (s : State) : (emitTx e s).waiting = s.waiting := rfl
@[simp] theorem emitTx_env (e : Event) (s : State) : (emitTx e s).env = s.env := rfl

@[simp] theorem traceSkip_cfg (b : Byte) (s : State) : (traceSkip b s).cfg = s.cfg := rfl
@[simp] theorem traceSkip_rx (b : Byte) (s : State) : (traceSkip b s).rx = s.rx := rfl
@[simp] theorem traceSkip_tx (b : Byte) (s : State) : (traceSkip b s).tx = s.tx := rfl
@[simp] theorem traceSkip_fidLast (b : Byte) (s : State) : (traceSkip b s).fidLast = s.fidLast := rfl
@[simp] theorem traceSkip_rxEvents (b : Byte) (s : State) : (traceSkip b s).rxEvents = s.rxEvents := rfl
@[simp] theorem traceSkip_rxTrace (b : Byte) (s : State) : (traceSkip b s).rxTrace = s.rxTrace ++ [b] := rfl
@[simp] theorem traceSkip_txOut (b : Byte) (s : State) : (traceSkip b s).txOut = s.txOut := rfl
@[simp] theorem traceSkip_txEvents (b : Byte) (s : State) : (traceSkip b s).txEvents = s.txEvents := rfl
@[simp] theorem traceSkip_ret (b : Byte) (s : State) : (traceSkip b s).ret = s.ret := rfl
@[simp] theorem traceSkip_waiting (b : Byte) (s : State) : (traceSkip b s).waiting = s.waiting := rfl
@[simp] theorem traceSkip_env (b : Byte) (s : State) : (traceSkip b s).env = s.env := rfl

@[simp] theorem putRaw_cfg (b : Byte) (s : State) : (putRaw b s).cfg = s.cfg := rfl
@[simp] theorem putRaw_rx (b : Byte) (s : State) : (putRaw b s).rx = s.rx := rfl
@[simp] theorem putRaw_tx (b : Byte) (s : State) : (putRaw b s).tx = s.tx := rfl
@[simp] theorem putRaw_fidLast (b : Byte) (s : State) : (putRaw b s).fidLast = s.fidLast := rfl
@[simp] theorem putRaw_rxEvents (b : Byte) (s : State) : (putRaw b s).rxEvents = s.rxEvents := rfl
@[simp] theorem putRaw_rxTrace (b : Byte) (s : State) : (putRaw b s).rxTrace = s.rxTrace := rfl
@[simp] theorem putRaw_txOut (b : Byte) (s : State) : (putRaw b s).txOut = s.txOut ++ [b] := rfl
@[simp] theorem putRaw_txEvents (b : Byte) (s : State) : (putRaw b s).txEvents = s.txEvents := rfl
@[simp] theorem putRaw_ret (b : Byte) (s : State) : (putRaw b s).ret = s.ret := rfl
@[simp] theorem putRaw_waiting (b : Byte) (s : State) : (putRaw b s).waiting = s.waiting := rfl
@[simp] theorem putRaw_env (b : Byte) (s : State) : (putRaw b s).env = s.env := rfl

@[simp] theorem setRet_cfg (r : FnResult) (s : State) : (setRet r s).cfg = s.cfg := rfl
@[simp] theorem setRet_rx (r : FnResult) (s : State) : (setRet r s).rx = s.rx := rfl
@[simp] theorem setRet_tx (r : FnResult) (s : State) : (setRet r s).tx = s.tx := rfl
@[simp] theorem setRet_fidLast (r : FnResult) (s : State) : (setRet r s).fidLast = s.fidLast := rfl
@[simp] theorem setRet_rxEvents (r : FnResult) (s : State) : (setRet r s).rxEvents = s.rxEvents := rfl
@[simp] theorem setRet_rxTrace (r : FnResult) (s : State) : (setRet r s).rxTrace = s.rxTrace := rfl
@[simp] theorem setRet_txOut (r : FnResult) (s : State) : (setRet r s).txOut = s.txOut := rfl
@[simp] theorem setRet_txEvents (r : FnResult) (s : State) : (setRet r s).txEvents = s.txEvents := rfl
@[simp] theorem setRet_ret (r : FnResult) (s : State) : (setRet r s).ret = some r := rfl
@[simp] theorem setRet_waiting (r : FnResult) (s : State) : (setRet r s).waiting = s.waiting := rfl
@[simp] theorem setRet_env (r : FnResult) (s : State) : (setRet r s).env = s.env := rfl

@[simp] theorem setWaiting_cfg (w : List (List Byte)) (s : State) : (setWaiting w s).cfg = s.cfg := rfl
@[simp] theorem setWaiting_rx (w : List (List Byte)) (s : State) : (setWaiting w s).rx = s.rx := rfl
@[simp] theorem setWaiting_tx (w : List (List Byte)) (s : State) : (setWaiting w s).tx = s.tx := rfl
@[simp] theorem setWaiting_fidLast (w : List (List Byte)) (s : State) : (setWaiting w s).fidLast = s.fidLast := rfl
@[simp] theorem setWaiting_rxEvents (w : List (List Byte)) (s : State) : (setWaiting w s).rxEvents = s.rxEvents := rfl
@[simp] theorem setWaiting_rxTrace (w : List (List Byte)) (s : State) : (setWaiting w s).rxTrace = s.rxTrace := rfl
@[simp] theorem setWaiting_txOut (w : List (List Byte)) (s : State) : (setWaiting w s).txOut = s.txOut := rfl
@[simp] theorem setWaiting_txEvents (w : List (List Byte)) (s : State) : (setWaiting w s).txEvents = s.txEvents := rfl
@[simp] theorem setWaiting_ret (w : List (List Byte)) (s : State) : (setWaiting w s).ret = s.ret := rfl
@[simp] theorem setWaiting_waiting (w : List (List Byte)) (s : State) : (setWaiting w s).waiting = w := rfl
@[simp] theorem setWaiting_env (w : List (List Byte)) (s : State) : (setWaiting w s).env = s.env := rfl

@[simp] theorem setEnv_cfg (e : List Stimulus) (s : State) : (setEnv e s).cfg = s.cfg := rfl
@[simp] theorem setEnv_rx (e : List Stimulus) (s : State) : (setEnv e s).rx = s.rx := rfl
@[simp] theorem setEnv_tx (e : List Stimulus) (s : State) : (setEnv e s).tx = s.tx := rfl
@[simp] theorem setEnv_fidLast (e : List Stimulus) (s : State) : (setEnv e s).fidLast = s.fidLast := rfl
@[simp] theorem setEnv_rxEvents (e : List Stimulus) (s : State) : (setEnv e s).rxEvents = s.rxEvents := rfl
@[simp] theorem setEnv_rxTrace (e : List Stimulus) (s : State) : (setEnv e s).rxTrace = s.rxTrace := rfl
@[simp] theorem setEnv_txOut (e : List Stimulus) (s : State) : (setEnv e s).txOut = s.txOut := rfl
@[simp] theorem setEnv_txEvents (e : List Stimulus) (s : State) : (setEnv e s).txEvents = s.txEvents := rfl
@[simp] theorem setEnv_ret (e : List Stimulus) (s : State) : (setEnv e s).ret = s.ret := rfl
@[simp] theorem setEnv_waiting (e : List Stimulus) (s : State) : (setEnv e s).waiting = s.waiting := rfl
@[simp] theorem setEnv_env (e : List Stimulus) (s : State) : (setEnv e s).env = e := rfl

@[simp] theorem setRx_setRx (r r' : Rx) (s : State) : setRx r (setRx r' s) = setRx r s := rfl
@[simp] theorem setTx_setTx (t t' : Tx) (s : State) : setTx t (setTx t' s) = setTx t s := rfl
@[simp] theorem setRx_self (s : State) : setRx s.rx s = s := rfl
@[simp] theorem setTx_self (s : State) : setTx s.tx s = s := rfl
@[simp] theorem setEnv_self (s : State) : setEnv s.env s = s := rfl

@[simp] theorem andThen_next (s : State) (f : State → Res) : andThen (.next s) f = f s := rfl
@[simp] theorem andThen_fault (r : Fault) (f : State → Res) : andThen (.fault r) f = .fault r := rfl
@[simp] theorem andThen_refused (r : Refusal) (f : State → Res) : andThen (.refused r) f = .refused r := rfl
@[simp] theorem onlyIf_true (o : Res) : onlyIf true o = o := rfl
@[simp] theorem onlyIf_false (o : Res) : onlyIf false o = .refused .notSelected := rfl

/-- A sequence answers a next state where both its parts do. -/
theorem andThen_eq_next {o : Res} {f : State → Res} {t : State} :
    andThen o f = .next t ↔ ∃ s, o = .next s ∧ f s = .next t := by
  cases o <;> simp [andThen]

/-- A selected operation answers a next state where its selection holds. -/
theorem onlyIf_eq_next {sel : Bool} {o : Res} {t : State} :
    onlyIf sel o = .next t ↔ sel = true ∧ o = .next t := by
  cases sel <;> simp [onlyIf]

/-- The registry writes the result register alone, and only where the event is a frame. -/
theorem applyRegistry_cases (k : Nat) (s : State) : applyRegistry k s = s ∨ ∃ r, applyRegistry k s = setRet r s := by
  unfold applyRegistry
  split
  · exact .inr ⟨_, rfl⟩
  · exact .inl rfl

theorem applyRegistry_frame {k : Nat} {s : State} {ftype : Byte} {data : List Byte}
    (h : s.rxEvents[k]? = some (.frame ftype data)) :
    applyRegistry k s = setRet (registryDecode s.cfg ftype data) s := by
  simp only [applyRegistry, h]

@[simp] theorem applyRegistry_cfg (k : Nat) (s : State) : (applyRegistry k s).cfg = s.cfg := by
  obtain h | ⟨r, h⟩ := applyRegistry_cases k s <;> rw [h]
  rfl
@[simp] theorem applyRegistry_rx (k : Nat) (s : State) : (applyRegistry k s).rx = s.rx := by
  obtain h | ⟨r, h⟩ := applyRegistry_cases k s <;> rw [h]
  rfl
@[simp] theorem applyRegistry_tx (k : Nat) (s : State) : (applyRegistry k s).tx = s.tx := by
  obtain h | ⟨r, h⟩ := applyRegistry_cases k s <;> rw [h]
  rfl
@[simp] theorem applyRegistry_fidLast (k : Nat) (s : State) : (applyRegistry k s).fidLast = s.fidLast := by
  obtain h | ⟨r, h⟩ := applyRegistry_cases k s <;> rw [h]
  rfl
@[simp] theorem applyRegistry_rxEvents (k : Nat) (s : State) : (applyRegistry k s).rxEvents = s.rxEvents := by
  obtain h | ⟨r, h⟩ := applyRegistry_cases k s <;> rw [h]
  rfl
@[simp] theorem applyRegistry_rxTrace (k : Nat) (s : State) : (applyRegistry k s).rxTrace = s.rxTrace := by
  obtain h | ⟨r, h⟩ := applyRegistry_cases k s <;> rw [h]
  rfl
@[simp] theorem applyRegistry_txOut (k : Nat) (s : State) : (applyRegistry k s).txOut = s.txOut := by
  obtain h | ⟨r, h⟩ := applyRegistry_cases k s <;> rw [h]
  rfl
@[simp] theorem applyRegistry_txEvents (k : Nat) (s : State) : (applyRegistry k s).txEvents = s.txEvents := by
  obtain h | ⟨r, h⟩ := applyRegistry_cases k s <;> rw [h]
  rfl
@[simp] theorem applyRegistry_waiting (k : Nat) (s : State) : (applyRegistry k s).waiting = s.waiting := by
  obtain h | ⟨r, h⟩ := applyRegistry_cases k s <;> rw [h]
  rfl
@[simp] theorem applyRegistry_env (k : Nat) (s : State) : (applyRegistry k s).env = s.env := by
  obtain h | ⟨r, h⟩ := applyRegistry_cases k s <;> rw [h]
  rfl

end Sys2Proof.Machine
end

