-- ==== Sys2Proof/Laws/Buffer.lean ====
section
/-! SUPPORT. Laws of the RX frame buffer: read after write, the rest unchanged, the canonical form kept. -/

namespace Sys2Proof.Machine

/-- Read after write, at every index. -/
theorem bufRead_bufWrite (m : List Host.Cell) (a b : Nat) (v : Byte) :
    bufRead (bufWrite m a v) b = if b = a then some v else bufRead m b := by
  induction m with
  | nil => simp [bufWrite, bufRead, eq_comm]
  | cons c cs ih =>
    unfold bufWrite
    split
    · simp [bufRead, eq_comm]
    · split
      · next _ heq => subst heq; simp only [bufRead, eq_comm]; split <;> simp_all
      · next h1 h2 =>
        simp only [bufRead, ih]
        by_cases hb : b = a
        · subst hb
          simp [show ¬ c.1 = b from fun h => h2 h.symm]
        · simp [hb]

@[simp] theorem bufRead_bufWrite_self (m : List Host.Cell) (a : Nat) (v : Byte) :
    bufRead (bufWrite m a v) a = some v := by simp [bufRead_bufWrite]

theorem bufByte_bufWrite (m : List Host.Cell) (a b : Nat) (v : Byte) :
    bufByte (bufWrite m a v) b = if b = a then v else bufByte m b := by
  unfold bufByte
  rw [bufRead_bufWrite]
  split <;> rfl

/-- A slice reads the bytes at its indexes. -/
theorem bufSlice_congr {m m' : List Host.Cell} {n : Nat} :
    ∀ {a : Nat}, (∀ b, a ≤ b → b < a + n → bufByte m b = bufByte m' b) → bufSlice m a n = bufSlice m' a n := by
  induction n with
  | zero => intros; rfl
  | succ n ih =>
    intro a h
    rw [bufSlice, bufSlice, h a (by omega) (by omega), ih fun b h1 h2 => h b (by omega) (by omega)]

/-- A slice grows by its next byte. -/
theorem bufSlice_succ (m : List Host.Cell) (n : Nat) :
    ∀ a, bufSlice m a (n + 1) = bufSlice m a n ++ [bufByte m (a + n)] := by
  induction n with
  | zero => intro a; rfl
  | succ n ih =>
    intro a
    rw [bufSlice, ih (a + 1), bufSlice, List.cons_append, Nat.add_right_comm, Nat.add_assoc]

@[simp] theorem bufSlice_length (m : List Host.Cell) (n : Nat) : ∀ a, (bufSlice m a n).length = n := by
  induction n with
  | zero => intro a; rfl
  | succ n ih => intro a; rw [bufSlice, List.length_cons, ih]

/-- Writing the next byte appends it to the slice before it. -/
theorem bufSlice_bufWrite_end (m : List Host.Cell) (n : Nat) (v : Byte) :
    bufSlice (bufWrite m n v) 0 (n + 1) = bufSlice m 0 n ++ [v] := by
  rw [bufSlice_succ, Nat.zero_add, bufByte_bufWrite, if_pos rfl]
  congr 1
  apply bufSlice_congr
  intro b _ h
  rw [bufByte_bufWrite, if_neg (by omega)]

/-! ### The canonical form -/

theorem bufWf_tail {c : Host.Cell} {cs : List Host.Cell} (h : bufWf (c :: cs) = true) : bufWf cs = true := by
  cases cs with
  | nil => rfl
  | cons d ds =>
    simp only [bufWf, Bool.and_eq_true] at h
    exact h.2

theorem bufWf_cons_cons {c d : Host.Cell} {cs : List Host.Cell} :
    bufWf (c :: d :: cs) = true ↔ c.1 < d.1 ∧ bufWf (d :: cs) = true := by
  simp [bufWf]

/-- The first index after a write is the least of the one written and the old first. -/
theorem bufWrite_eq_cons (m : List Host.Cell) (a : Nat) (v : Byte) :
    ∃ d ds, bufWrite m a v = d :: ds ∧ (d.1 = a ∨ ∃ c cs, m = c :: cs ∧ d = c) := by
  cases m with
  | nil => exact ⟨_, _, rfl, .inl rfl⟩
  | cons c cs =>
    unfold bufWrite
    split
    · exact ⟨_, _, rfl, .inl rfl⟩
    · split
      · exact ⟨_, _, rfl, .inl rfl⟩
      · exact ⟨_, _, rfl, .inr ⟨c, cs, rfl, rfl⟩⟩

/-- A write keeps the canonical form. -/
theorem bufWrite_wf {m : List Host.Cell} (a : Nat) (v : Byte) (h : bufWf m = true) :
    bufWf (bufWrite m a v) = true := by
  induction m with
  | nil => rfl
  | cons c cs ih =>
    unfold bufWrite
    split
    · next hlt => exact bufWf_cons_cons.mpr ⟨hlt, h⟩
    · split
      · next heq =>
        cases cs with
        | nil => rfl
        | cons d ds =>
          have := bufWf_cons_cons.mp h
          exact bufWf_cons_cons.mpr ⟨by simpa [heq] using this.1, this.2⟩
      · next h1 h2 =>
        obtain ⟨d, ds, hw, hd⟩ := bufWrite_eq_cons cs a v
        have hwf := ih (bufWf_tail h)
        rw [hw] at hwf ⊢
        refine bufWf_cons_cons.mpr ⟨?_, hwf⟩
        rcases hd with hd | ⟨e, es, he, rfl⟩
        · omega
        · subst he
          exact (bufWf_cons_cons.mp h).1

/-- A write adds no entry but the one written. -/
theorem mem_bufWrite {m : List Host.Cell} {a : Nat} {v : Byte} {e : Host.Cell} (h : e ∈ bufWrite m a v) :
    e.1 = a ∨ e ∈ m := by
  induction m with
  | nil => simp only [bufWrite, List.mem_singleton] at h; exact .inl (by rw [h])
  | cons c cs ih =>
    unfold bufWrite at h
    split at h
    · rcases List.mem_cons.mp h with rfl | h
      · exact .inl rfl
      · exact .inr h
    · split at h
      · rcases List.mem_cons.mp h with rfl | h
        · exact .inl rfl
        · exact .inr (List.mem_cons_of_mem _ h)
      · rcases List.mem_cons.mp h with rfl | h
        · exact .inr List.mem_cons_self
        · exact (ih h).imp_right (List.mem_cons_of_mem _)

end Sys2Proof.Machine
end

