-- ==== Sys2Proof/Laws/Codec.lean ====
section
/-! SUPPORT. Laws of the byte codec (R130 to R138, R223) and of the decoder's parts. -/

namespace Sys2Proof

/-! ### Special bytes and escapes -/

theorem isSpecial_eq_true_iff {v : Byte} :
    isSpecial v = true ↔ v = 0x7E ∨ v = 0x7D ∨ v = 0x11 ∨ v = 0x13 := by
  simp [isSpecial, startByte, escByte, xonByte, xoffByte, or_assoc]

theorem isSpecial_eq_false_iff {v : Byte} :
    isSpecial v = false ↔ v ≠ 0x7E ∧ v ≠ 0x7D ∧ v ≠ 0x11 ∧ v ≠ 0x13 := by
  rw [← Bool.not_eq_true, isSpecial_eq_true_iff]
  tauto

theorem isSpecial_escByte : isSpecial escByte = true := by decide

theorem ne_escByte_of_not_special {v : Byte} (h : isSpecial v = false) : v ≠ escByte :=
  (isSpecial_eq_false_iff.mp h).2.1

/-- XOR with 0x20 is its own inverse (R95). -/
@[simp] theorem xor_escXor_xor_escXor (v : Byte) : v ^^^ escXor ^^^ escXor = v := by
  rw [BitVec.xor_assoc, BitVec.xor_self, BitVec.xor_zero]

/-- The second byte of a canonical pair is not special (R131, corner cases). -/
theorem not_isSpecial_xor_escXor {v : Byte} (h : isSpecial v = true) : isSpecial (v ^^^ escXor) = false := by
  rcases isSpecial_eq_true_iff.mp h with rfl | rfl | rfl | rfl <;> decide

theorem escape_of_special {v : Byte} (h : isSpecial v = true) : escape v = [escByte, v ^^^ escXor] := by
  simp [escape, h]

theorem escape_of_not_special {v : Byte} (h : isSpecial v = false) : escape v = [v] := by
  simp [escape, h]

theorem escape_length (v : Byte) : (escape v).length = if isSpecial v then 2 else 1 := by
  unfold escape
  split <;> rfl

theorem escape_ne_nil (v : Byte) : escape v ≠ [] := by
  unfold escape
  split <;> simp

/-! ### Stuffing -/

@[simp] theorem stuff_nil : stuff [] = [] := rfl

@[simp] theorem stuff_cons (v : Byte) (l : List Byte) : stuff (v :: l) = escape v ++ stuff l := rfl

@[simp] theorem stuff_append (l m : List Byte) : stuff (l ++ m) = stuff l ++ stuff m := by
  induction l with
  | nil => rfl
  | cons v l ih => simp [ih]

theorem unstuff_cons_cons_esc (e : Byte) (r : List Byte) :
    unstuff (escByte :: e :: r) = (unstuff r).map ((e ^^^ escXor) :: ·) := by
  simp [unstuff]

theorem unstuff_cons_of_ne {b : Byte} (h : b ≠ escByte) (r : List Byte) :
    unstuff (b :: r) = (unstuff r).map (b :: ·) := by
  cases r <;> simp [unstuff, h]

/-- Unstuffing takes back one escape. -/
theorem unstuff_escape_append (v : Byte) (r : List Byte) :
    unstuff (escape v ++ r) = (unstuff r).map (v :: ·) := by
  cases h : isSpecial v with
  | true => simp [escape_of_special h, unstuff_cons_cons_esc]
  | false => simp [escape_of_not_special h, unstuff_cons_of_ne (ne_escByte_of_not_special h)]

/-- R138(a), with more raw bytes behind. -/
theorem unstuff_stuff_append (l r : List Byte) :
    unstuff (stuff l ++ r) = (unstuff r).map (l ++ ·) := by
  induction l with
  | nil => simp
  | cons v l ih =>
    rw [stuff_cons, List.append_assoc, unstuff_escape_append, ih]
    cases unstuff r <;> rfl

theorem unescape_escape_append (v : Byte) (r : List Byte) : unescape (escape v ++ r) = .byte v r := by
  cases h : isSpecial v with
  | true => simp [escape_of_special h, unescape]
  | false =>
    have hne := ne_escByte_of_not_special h
    cases r <;> simp [escape_of_not_special h, unescape, hne]

/-- Unescaping as many times as there are logical bytes takes back the stuffing (R188). -/
theorem takeLogical_stuff_append (l r : List Byte) :
    takeLogical l.length (stuff l ++ r) = some (l, r) := by
  induction l with
  | nil => rfl
  | cons v l ih =>
    rw [List.length_cons, takeLogical, stuff_cons, List.append_assoc, unescape_escape_append]
    simp only [ih]
    rfl

theorem length_le_length_stuff (l : List Byte) : l.length ≤ (stuff l).length := by
  induction l with
  | nil => simp
  | cons v l ih =>
    rw [stuff_cons, List.length_append, escape_length, List.length_cons]
    split <;> omega

theorem length_stuff_le (l : List Byte) : (stuff l).length ≤ 2 * l.length := by
  induction l with
  | nil => simp
  | cons v l ih =>
    rw [stuff_cons, List.length_append, escape_length, List.length_cons]
    split <;> omega

/-! ### Sums and checksums -/

@[simp] theorem sumBytes_nil : sumBytes [] = 0 := rfl

@[simp] theorem sumBytes_cons (b : Byte) (bs : List Byte) : sumBytes (b :: bs) = b + sumBytes bs := rfl

@[simp] theorem sumBytes_append (l m : List Byte) : sumBytes (l ++ m) = sumBytes l + sumBytes m := by
  induction l with
  | nil => simp
  | cons b l ih => simp [ih, BitVec.add_assoc]

theorem add_eq_csumOk_iff (s c : Byte) : s + c = csumOk ↔ c = csumOk - s := by
  constructor
  · rintro h
    rw [← h, BitVec.add_comm, BitVec.add_sub_cancel]
  · rintro rfl
    rw [BitVec.add_comm, BitVec.sub_add_cancel]

/-- R135: exactly one checksum byte verifies. -/
theorem verify_eq_true_iff (p : List Byte) (c : Byte) : verify p c = true ↔ c = checksum p := by
  simp [verify, checksum, add_eq_csumOk_iff]

@[simp] theorem verify_checksum (p : List Byte) : verify p (checksum p) = true :=
  (verify_eq_true_iff p _).mpr rfl

/-! ### The length field -/

theorem hiByte_toNat (n : Len) : (hiByte n).toNat = n.toNat / 256 := by
  have := n.isLt
  simp [hiByte, Nat.shiftRight_eq_div_pow]
  omega

theorem loByte_toNat (n : Len) : (loByte n).toNat = n.toNat % 256 := by
  simp [loByte]

theorem lenDecode_toNat (hi lo : Byte) : (lenDecode hi lo).toNat = hi.toNat * 256 + lo.toNat := by
  have := hi.isLt
  have := lo.isLt
  simp [lenDecode]
  omega

/-- R137: decoding is the inverse of encoding. -/
@[simp] theorem lenDecode_hiByte_loByte (n : Len) : lenDecode (hiByte n) (loByte n) = n := by
  apply BitVec.eq_of_toNat_eq
  rw [lenDecode_toNat, hiByte_toNat, loByte_toNat]
  omega

@[simp] theorem hiByte_lenDecode (hi lo : Byte) : hiByte (lenDecode hi lo) = hi := by
  apply BitVec.eq_of_toNat_eq
  have := lo.isLt
  rw [hiByte_toNat, lenDecode_toNat]
  omega

@[simp] theorem loByte_lenDecode (hi lo : Byte) : loByte (lenDecode hi lo) = lo := by
  apply BitVec.eq_of_toNat_eq
  have := lo.isLt
  rw [loByte_toNat, lenDecode_toNat]
  omega

/-! ### The frame -/

theorem frameBytes_eq (p : List Byte) :
    frameBytes p = startByte :: hiByte (BitVec.ofNat 16 p.length) :: loByte (BitVec.ofNat 16 p.length) ::
      stuff (p ++ [checksum p]) := rfl

theorem txEncode_of_domain {p : List Byte} (h : 1 ≤ p.length) (h' : p.length ≤ 65535) :
    txEncode p = frameBytes p := by
  simp [txEncode, h, h']

/-- The decoder takes back a frame (R91). -/
theorem decodeFrame_frameBytes {p : List Byte} (h : p.length ≤ 65535) :
    decodeFrame (frameBytes p) = .ok (.frame p) := by
  have hlen : (BitVec.ofNat 16 p.length).toNat = p.length := by simp; omega
  have hun : unstuff (stuff (p ++ [checksum p])) = some (p ++ [checksum p]) := by
    have := unstuff_stuff_append (p ++ [checksum p]) []
    simpa [unstuff] using this
  simp only [frameBytes_eq, decodeFrame, lenDecode_hiByte_loByte, decodeFrameRest, hun, hlen]
  simp

end Sys2Proof
end

