-- ==== Sys2Proof/Laws/Layout.lean ====
section
/-! SUPPORT. What the layout functions' shared parts and the registry can do (R250, R252). -/

namespace Sys2Proof.Machine

@[simp] theorem layoutResult_ok {α : Type} (f : α → FnResult) (a : α) : layoutResult f (.ok a) = f a := rfl
@[simp] theorem layoutResult_error {α : Type} (f : α → FnResult) (e : LayoutError) :
    layoutResult f (.error e) = .layoutError e := rfl

theorem withLength_of_short {α : Type} {n need : Nat} (ftype : Byte) (r : Except LayoutError α) (h : n < need) :
    withLength ftype n need r = .error (.truncated ftype n need) := if_pos h

theorem withLength_of_le {α : Type} {n need : Nat} (ftype : Byte) (r : Except LayoutError α) (h : need ≤ n) :
    withLength ftype n need r = r := if_neg (by omega)

/-- The registry's entry for `ND` is not the catalogue's to change. -/
theorem commandDecoder_nd (c : Cfg) (ftype : Byte) : commandDecoder c ftype 0x4E 0x44 = .ndRecord := rfl

theorem registryDecode_local {data : List Byte} {r : LocalResponse} (c : Cfg)
    (h : readLocalResponse (0x88 :: data) = .ok r) :
    registryDecode c 0x88 data =
      layoutResult (.localCommand r) (readCommand 0x88 (commandDecoder c 0x88 r.cmd0 r.cmd1) r.payload) := by
  unfold registryDecode
  rw [if_pos rfl, h]

theorem registryDecode_remote {data : List Byte} {r : RemoteResponse} (c : Cfg)
    (h : readRemoteResponse (0x97 :: data) = .ok r) :
    registryDecode c 0x97 data =
      layoutResult (.remoteCommand r) (readCommand 0x97 (commandDecoder c 0x97 r.cmd0 r.cmd1) r.payload) := by
  unfold registryDecode
  rw [if_neg (by decide), if_pos rfl, h]

theorem registryDecode_other {ftype : Byte} (c : Cfg) (data : List Byte) (h1 : ftype ≠ 0x88) (h2 : ftype ≠ 0x97)
    (h3 : ftype ≠ 0x92) : registryDecode c ftype data = .layoutError (.noDecoder ftype) := by
  unfold registryDecode
  rw [if_neg h1, if_neg h2, if_neg h3]

/-! ### The encoders are the inverse of the decoders (R250) -/

/-- Two bytes are the bytes of the field they hold. -/
theorem be16Bytes_beNat (a b : Byte) : be16Bytes (BitVec.ofNat 16 (beNat [a, b])) = [a, b] := by
  simp only [be16Bytes, beNat, List.foldl_cons, List.foldl_nil, List.cons.injEq, and_true]
  constructor <;> apply BitVec.eq_of_toNat_eq <;> have := a.isLt <;> have := b.isLt <;>
    simp [Nat.shiftRight_eq_div_pow] <;> omega

/-- Eight bytes are the bytes of the field they hold. -/
theorem be64Bytes_beNat (a b c d e f g h : Byte) :
    be64Bytes (BitVec.ofNat 64 (beNat [a, b, c, d, e, f, g, h])) = [a, b, c, d, e, f, g, h] := by
  have := a.isLt; have := b.isLt; have := c.isLt; have := d.isLt
  have := e.isLt; have := f.isLt; have := g.isLt; have := h.isLt
  simp only [be64Bytes, beNat, List.foldl_cons, List.foldl_nil, List.cons.injEq, and_true]
  refine ⟨?_, ?_, ?_, ?_, ?_, ?_, ?_, ?_⟩ <;> apply BitVec.eq_of_toNat_eq <;>
    simp [Nat.shiftRight_eq_div_pow] <;> omega

/-- The bytes of a width are the bytes of the number they hold. -/
theorem numBytes_beNat (w : NumWidth) {bs : List Byte} (h : bs.length = widthBytes w) : numBytes w (beNat bs) = bs := by
  cases w
  · match bs, h with
    | [a], _ => simp [numBytes, beNat]
  · match bs, h with
    | [a, b], _ => exact be16Bytes_beNat a b
  · match bs, h with
    | [a, b, c, d], _ =>
      have h1 : beNat [a, b, c, d] / 65536 = beNat [a, b] := by
        have := c.isLt; have := d.isLt
        simp only [beNat, List.foldl_cons, List.foldl_nil]; omega
      have h2 : BitVec.ofNat 16 (beNat [a, b, c, d]) = BitVec.ofNat 16 (beNat [c, d]) := by
        apply BitVec.eq_of_toNat_eq
        simp only [beNat, List.foldl_cons, List.foldl_nil, BitVec.toNat_ofNat]; omega
      rw [numBytes, h1, h2, be16Bytes_beNat, be16Bytes_beNat]; rfl

/-- A payload from a 16-bit field on is the bytes of the field and the rest. -/
theorem drop_eq_field16 {p : List Byte} {i : Nat} (h : i + 2 ≤ p.length) :
    p.drop i = be16Bytes (field16 p i) ++ p.drop (i + 2) := by
  have hd : (p.drop i).length = p.length - i := List.length_drop
  rw [← List.drop_drop, field16, fieldBytes]
  match hp : p.drop i with
  | [] => simp [hp] at hd; omega
  | [a] => simp [hp] at hd; omega
  | a :: b :: t => simp [be16Bytes_beNat]

/-- A payload from a 64-bit field on is the bytes of the field and the rest. -/
theorem drop_eq_field64 {p : List Byte} {i : Nat} (h : i + 8 ≤ p.length) :
    p.drop i = be64Bytes (field64 p i) ++ p.drop (i + 8) := by
  have hd : ((p.drop i).take 8).length = 8 := by rw [List.length_take, List.length_drop]; omega
  rw [← List.drop_drop, field64, fieldBytes]
  conv_lhs => rw [← List.take_append_drop 8 (p.drop i)]
  congr 1
  match hq : (p.drop i).take 8, hd with
  | [a, b, c, d, e, f, g, k], _ => exact (be64Bytes_beNat a b c d e f g k).symm

/-- A payload from a byte on is the byte and the rest. -/
theorem drop_eq_field8 {p : List Byte} {i : Nat} (h : i < p.length) : p.drop i = field8 p i :: p.drop (i + 1) := by
  rw [List.drop_eq_getElem_cons h, field8, List.getD_eq_getElem?_getD, List.getElem?_eq_getElem h]; rfl

/-- R257: a scan passes over printable characters. -/
theorem scanFrom_append {cs : List Byte} (h : ∀ c ∈ cs, 32 ≤ c ∧ c ≤ 126) (rest : List Byte) :
    ∀ z, scanFrom z (cs ++ rest) = scanFrom (z + cs.length) rest := by
  induction cs with
  | nil => intro z; rfl
  | cons c cs ih =>
    intro z
    obtain ⟨h1, h2⟩ := h c (List.mem_cons_self ..)
    rw [List.cons_append, scanFrom, if_neg (by rintro rfl; exact absurd h1 (by decide)),
      if_neg (not_or.mpr ⟨BitVec.not_lt.mpr h1, BitVec.not_lt.mpr h2⟩),
      ih fun c hc => h c (List.mem_cons_of_mem _ hc), List.length_cons, Nat.add_right_comm, Nat.add_assoc]

/-- R257: a scan that ends well stands at a zero byte. -/
theorem scanFrom_ok {bs : List Byte} : ∀ {z n : Nat}, scanFrom z bs = some (.ok n) →
    z ≤ n ∧ bs.drop (n - z) = 0x00 :: bs.drop (n - z + 1) := by
  induction bs with
  | nil => intro z n h; cases h
  | cons b bs ih =>
    intro z n h
    unfold scanFrom at h
    split at h
    · rename_i hb
      cases h; simp [hb]
    · split at h
      · cases h
      · obtain ⟨h1, h2⟩ := ih h
        refine ⟨by omega, ?_⟩
        rw [show n - z = (n - (z + 1)) + 1 from by omega]
        exact h2

/-- R257: the terminator found is at index 10 or later. -/
theorem scanIdent_ok {ftype : Byte} {q : List Byte} {z : Nat} (h : scanIdent ftype q = .ok z) :
    10 ≤ z ∧ q.drop z = 0x00 :: q.drop (z + 1) := by
  unfold scanIdent at h
  split at h
  · rename_i r hr
    subst h
    obtain ⟨h1, h2⟩ := scanFrom_ok hr
    rw [List.drop_drop, List.drop_drop] at h2
    exact ⟨h1, by rwa [show 10 + (z - 10) = z from by omega, show 10 + (z - 10 + 1) = z + 1 from by omega] at h2⟩
  · cases h

/-- R256: the record read lays out as the bytes it was read from. -/
theorem ndBytes_of_readNdRecord {ftype : Byte} {q : List Byte} {r : NdRecord} (h : readNdRecord ftype q = .ok r) :
    ndBytes r = q := by
  unfold readNdRecord withLength at h
  split at h
  · cases h
  · rename_i hl
    split at h
    · cases h
    · rename_i z hz
      split at h
      · cases h
      · rename_i hz9
        cases h
        obtain ⟨h10, h0⟩ := scanIdent_ok hz
        have hid : fieldBytes q 10 (z - 10) ++ q.drop z = q.drop 10 := by
          rw [fieldBytes, show q.drop z = (q.drop 10).drop (z - 10) from by rw [List.drop_drop]; congr 1; omega]
          exact List.take_append_drop _ _
        conv_rhs => rw [← List.drop_zero (l := q), drop_eq_field16 (i := 0) (by omega), drop_eq_field64 (i := 0 + 2) (by omega),
          ← hid, h0, drop_eq_field16 (i := z + 1) (by omega), drop_eq_field8 (i := z + 1 + 2) (by omega),
          drop_eq_field8 (i := z + 1 + 2 + 1) (by omega), drop_eq_field16 (i := z + 1 + 2 + 1 + 1) (by omega),
          drop_eq_field16 (i := z + 1 + 2 + 1 + 1 + 2) (by omega)]
        simp [ndBytes, ndFields]

theorem layout_ok_of_map {α β : Type} {f : α → β} {r : Except LayoutError α} {b : β} (h : r.map f = .ok b) :
    ∃ a, r = .ok a ∧ f a = b := by
  cases r with
  | error e => cases h
  | ok a => exact ⟨a, rfl, Except.ok.inj h⟩

/-- A text is its printable characters; what follows is empty or begins with a zero byte (log entry 40). -/
theorem readText_append {cs tail : List Byte} (h : ∀ c ∈ cs, 32 ≤ c ∧ c ≤ 126) (ht : tail.headD 0x00 = 0x00) :
    readText (cs ++ tail) = .ok (cs, tail) := by
  rw [readText, scanFrom_append h, Nat.zero_add]
  match tail, ht with
  | [], _ => simp [scanFrom]
  | b :: t, ht => rw [List.headD_cons] at ht; subst ht; simp [scanFrom]

/-- A byte of a text that is not printable is the error of rule R257, with its index and value. -/
theorem readText_bad {cs more : List Byte} {bad : Byte} (h : ∀ c ∈ cs, 32 ≤ c ∧ c ≤ 126) (h0 : bad ≠ 0x00)
    (hb : bad < 32 ∨ 126 < bad) : readText (cs ++ bad :: more) = .error (.ndBadIdentifier cs.length bad) := by
  rw [readText, scanFrom_append h, Nat.zero_add, scanFrom, if_neg h0, if_pos hb]

/-- What a decoder has read lays out as the bytes it was read from. -/
theorem payloadBytes_of_readCommand {ftype : Byte} {d : CmdShape} {q : List Byte} {p : CmdPayload}
    (h : readCommand ftype d q = .ok p) : payloadBytes d p = q := by
  cases d with
  | opaqueBytes => cases h; rfl
  | ndRecord =>
    obtain ⟨r, hr, rfl⟩ := layout_ok_of_map h
    exact ndBytes_of_readNdRecord hr
  | number w =>
    obtain ⟨⟨n, tail⟩, hr, rfl⟩ := layout_ok_of_map h
    unfold readNumber withLength at hr
    split at hr
    · cases hr
    · rename_i hl
      cases hr
      show numBytes w (beNat (q.take (widthBytes w))) ++ q.drop (widthBytes w) = q
      rw [numBytes_beNat w (by rw [List.length_take]; omega), List.take_append_drop]
  | text =>
    obtain ⟨⟨cs, tail⟩, hr, rfl⟩ := layout_ok_of_map h
    unfold readText at hr
    split at hr <;> cases hr
    · exact List.take_append_drop _ _
    · exact List.append_nil _

/-- A decoder's success does not depend on the frame type, which its error alone names. -/
theorem readCommand_of_ftype {ftype : Byte} (ftype' : Byte) {d : CmdShape} {q : List Byte} {p : CmdPayload}
    (h : readCommand ftype d q = .ok p) : readCommand ftype' d q = .ok p := by
  cases d with
  | opaqueBytes => exact h
  | ndRecord =>
    obtain ⟨r, hr, rfl⟩ := layout_ok_of_map h
    have hs : ∀ z, scanIdent ftype q = .ok z → scanIdent ftype' q = .ok z := by
      intro z hz
      unfold scanIdent at hz ⊢
      split at hz
      · exact hz
      · cases hz
    have hr' : readNdRecord ftype' q = .ok r := by
      unfold readNdRecord withLength at hr ⊢
      split at hr
      · cases hr
      · rename_i hl
        rw [if_neg hl]
        split at hr
        · cases hr
        · rename_i z hz
          rw [hs z hz]
          split at hr
          · cases hr
          · rename_i hl'; cases hr; exact if_neg hl'
    rw [readCommand, hr']; rfl
  | number w =>
    obtain ⟨x, hr, rfl⟩ := layout_ok_of_map h
    unfold readNumber withLength at hr
    split at hr
    · cases hr
    · rename_i hl
      cases hr
      simp only [readCommand, readNumber]
      rw [withLength, if_neg hl]; rfl
  | text => exact h

/-- R250: the encoder of a shape is the inverse of its decoder. -/
theorem writeCommand_of_readCommand {ftype : Byte} {d : CmdShape} {q : List Byte} {p : CmdPayload}
    (h : readCommand ftype d q = .ok p) : writeCommand d p = q := by
  rw [writeCommand, payloadBytes_of_readCommand h, readCommand_of_ftype 0 h]
  exact if_pos rfl

end Sys2Proof.Machine
end

