-- ==== Sys2Proof/Laws/Ops.lean ====
section
/-! SUPPORT. What the shared operations can do: one lemma for each, the equation of its outcome or the case split of
its next states, for proofs to cite in place of its definition. -/

namespace Sys2Proof.Machine

/-! ### Ending a frame and raising an error (R180, R301) -/

@[simp] theorem resumeRx_cfg (s : State) : (resumeRx s).cfg = s.cfg := by
  unfold resumeRx; split <;> rfl
@[simp] theorem resumeRx_tx (s : State) : (resumeRx s).tx = s.tx := by
  unfold resumeRx; split <;> rfl

/-- `resumeRx`, as one update. -/
theorem resumeRx_eq (s : State) :
    resumeRx s = { s with
      rxEvents := s.rxEvents ++ (if s.rx.stopPending then [.stopped] else []),
      rx := { s.rx with state := if s.rx.stopPending then .stopped else .seek } } := by
  unfold resumeRx
  split
  · next h => simp [emitRx, setRx, h]
  · next h => simp [setRx, h]

/-- The end of a frame attempt, as one update. -/
theorem endFrame_eq (e : Event) (s : State) :
    endFrame e s = { s with
      rxEvents := s.rxEvents ++ e :: (if s.rx.stopPending then [.stopped] else []),
      rx := { s.rx with state := if s.rx.stopPending then .stopped else .seek } } := by
  rw [endFrame, resumeRx_eq, emitRx_rx, emitRx_rxEvents, List.append_assoc]
  rfl

/-- `raise` of a recoverable error is the end of its frame (R301). -/
theorem raise_of_recoverable {e : Event} (h : e.cls = .recoverable) (s : State) : raise e s = endFrame e s := by
  simp [raise, h]

/-- `raise` of a refused request only emits its event (R301). -/
theorem raise_of_refused {e : Event} (h : e.cls = .refused) (s : State) : raise e s = emitTx e s := by
  simp [raise, h]

@[simp] theorem raise_framingErr (c : FramingCause) (o n : Len) (s : State) :
    raise (.framingErr c o n) s = raiseRxFatal (.framingErr c o n) s := rfl
@[simp] theorem raise_transportClosed (s : State) :
    raise .transportClosed s = raiseRxFatal .transportClosed s := rfl
@[simp] theorem raise_txErrTransport (n : Nat) (s : State) :
    raise (.txErrTransport n) s = raiseTxFatal (.txErrTransport n) s := rfl

/-! ### RX operations -/

theorem escClear_of_clear {s : State} (h : s.rx.esc = false) : escClear s = s := by
  unfold escClear
  rw [← h]
  rfl

/-- Taking a logical byte where its store has an entry to go to, or there is none (R173). -/
theorem opAccept_of_fits {v : Byte} {s : State} (h : s.rx.oversize = true ∨ s.rx.cnt < s.cfg.rxMaxLen) :
    opAccept v s = .next (setRx (acceptRx v s.rx) s) := by
  unfold opAccept
  rw [if_neg]
  rintro ⟨ho, hc⟩
  rcases h with h | h
  · rw [ho] at h
    exact Bool.false_ne_true h
  · exact BitVec.not_le.mpr h hc

/-- A store beyond the buffer (R29, log entry 16). -/
theorem opAccept_of_full {v : Byte} {s : State} (h : s.rx.oversize = false) (h' : s.cfg.rxMaxLen ≤ s.rx.cnt) :
    opAccept v s = .fault .bufAddress := if_pos ⟨h, h'⟩

/-- `rx_accept` answers this next state or a fault. -/
theorem opAccept_eq_next {v : Byte} {s t : State} (h : opAccept v s = .next t) :
    t = setRx (acceptRx v s.rx) s := by
  unfold opAccept at h
  split at h
  · exact absurd h (by simp)
  · simpa using h.symm

/-- The event of rule R180 for checksum byte `c` in state `s`. -/
def verifyEvent (c : Byte) (s : State) : Event :=
  if s.rx.sum + c ≠ csumOk then .checksumErr s.rx.len c (csumOk - s.rx.sum)
  else if s.rx.len = 0 then .emptyFrame
  else if s.rx.oversize then .oversize s.rx.len
  else frameEvent s

/-- The event of a frame attempt that ends at its checksum byte is good or recoverable (R36, R180). -/
theorem verifyEvent_cls (c : Byte) (s : State) :
    (verifyEvent c s).cls = .good ∨ (verifyEvent c s).cls = .recoverable := by
  unfold verifyEvent frameEvent
  repeat' split
  all_goals simp [Event.cls]

theorem verifyEvent_ne_stopped (c : Byte) (s : State) : verifyEvent c s ≠ .stopped := by
  unfold verifyEvent frameEvent
  repeat' split
  all_goals simp

/-- Verifying a checksum byte where the frame stands inside the buffer, or is not read from it (R180). -/
theorem opVerify_of_fits {c : Byte} {s : State} (h : s.rx.oversize = true ∨ s.rx.len ≤ s.cfg.rxMaxLen) :
    opVerify c s = .next (endFrame (verifyEvent c s) s) := by
  unfold opVerify verifyEvent
  split
  · rfl
  · split
    · rfl
    · split
      · rfl
      · next ho =>
        rw [if_neg]
        exact BitVec.not_lt.mpr (h.resolve_left ho)

/-- A read beyond the buffer (R29, log entry 16). -/
theorem opVerify_of_beyond {c : Byte} {s : State} (hs : s.rx.sum + c = csumOk) (hl : s.rx.len ≠ 0)
    (ho : s.rx.oversize = false) (h : s.cfg.rxMaxLen < s.rx.len) : opVerify c s = .fault .bufAddress := by
  unfold opVerify
  rw [if_neg (not_not_intro hs), if_neg hl, if_neg (by simp [ho]), if_pos h]

/-- `rx_verify` answers this next state or a fault. -/
theorem opVerify_eq_next {c : Byte} {s t : State} (h : opVerify c s = .next t) :
    t = endFrame (verifyEvent c s) s := by
  unfold opVerify at h
  unfold verifyEvent
  split at h
  · next h1 => rw [if_pos h1]; simpa [raise, Event.cls] using h.symm
  · next h1 =>
    rw [if_neg h1]
    split at h
    · next h2 => rw [if_pos h2]; simpa [raise, Event.cls] using h.symm
    · next h2 =>
      rw [if_neg h2]
      split at h
      · next h3 => rw [if_pos h3]; simpa [raise, Event.cls] using h.symm
      · next h3 =>
        rw [if_neg h3]
        split at h
        · exact absurd h (by simp)
        · simpa using h.symm

/-! ### One RX step (R160) -/

/-- What a next state of RX on a symbol can be: one case for each kind of step of rule R160. -/
inductive RxStepTo (sym : Symbol) (s : State) : State → Prop where
  | skip (b : Byte) (h : s.rx.state = .seek) (hs : sym = .byte b) (hb : b ≠ startByte) :
      RxStepTo sym s (traceSkip b s)
  | start (h : s.rx.state = .seek) (hs : sym = .byte startByte) :
      RxStepTo sym s (setRx { s.rx with
        len := 0, cnt := 0, sum := 0, esc := false, oversize := false, state := .lenHi } s)
  | lenHi (b : Byte) (h : s.rx.state = .lenHi) (hs : sym = .byte b) :
      RxStepTo sym s (setRx { s.rx with len := lenDecode b 0, state := .lenLo } s)
  | lenLo (b : Byte) (h : s.rx.state = .lenLo) (hs : sym = .byte b) :
      RxStepTo sym s (setRx (lenLoRx s.cfg (lenDecode (hiByte s.rx.len) b) s.rx) s)
  | marker (h : s.rx.state = .body ∨ s.rx.state = .csum) (he : s.rx.esc = false) (hs : sym = .byte escByte) :
      RxStepTo sym s (setRx { s.rx with esc := true } s)
  | accept (b v : Byte) (h : s.rx.state = .body) (hs : sym = .byte b)
      (hv : v = if s.rx.esc then b ^^^ escXor else b) (hb : s.rx.esc = false → b ≠ escByte)
      (hf : s.rx.oversize = true ∨ s.rx.cnt < s.cfg.rxMaxLen) :
      RxStepTo sym s (setRx { acceptRx v s.rx with esc := false } s)
  | verify (b v : Byte) (h : s.rx.state = .csum) (hs : sym = .byte b)
      (hv : v = if s.rx.esc then b ^^^ escXor else b) (hb : s.rx.esc = false → b ≠ escByte) :
      RxStepTo sym s (endFrame (verifyEvent v s) (escClear s))
  | eosIdle (h : s.rx.state = .seek) (hs : sym = .eos) : RxStepTo sym s (raiseRxFatal .transportClosed s)
  | eosLen (n : Len) (h : s.rx.state = .lenHi ∧ n = 0 ∨ s.rx.state = .lenLo ∧ n = 1) (hs : sym = .eos) :
      RxStepTo sym s (raiseRxFatal (.framingErr .eosInLength n 2) s)
  | eosFrame (h : s.rx.state = .body ∨ s.rx.state = .csum) (hs : sym = .eos) :
      RxStepTo sym s (raiseRxFatal (.framingErr (eosCause s.rx) s.rx.cnt s.rx.len) s)
  | stopNow (h : s.rx.state = .seek) (hs : sym = .stop) :
      RxStepTo sym s (emitRx .stopped (setRx { s.rx with stopPending := true, state := .stopped } s))
  | stopLater (h : s.rx.state.inFrame = true) (hs : sym = .stop) :
      RxStepTo sym s (setRx { s.rx with stopPending := true } s)
  | ignore (h : s.rx.state = .stopped ∨ s.rx.state = .dead) : RxStepTo sym s s

theorem verifyEvent_escClear (c : Byte) (s : State) : verifyEvent c (escClear s) = verifyEvent c s := rfl

/-- R160: a next state of RX on a symbol is one of these. -/
theorem rxSymbol_cases {sym : Symbol} {s t : State} (h : rxSymbol sym s = .next t) : RxStepTo sym s t := by
  have accept : ∀ b, s.rx.state = .body → opBodyByte b s = .next t → RxStepTo (.byte b) s t := by
    intro b hst h
    unfold opBodyByte at h
    split at h
    · next he =>
      have hf : s.rx.oversize = true ∨ s.rx.cnt < s.cfg.rxMaxLen := by
        by_contra hc
        simp only [not_or, Bool.not_eq_true, BitVec.not_lt] at hc
        rw [opAccept_of_full (s := escClear s) hc.1 hc.2] at h
        exact absurd h (by simp)
      rw [opAccept_eq_next h]
      exact .accept b (b ^^^ escXor) hst rfl (by simp [he]) (by simp [he]) hf
    · next he =>
      have he : s.rx.esc = false := by simpa using he
      split at h
      · next hb =>
        subst hb
        cases h
        exact .marker (.inl hst) he rfl
      · next hb =>
        have hf : s.rx.oversize = true ∨ s.rx.cnt < s.cfg.rxMaxLen := by
          by_contra hc
          simp only [not_or, Bool.not_eq_true, BitVec.not_lt] at hc
          rw [opAccept_of_full hc.1 hc.2] at h
          exact absurd h (by simp)
        rw [opAccept_eq_next h, show acceptRx b s.rx = { acceptRx b s.rx with esc := false } from by
          simp [acceptRx, he]]
        exact .accept b b hst rfl (by simp [he]) (fun _ => hb) hf
  have verify : ∀ b, s.rx.state = .csum → opCsumByte b s = .next t → RxStepTo (.byte b) s t := by
    intro b hst h
    unfold opCsumByte at h
    split at h
    · next he =>
      rw [opVerify_eq_next h, verifyEvent_escClear]
      exact .verify b (b ^^^ escXor) hst rfl (by simp [he]) (by simp [he])
    · next he =>
      have he : s.rx.esc = false := by simpa using he
      split at h
      · next hb =>
        subst hb
        cases h
        exact .marker (.inr hst) he rfl
      · next hb =>
        rw [opVerify_eq_next h]
        have := RxStepTo.verify (sym := .byte b) (s := s) b b hst rfl (by simp [he]) (fun _ => hb)
        rwa [escClear_of_clear he] at this
  have stop : s.rx.state.inFrame = true → opStop s = .next t → RxStepTo .stop s t := by
    intro hst h
    unfold opStop at h
    rw [if_neg (by rintro h'; rw [h'] at hst; exact absurd hst (by decide))] at h
    cases h
    exact .stopLater hst rfl
  unfold rxSymbol at h
  split at h
  · next hst =>
    split at h
    · split at h
      · next hb => subst hb; cases h; exact .start hst rfl
      · next hb => cases h; exact .skip _ hst rfl hb
    · cases h; exact .eosIdle hst rfl
    · unfold opStop at h
      rw [if_pos hst] at h
      cases h
      exact .stopNow hst rfl
  · next hst =>
    split at h
    · cases h; exact .lenHi _ hst rfl
    · unfold opEosLen at h
      rw [if_pos hst] at h
      cases h
      exact .eosLen 0 (.inl ⟨hst, rfl⟩) rfl
    · exact stop (by rw [hst]; rfl) h
  · next hst =>
    split at h
    · cases h; exact .lenLo _ hst rfl
    · unfold opEosLen at h
      rw [if_neg (by rw [hst]; decide)] at h
      cases h
      exact .eosLen 1 (.inr ⟨hst, rfl⟩) rfl
    · exact stop (by rw [hst]; rfl) h
  · next hst =>
    split at h
    · exact accept _ hst h
    · cases h; exact .eosFrame (.inl hst) rfl
    · exact stop (by rw [hst]; rfl) h
  · next hst =>
    split at h
    · exact verify _ hst h
    · cases h; exact .eosFrame (.inr hst) rfl
    · exact stop (by rw [hst]; rfl) h
  · next hst => cases h; exact .ignore (.inl hst)
  · next hst => cases h; exact .ignore (.inr hst)

/-- The frame of an RX step: registers and outputs of RX only, and the outputs only grow. -/
theorem rxSymbol_frame {sym : Symbol} {s t : State} (h : rxSymbol sym s = .next t) :
    t = { s with rx := t.rx, rxEvents := t.rxEvents, rxTrace := t.rxTrace } ∧
      s.rxEvents <+: t.rxEvents ∧ s.rxTrace <+: t.rxTrace := by
  cases rxSymbol_cases h <;>
    simp [setRx, traceSkip, raiseRxFatal, emitRx, endFrame_eq, escClear]

/-! ### TX operations -/

theorem opReq_of_sending {s : State} (p : List Byte) (h : s.tx.state.sending = true) :
    opReq p s = setWaiting (s.waiting ++ [p]) s := if_pos h

theorem opReq_of_dead {s : State} (p : List Byte) (h : s.tx.state = .dead) : opReq p s = emitTx .txErrDead s := by
  unfold opReq
  rw [if_neg (by rw [h]; decide), if_pos h]
  rfl

theorem opReq_of_empty {s : State} (h : s.tx.state = .idle) : opReq [] s = emitTx .txErrEmpty s := by
  unfold opReq
  rw [if_neg (by rw [h]; decide), if_neg (by rw [h]; decide), if_pos List.length_nil]
  rfl

theorem opReq_of_long {s : State} {p : List Byte} (h : s.tx.state = .idle) (hl : s.cfg.txMaxLen.toNat < p.length) :
    opReq p s = emitTx (.txErrTooLong p.length) s := by
  unfold opReq
  rw [if_neg (by rw [h]; decide), if_neg (by rw [h]; decide), if_neg (by omega), if_pos hl]
  rfl

theorem opReq_of_fits {s : State} {p : List Byte} (h : s.tx.state = .idle) (hp : 1 ≤ p.length)
    (hl : p.length ≤ s.cfg.txMaxLen.toNat) : opReq p s = setTx (acceptTx p s.tx) s := by
  unfold opReq
  rw [if_neg (by rw [h]; decide), if_neg (by rw [h]; decide), if_neg (by omega), if_neg (by omega)]

/-- The state of TX is idle, sending or dead (R320). -/
theorem TxSeq.cases_mode (t : TxSeq) : t = .idle ∨ t.sending = true ∨ t = .dead := by
  cases t <;> simp [TxSeq.sending]

/-- What a TX operation by name can lead to: one case for each rule (R214 to R222, R224, R225). -/
inductive TxStepTo (s : State) : Instr → State → Prop where
  | waits (p : List Byte) (h : s.tx.state.sending = true) :
      TxStepTo s (.txReq p) (setWaiting (s.waiting ++ [p]) s)
  | refused (p : List Byte) (e : Event) (h : s.tx.state.sending = false) :
      TxStepTo s (.txReq p) (emitTx e s)
  | taken (p : List Byte) (h : s.tx.state = .idle) (hp : 1 ≤ p.length) (hl : p.length ≤ s.cfg.txMaxLen.toNat) :
      TxStepTo s (.txReq p) (setTx (acceptTx p s.tx) s)
  | start (h : s.tx.state = .start) : TxStepTo s .txStart (sendByte startByte { s.tx with state := .lenHi } s)
  | lenHi (h : s.tx.state = .lenHi) :
      TxStepTo s .txLenHi (sendByte (hiByte s.tx.len) { s.tx with state := .lenLo } s)
  | lenLo (h : s.tx.state = .lenLo) :
      TxStepTo s .txLenLo (sendByte (loByte s.tx.len) { s.tx with state := .data } s)
  | data (v : Byte) (h : s.tx.state = .data) (hv : payByte s.tx = some v) (hs : isSpecial v = false) :
      TxStepTo s .txData (sendByte v (advanceTx v s.tx) s)
  | dataEsc1 (v : Byte) (h : s.tx.state = .data) (hv : payByte s.tx = some v) (hs : isSpecial v = true) :
      TxStepTo s .txDataEsc1 (sendByte escByte { s.tx with state := .dataEsc } s)
  | dataEsc2 (v : Byte) (h : s.tx.state = .dataEsc) (hv : payByte s.tx = some v) :
      TxStepTo s .txDataEsc2 (sendByte (v ^^^ escXor) (advanceTx v s.tx) s)
  | csumEsc1 (h : s.tx.state = .csum) (hs : isSpecial (txCheck s.tx) = true) :
      TxStepTo s .txCsum (sendByte escByte { s.tx with state := .csumEsc } s)
  | csum (h : s.tx.state = .csum) (hs : isSpecial (txCheck s.tx) = false) :
      TxStepTo s .txCsum (finishTx (sendByte (txCheck s.tx) s.tx s))
  | csumEsc2 (h : s.tx.state = .csumEsc) :
      TxStepTo s .txCsumEsc2 (finishTx (sendByte (txCheck s.tx ^^^ escXor) s.tx s))
  | fail (h : s.tx.state.sending = true) : TxStepTo s .txFail (failTx s)
  | finish (h : s.tx.state = .csum ∧ isSpecial (txCheck s.tx) = false ∨ s.tx.state = .csumEsc) :
      TxStepTo s .finish (finishTx s)

/-- A request's outcome is one of these. -/
theorem opReq_cases (p : List Byte) (s : State) : TxStepTo s (.txReq p) (opReq p s) := by
  rcases TxSeq.cases_mode s.tx.state with h | h | h
  · have hs : s.tx.state.sending = false := by rw [h]; rfl
    by_cases hp : p.length = 0
    · rw [List.eq_nil_of_length_eq_zero hp, opReq_of_empty h]
      exact .refused _ _ hs
    · by_cases hl : s.cfg.txMaxLen.toNat < p.length
      · rw [opReq_of_long h hl]
        exact .refused _ _ hs
      · rw [opReq_of_fits h (by omega) (by omega)]
        exact .taken p h (by omega) (by omega)
  · rw [opReq_of_sending p h]
    exact .waits p h
  · rw [opReq_of_dead p h]
    exact .refused _ _ (by rw [h]; rfl)

/-- A byte step on the payload answers a next state where its index is one of the payload. -/
theorem withPayByte_eq_next {s t : State} {f : Byte → Res} :
    withPayByte s f = .next t ↔ ∃ v, payByte s.tx = some v ∧ f v = .next t := by
  unfold withPayByte
  cases payByte s.tx <;> simp

theorem txOp_cases_start {s t : State} (h : execTxStart s = .next t) : TxStepTo s .txStart t := by
  obtain ⟨h1, h2⟩ := onlyIf_eq_next.mp h
  cases h2
  exact .start (by simpa using h1)

theorem txOp_cases_lenHi {s t : State} (h : execTxLenHi s = .next t) : TxStepTo s .txLenHi t := by
  obtain ⟨h1, h2⟩ := onlyIf_eq_next.mp h
  cases h2
  exact .lenHi (by simpa using h1)

theorem txOp_cases_lenLo {s t : State} (h : execTxLenLo s = .next t) : TxStepTo s .txLenLo t := by
  obtain ⟨h1, h2⟩ := onlyIf_eq_next.mp h
  cases h2
  exact .lenLo (by simpa using h1)

theorem txOp_cases_data {s t : State} (h : execTxData s = .next t) : TxStepTo s .txData t := by
  obtain ⟨h1, h2⟩ := onlyIf_eq_next.mp h
  obtain ⟨v, hv, h3⟩ := withPayByte_eq_next.mp h2
  obtain ⟨h4, h5⟩ := onlyIf_eq_next.mp h3
  cases h5
  exact .data v (by simpa using h1) hv (by simpa using h4)

theorem txOp_cases_dataEsc1 {s t : State} (h : execTxDataEsc1 s = .next t) : TxStepTo s .txDataEsc1 t := by
  obtain ⟨h1, h2⟩ := onlyIf_eq_next.mp h
  obtain ⟨v, hv, h3⟩ := withPayByte_eq_next.mp h2
  obtain ⟨h4, h5⟩ := onlyIf_eq_next.mp h3
  cases h5
  exact .dataEsc1 v (by simpa using h1) hv h4

theorem txOp_cases_dataEsc2 {s t : State} (h : execTxDataEsc2 s = .next t) : TxStepTo s .txDataEsc2 t := by
  obtain ⟨h1, h2⟩ := onlyIf_eq_next.mp h
  obtain ⟨v, hv, h3⟩ := withPayByte_eq_next.mp h2
  cases h3
  exact .dataEsc2 v (by simpa using h1) hv

theorem txOp_cases_csum {s t : State} (h : execTxCsum s = .next t) : TxStepTo s .txCsum t := by
  obtain ⟨h1, h2⟩ := onlyIf_eq_next.mp h
  split at h2
  · next hs => cases h2; exact .csumEsc1 (by simpa using h1) hs
  · next hs => cases h2; exact .csum (by simpa using h1) (by simpa using hs)

theorem txOp_cases_csumEsc2 {s t : State} (h : execTxCsumEsc2 s = .next t) : TxStepTo s .txCsumEsc2 t := by
  obtain ⟨h1, h2⟩ := onlyIf_eq_next.mp h
  cases h2
  exact .csumEsc2 (by simpa using h1)

theorem txOp_cases_fail {s t : State} (h : execTxFail s = .next t) : TxStepTo s .txFail t := by
  obtain ⟨h1, h2⟩ := onlyIf_eq_next.mp h
  cases h2
  exact .fail h1

theorem txOp_cases_finish {s t : State} (h : execFinish s = .next t) : TxStepTo s .finish t := by
  obtain ⟨h1, h2⟩ := onlyIf_eq_next.mp h
  cases h2
  refine .finish ?_
  simpa using h1

/-- R210: a next state of a TX operation by name is one of these. -/
theorem txOp_cases {i : Instr} {s t : State} (hi : i = .finish ∨ i.format = .txStep) (h : exec i s = .next t) :
    TxStepTo s i t := by
  cases i
  case txReq p => cases h; exact opReq_cases p s
  case txStart => exact txOp_cases_start h
  case txLenHi => exact txOp_cases_lenHi h
  case txLenLo => exact txOp_cases_lenLo h
  case txData => exact txOp_cases_data h
  case txDataEsc1 => exact txOp_cases_dataEsc1 h
  case txDataEsc2 => exact txOp_cases_dataEsc2 h
  case txCsum => exact txOp_cases_csum h
  case txCsumEsc2 => exact txOp_cases_csumEsc2 h
  case txFail => exact txOp_cases_fail h
  case finish => exact txOp_cases_finish h
  all_goals exact absurd hi (by simp [Instr.format])

/-! ### Raw bytes in order -/

@[simp] theorem feed_nil (s : State) : feed [] s = .next s := rfl

theorem feed_cons (b : Byte) (bs : List Byte) (s : State) :
    feed (b :: bs) s = andThen (rxSymbol (.byte b) s) (feed bs) := rfl

@[simp] theorem andThen_next_right (o : Res) : andThen o .next = o := by cases o <;> rfl

/-- One byte fed is one RX step. -/
theorem feed_singleton (b : Byte) (s : State) : feed [b] s = rxSymbol (.byte b) s := by
  have : feed [] = Host.Outcome.next (φ := Fault) (ρ := Refusal) := by funext s; rfl
  rw [feed_cons, this, andThen_next_right]

theorem feed_append (a b : List Byte) : ∀ s, feed (a ++ b) s = andThen (feed a s) (feed b) := by
  induction a with
  | nil => intro s; rfl
  | cons x a ih =>
    intro s
    rw [List.cons_append, feed_cons, feed_cons]
    cases rxSymbol (.byte x) s <;> simp [ih]

/-- Raw bytes change RX's registers and outputs only, and the outputs only grow. -/
theorem feed_frame (bs : List Byte) : ∀ {s t : State}, feed bs s = .next t →
    t = { s with rx := t.rx, rxEvents := t.rxEvents, rxTrace := t.rxTrace } ∧
      s.rxEvents <+: t.rxEvents ∧ s.rxTrace <+: t.rxTrace := by
  induction bs with
  | nil => intro s t h; cases h; simp
  | cons b bs ih =>
    intro s t h
    rw [feed_cons, andThen_eq_next] at h
    obtain ⟨u, h1, h2⟩ := h
    obtain ⟨a1, a2, a3⟩ := rxSymbol_frame h1
    obtain ⟨b1, b2, b3⟩ := ih h2
    refine ⟨?_, a2.trans b2, a3.trans b3⟩
    rw [b1, a1]

/-! ### Runs of steps -/

/-- A run whose first step completes goes on from there. -/
theorem core_run_succ {n : Nat} {s t : State} (h : step s = .next t) :
    Host.Core.run Sys2Proof.core (n + 1) s = Host.Core.run Sys2Proof.core n t := by
  have h' : Sys2Proof.core.step s = .next t := h
  simp only [Host.Core.run, h']

/-! ### The buffer's canonical form -/

/-- Taking a logical byte keeps the buffer's canonical form (R29). -/
theorem acceptRx_bufWf (v : Byte) {r : Rx} (h : bufWf r.buf = true) : bufWf (acceptRx v r).buf = true := by
  unfold acceptRx
  dsimp only
  split
  · exact h
  · exact bufWrite_wf _ _ h

/-- The buffer after reset has the canonical form. -/
theorem reset_bufWf : bufWf State.reset.rx.buf = true := rfl

/-- An RX step keeps the buffer's canonical form. -/
theorem rxSymbol_bufWf {sym : Symbol} {s t : State} (hw : bufWf s.rx.buf = true) (h : rxSymbol sym s = .next t) :
    bufWf t.rx.buf = true := by
  cases rxSymbol_cases h with
  | accept b v _ _ _ _ _ => exact acceptRx_bufWf v hw
  | verify b v _ _ _ _ => rw [endFrame_eq]; exact hw
  | _ => exact hw

end Sys2Proof.Machine
end

