-- ==== Sys2Proof/Laws/PerInstr.lean ====
section
/-! SUPPORT. The family RoundTrip: for an operation whose row has bits, decoding its bytes in its format gives it
back (R91, R94, R95, R99, R100, R105). One lemma per constructor of `Instr`. -/

namespace Sys2Proof.Laws

/-- Decoding the bytes of a well-formed operation whose row has bits gives the operation. -/
def RoundTrip.Statement (i : Instr) : Prop :=
  i.wf = true → i.format.hasBits = true → decode i.format (encode i) = .ok i

/-- A row without bits says nothing. -/
theorem roundTrip_of_noBits {i : Instr} (h : i.format.hasBits = false) : RoundTrip.Statement i := by
  intro _ h'
  rw [h] at h'
  exact absurd h' (by decide)

theorem RoundTrip.start : RoundTrip.Statement .start := fun _ _ => rfl
theorem RoundTrip.esc : RoundTrip.Statement .esc := fun _ _ => rfl
theorem RoundTrip.xon : RoundTrip.Statement .xon := fun _ _ => rfl
theorem RoundTrip.xoff : RoundTrip.Statement .xoff := fun _ _ => rfl
theorem RoundTrip.plain (value : Byte) : RoundTrip.Statement (.plain value) := by
  intro h _
  have hs := isSpecial_eq_false_iff.mp (by simpa [Instr.wf] using h)
  simp only [encode, Instr.format, decode, decodeSym8, startByte, escByte, xonByte, xoffByte, hs, if_false]

theorem RoundTrip.escStart : RoundTrip.Statement .escStart := fun _ _ => rfl
theorem RoundTrip.escEsc : RoundTrip.Statement .escEsc := fun _ _ => rfl
theorem RoundTrip.escXon : RoundTrip.Statement .escXon := fun _ _ => rfl
theorem RoundTrip.escXoff : RoundTrip.Statement .escXoff := fun _ _ => rfl
theorem RoundTrip.escAny (e : Byte) : RoundTrip.Statement (.escAny e) := by
  intro h _
  have hs := isSpecial_eq_false_iff.mp (by simpa [Instr.wf] using h)
  have ne : ∀ a : Byte, (e ^^^ escXor) ≠ a → e ≠ a ^^^ escXor := by
    intro a h' h''
    exact h' (by rw [h'', xor_escXor_xor_escXor])
  have h1 := ne _ hs.1
  have h2 := ne _ hs.2.1
  have h3 := ne _ hs.2.2.1
  have h4 := ne _ hs.2.2.2
  simp only [show (0x7E : Byte) ^^^ escXor = 0x5E from by decide, show (0x7D : Byte) ^^^ escXor = 0x5D from by decide,
    show (0x11 : Byte) ^^^ escXor = 0x31 from by decide, show (0x13 : Byte) ^^^ escXor = 0x33 from by decide]
    at h1 h2 h3 h4
  simp only [encode, Instr.format, decode, decodeEsc16, escByte, h1, h2, h3, h4, ne_eq, not_true, if_false]

theorem RoundTrip.hdr (lenHi lenLo : Byte) : RoundTrip.Statement (.hdr lenHi lenLo) := fun _ _ => rfl
theorem RoundTrip.frame (p : List Byte) : RoundTrip.Statement (.frame p) := by
  intro h _
  exact decodeFrame_frameBytes (by simpa [Instr.wf] using h)

theorem RoundTrip.ftLocalCmdResponse : RoundTrip.Statement .ftLocalCmdResponse := fun _ _ => rfl
theorem RoundTrip.ftRemoteCmdResponse : RoundTrip.Statement .ftRemoteCmdResponse := fun _ _ => rfl
theorem RoundTrip.ftIoSample : RoundTrip.Statement .ftIoSample := fun _ _ => rfl
theorem RoundTrip.ftRemoteCmdRequest : RoundTrip.Statement .ftRemoteCmdRequest := fun _ _ => rfl
theorem RoundTrip.ftUnmappedExample : RoundTrip.Statement .ftUnmappedExample := fun _ _ => rfl
theorem RoundTrip.ftOther (code : Byte) : RoundTrip.Statement (.ftOther code) := by
  intro h _
  simp only [Instr.wf, ftypeCodes, Bool.not_eq_true', List.contains_eq_mem, List.mem_cons, List.not_mem_nil,
    or_false, decide_eq_false_iff_not, not_or] at h
  simp only [encode, Instr.format, decode, decodeFtype8, h, if_false]

theorem RoundTrip.stOk : RoundTrip.Statement .stOk := fun _ _ => rfl
theorem RoundTrip.stError : RoundTrip.Statement .stError := fun _ _ => rfl
theorem RoundTrip.stInvalidCommand : RoundTrip.Statement .stInvalidCommand := fun _ _ => rfl
theorem RoundTrip.stInvalidParameter : RoundTrip.Statement .stInvalidParameter := fun _ _ => rfl
theorem RoundTrip.stTransmissionFailure : RoundTrip.Statement .stTransmissionFailure := fun _ _ => rfl
theorem RoundTrip.stNoSecureSession : RoundTrip.Statement .stNoSecureSession := fun _ _ => rfl
theorem RoundTrip.stEncryptionError : RoundTrip.Statement .stEncryptionError := fun _ _ => rfl
theorem RoundTrip.stSentInsecurely : RoundTrip.Statement .stSentInsecurely := fun _ _ => rfl
theorem RoundTrip.stUnknown (code : Byte) : RoundTrip.Statement (.stUnknown code) := by
  intro h _
  simp only [Instr.wf, statusCodes, Bool.not_eq_true', List.contains_eq_mem, List.mem_cons, List.not_mem_nil,
    or_false, decide_eq_false_iff_not, not_or] at h
  simp only [encode, Instr.format, decode, decodeStatus8, h, if_false]

theorem RoundTrip.rxSkip (b : Byte) : RoundTrip.Statement (.rxSkip b) := roundTrip_of_noBits rfl
theorem RoundTrip.rxStart : RoundTrip.Statement .rxStart := roundTrip_of_noBits rfl
theorem RoundTrip.rxLenHi (b : Byte) : RoundTrip.Statement (.rxLenHi b) := roundTrip_of_noBits rfl
theorem RoundTrip.rxLenLo (b : Byte) : RoundTrip.Statement (.rxLenLo b) := roundTrip_of_noBits rfl
theorem RoundTrip.rxBodyEsc : RoundTrip.Statement .rxBodyEsc := roundTrip_of_noBits rfl
theorem RoundTrip.rxBodyLit (b : Byte) : RoundTrip.Statement (.rxBodyLit b) := roundTrip_of_noBits rfl
theorem RoundTrip.rxBodyXor (b : Byte) : RoundTrip.Statement (.rxBodyXor b) := roundTrip_of_noBits rfl
theorem RoundTrip.rxCsumEsc : RoundTrip.Statement .rxCsumEsc := roundTrip_of_noBits rfl
theorem RoundTrip.rxCsumLit (b : Byte) : RoundTrip.Statement (.rxCsumLit b) := roundTrip_of_noBits rfl
theorem RoundTrip.rxCsumXor (b : Byte) : RoundTrip.Statement (.rxCsumXor b) := roundTrip_of_noBits rfl
theorem RoundTrip.rxEosIdle : RoundTrip.Statement .rxEosIdle := roundTrip_of_noBits rfl
theorem RoundTrip.rxEosLen : RoundTrip.Statement .rxEosLen := roundTrip_of_noBits rfl
theorem RoundTrip.rxEosFrame : RoundTrip.Statement .rxEosFrame := roundTrip_of_noBits rfl
theorem RoundTrip.rxStop : RoundTrip.Statement .rxStop := roundTrip_of_noBits rfl
theorem RoundTrip.rxIgnore (sym : Symbol) : RoundTrip.Statement (.rxIgnore sym) := roundTrip_of_noBits rfl
theorem RoundTrip.rxAccept (v : Byte) : RoundTrip.Statement (.rxAccept v) := roundTrip_of_noBits rfl
theorem RoundTrip.rxVerify (c : Byte) : RoundTrip.Statement (.rxVerify c) := roundTrip_of_noBits rfl
theorem RoundTrip.deframe (r : List Byte) : RoundTrip.Statement (.deframe r) := roundTrip_of_noBits rfl
theorem RoundTrip.txReq (p : List Byte) : RoundTrip.Statement (.txReq p) := roundTrip_of_noBits rfl
theorem RoundTrip.txStart : RoundTrip.Statement .txStart := roundTrip_of_noBits rfl
theorem RoundTrip.txLenHi : RoundTrip.Statement .txLenHi := roundTrip_of_noBits rfl
theorem RoundTrip.txLenLo : RoundTrip.Statement .txLenLo := roundTrip_of_noBits rfl
theorem RoundTrip.txData : RoundTrip.Statement .txData := roundTrip_of_noBits rfl
theorem RoundTrip.txDataEsc1 : RoundTrip.Statement .txDataEsc1 := roundTrip_of_noBits rfl
theorem RoundTrip.txDataEsc2 : RoundTrip.Statement .txDataEsc2 := roundTrip_of_noBits rfl
theorem RoundTrip.txCsum : RoundTrip.Statement .txCsum := roundTrip_of_noBits rfl
theorem RoundTrip.txCsumEsc2 : RoundTrip.Statement .txCsumEsc2 := roundTrip_of_noBits rfl
theorem RoundTrip.txFail : RoundTrip.Statement .txFail := roundTrip_of_noBits rfl
theorem RoundTrip.finish : RoundTrip.Statement .finish := roundTrip_of_noBits rfl
theorem RoundTrip.txEncode (p : List Byte) : RoundTrip.Statement (.txEncode p) := roundTrip_of_noBits rfl
theorem RoundTrip.isSpecial (v : Byte) : RoundTrip.Statement (.isSpecial v) := roundTrip_of_noBits rfl
theorem RoundTrip.escape (v : Byte) : RoundTrip.Statement (.escape v) := roundTrip_of_noBits rfl
theorem RoundTrip.unescape (s : List Byte) : RoundTrip.Statement (.unescape s) := roundTrip_of_noBits rfl
theorem RoundTrip.checksum (p : List Byte) : RoundTrip.Statement (.checksum p) := roundTrip_of_noBits rfl
theorem RoundTrip.verify (p : List Byte) (c : Byte) : RoundTrip.Statement (.verify p c) := roundTrip_of_noBits rfl
theorem RoundTrip.lenEncode (n : Len) : RoundTrip.Statement (.lenEncode n) := roundTrip_of_noBits rfl
theorem RoundTrip.lenDecode (hi lo : Byte) : RoundTrip.Statement (.lenDecode hi lo) := roundTrip_of_noBits rfl
theorem RoundTrip.stuff (l : List Byte) : RoundTrip.Statement (.stuff l) := roundTrip_of_noBits rfl
theorem RoundTrip.unstuff (r : List Byte) : RoundTrip.Statement (.unstuff r) := roundTrip_of_noBits rfl
theorem RoundTrip.decodeLocalResponse (data : List Byte) : RoundTrip.Statement (.decodeLocalResponse data) :=
  roundTrip_of_noBits rfl
theorem RoundTrip.decodeRemoteResponse (data : List Byte) : RoundTrip.Statement (.decodeRemoteResponse data) :=
  roundTrip_of_noBits rfl
theorem RoundTrip.decodeStatus (kind : RespKind) (v : Byte) : RoundTrip.Statement (.decodeStatus kind v) :=
  roundTrip_of_noBits rfl
theorem RoundTrip.decodeNdRecord (q : CmdData) : RoundTrip.Statement (.decodeNdRecord q) :=
  roundTrip_of_noBits rfl
theorem RoundTrip.scanIdentifier (q : CmdData) : RoundTrip.Statement (.scanIdentifier q) :=
  roundTrip_of_noBits rfl
theorem RoundTrip.decodeIoSample (data : List Byte) : RoundTrip.Statement (.decodeIoSample data) :=
  roundTrip_of_noBits rfl
theorem RoundTrip.numDecode (w : NumWidth) (q : CmdData) : RoundTrip.Statement (.numDecode w q) :=
  roundTrip_of_noBits rfl
theorem RoundTrip.atreq (t : TypeArg) (fid c0 c1 : Byte) (v : List Byte) : RoundTrip.Statement (.atreq t fid c0 c1 v) :=
  roundTrip_of_noBits rfl
theorem RoundTrip.ratreq (fid : Byte) (a64 : BitVec 64) (a16 : BitVec 16) (opt c0 c1 : Byte) (v : List Byte) :
    RoundTrip.Statement (.ratreq fid a64 a16 opt c0 c1 v) :=
  roundTrip_of_noBits rfl
theorem RoundTrip.wire (p : List Byte) : RoundTrip.Statement (.wire p) := roundTrip_of_noBits rfl
theorem RoundTrip.fidNext : RoundTrip.Statement .fidNext := roundTrip_of_noBits rfl

end Sys2Proof.Laws
end

