-- ==== Sys2Proof/Tests/Slice0.lean ====
section
/-! SUPPORT. The model's own tests: the well-formedness smoke tests, words written out from spec/30_encoding.md, one
step of each operation against spec/95_test_vectors.md or a calculation from the rule named, and a witness for the
hypotheses of each statement. -/

open Sys2Proof Sys2Proof.Machine Sys2Proof.Statements

namespace Sys2Proof.Tests

/-! ### Helpers -/

/-- The next state, where there is one. -/
def nextOf (o : Res) : Option State :=
  match o with
  | .next s => some s
  | .fault _ => none
  | .refused _ => none

/-- The function result of the next state. -/
def retOf (o : Res) : Option FnResult := (nextOf o).bind (·.ret)

/-- Is the outcome this refusal? -/
def refusedAs (r : Refusal) (o : Res) : Bool :=
  match o with
  | .next _ => false
  | .fault _ => false
  | .refused r' => r' == r

/-- Is the outcome this fault? -/
def faultsAs (f : Fault) (o : Res) : Bool :=
  match o with
  | .next _ => false
  | .fault f' => f' == f
  | .refused _ => false

/-- The state after reset, with the RX registers given. -/
def withRx (r : Rx) : State := { State.reset with rx := r }

/-- The state after reset, with the TX registers given. -/
def withTx (t : Tx) : State := { State.reset with tx := t }

/-- RX in state `st`, else as after reset. -/
def rxIn (st : RxSeq) : State := withRx { Rx.reset with state := st }

/-- TX in state `st`, else as after reset. -/
def txIn (st : TxSeq) : State := withTx { Tx.reset with state := st }

/-- In the middle of the frame of V10e, `7E 00 02 88`: one of two logical bytes taken. -/
def rxBody : State := withRx { Rx.reset with state := .body, len := 2, cnt := 1, sum := 0x88, buf := [(0, 0x88)] }

/-- `rxBody` with an escape marker taken. -/
def rxBodyPair : State := withRx { rxBody.rx with esc := true }

/-- Before the checksum byte of V1, `7E 00 01 88`. -/
def rxCsum : State := withRx { Rx.reset with state := .csum, len := 1, cnt := 1, sum := 0x88, buf := [(0, 0x88)] }

/-- `rxCsum` with an escape marker taken. -/
def rxCsumPair : State := withRx { rxCsum.rx with esc := true }

/-- A buffer of four bytes that is full (V9c's length and one more). -/
def rxFull : State :=
  { withRx { Rx.reset with state := .body, len := 5, cnt := 4 } with cfg := { Cfg.default with rxMaxLen := 4 } }

/-- A frame longer than its buffer, not marked oversize: no run reaches it. -/
def rxBeyond : State :=
  { withRx { Rx.reset with state := .csum, len := 5, cnt := 5, sum := 0x88 } with
    cfg := { Cfg.default with rxMaxLen := 4 } }

/-- TX in vector T2, `SEND(88 13)`, before its second payload byte. -/
def txData : State :=
  withTx { Tx.reset with state := .data, pay := [0x88, 0x13], len := 2, idx := 1, sum := 0x88, sent := 4 }

/-- TX in vector T2, before its first payload byte. -/
def txFirst : State := withTx { Tx.reset with state := .data, pay := [0x88, 0x13], len := 2, sent := 3 }

/-- TX in vector T1, `SEND(81)`, before its checksum byte. -/
def txCsum : State := withTx { Tx.reset with state := .csum, pay := [0x81], len := 1, idx := 1, sum := 0x81, sent := 4 }

/-- TX in vector T2, before its checksum byte, which is not special. -/
def txCsumPlain : State :=
  withTx { Tx.reset with state := .csum, pay := [0x88, 0x13], len := 2, idx := 2, sum := 0x9B, sent := 6 }

/-! ### Ill-formed terms are refused -/

theorem test_wf_plain_special : (Instr.plain 0x7E).wf = false := by decide
theorem test_wf_plain_escape : (Instr.plain 0x7D).wf = false := by decide
theorem test_wf_escAny_canonical : (Instr.escAny 0x5E).wf = false := by decide
theorem test_wf_frame_too_long : (Instr.frame (List.replicate 65536 0x00)).wf = false := by
  simp only [Instr.wf, List.length_replicate]; decide
theorem test_wf_ftOther_listed : (Instr.ftOther 0x88).wf = false := by decide
theorem test_wf_stUnknown_listed : (Instr.stUnknown 0x0D).wf = false := by decide
theorem test_wf_rxSkip_start : (Instr.rxSkip 0x7E).wf = false := by decide
theorem test_wf_rxBodyLit_escape : (Instr.rxBodyLit 0x7D).wf = false := by decide
theorem test_wf_rxCsumLit_escape : (Instr.rxCsumLit 0x7D).wf = false := by decide
theorem test_wf_call_refused :
    refusedAs .illFormed (step { State.reset with env := [.call (.plain 0x7E)] }) = true := by decide

/-! ### Words written out from spec/30_encoding.md -/

theorem test_decode_start : decode .sym8 [0x7E] = .ok .start := rfl
theorem test_decode_esc : decode .sym8 [0x7D] = .ok .esc := rfl
theorem test_decode_xon : decode .sym8 [0x11] = .ok .xon := rfl
theorem test_decode_xoff : decode .sym8 [0x13] = .ok .xoff := rfl
theorem test_decode_plain : decode .sym8 [0x12] = .ok (.plain 0x12) := rfl
theorem test_decode_escStart : decode .esc16 [0x7D, 0x5E] = .ok .escStart := rfl
theorem test_decode_escEsc : decode .esc16 [0x7D, 0x5D] = .ok .escEsc := rfl
theorem test_decode_escXon : decode .esc16 [0x7D, 0x31] = .ok .escXon := rfl
theorem test_decode_escXoff : decode .esc16 [0x7D, 0x33] = .ok .escXoff := rfl
theorem test_decode_escAny : decode .esc16 [0x7D, 0x21] = .ok (.escAny 0x21) := rfl
theorem test_decode_hdr : decode .hdr24 [0x7E, 0x12, 0x34] = .ok (.hdr 0x12 0x34) := rfl
/-- Vector W9. -/
theorem test_decode_frame : decode .frame [0x7E, 0x00, 0x02, 0x88, 0x7D, 0x33, 0x64] = .ok (.frame [0x88, 0x13]) := rfl
theorem test_decode_ft_88 : decode .ftype8 [0x88] = .ok .ftLocalCmdResponse := rfl
theorem test_decode_ft_97 : decode .ftype8 [0x97] = .ok .ftRemoteCmdResponse := rfl
theorem test_decode_ft_92 : decode .ftype8 [0x92] = .ok .ftIoSample := rfl
theorem test_decode_ft_17 : decode .ftype8 [0x17] = .ok .ftRemoteCmdRequest := rfl
theorem test_decode_ft_03 : decode .ftype8 [0x03] = .ok .ftUnmappedExample := rfl
theorem test_decode_ft_other : decode .ftype8 [0x90] = .ok (.ftOther 0x90) := rfl
theorem test_decode_st_00 : decode .status8 [0x00] = .ok .stOk := rfl
theorem test_decode_st_01 : decode .status8 [0x01] = .ok .stError := rfl
theorem test_decode_st_02 : decode .status8 [0x02] = .ok .stInvalidCommand := rfl
theorem test_decode_st_03 : decode .status8 [0x03] = .ok .stInvalidParameter := rfl
theorem test_decode_st_04 : decode .status8 [0x04] = .ok .stTransmissionFailure := rfl
theorem test_decode_st_0B : decode .status8 [0x0B] = .ok .stNoSecureSession := rfl
theorem test_decode_st_0C : decode .status8 [0x0C] = .ok .stEncryptionError := rfl
theorem test_decode_st_0D : decode .status8 [0x0D] = .ok .stSentInsecurely := rfl
theorem test_decode_st_unknown : decode .status8 [0x05] = .ok (.stUnknown 0x05) := rfl

theorem test_decode_rejects_pair : decode .esc16 [0x7E, 0x5E] = .error .notEscape := rfl
theorem test_decode_rejects_header : decode .hdr24 [0x7D, 0x00, 0x01] = .error .notStart := rfl
/-- Vector V7b: a checksum byte one too high. -/
theorem test_decode_rejects_checksum : decode .frame [0x7E, 0x00, 0x01, 0x88, 0x78] = .error .badChecksum := rfl
/-- Vector V4: RX takes this raw 0x7E; the row FRAME does not stand for it. -/
theorem test_decode_rejects_raw_special :
    decode .frame [0x7E, 0x00, 0x02, 0x88, 0x7E, 0xF9] = .error .notCanonical := rfl
theorem test_decode_rejects_short_frame : decode .frame [0x7E, 0x00, 0x02, 0x88, 0x77] = .error .lengthMismatch := rfl
theorem test_decode_rejects_cut_pair : decode .frame [0x7E, 0x00, 0x01, 0x88, 0x7D] = .error .escTruncated := rfl

theorem test_word_sym8 : decodeTableWord 8 0x7E = some .start := by decide
theorem test_word_plain : decodeTableWord 8 0x41 = some (.plain 0x41) := by decide
theorem test_word_esc16 : decodeTableWord 16 0x7D33 = some .escXoff := by decide
theorem test_word_hdr24 : decodeTableWord 24 0x7E000F = some (.hdr 0x00 0x0F) := by decide
/-- Vector W1. -/
theorem test_word_frame : decodeTableWord 40 0x7E00018877 = some (.frame [0x88]) := by decide
theorem test_word_ftype8 : decodeTableWord 8 0x92 = some .ftIoSample := by decide
theorem test_word_status8 : decodeTableWord 8 0x0C = some .stEncryptionError := by decide
theorem test_word_rejects_wide : decodeTableWord 8 0x100 = none := by decide
theorem test_word_runs :
    (nextOf (step (State.reset.withFetchWord 24 0x7E1234))).map (fun t => (t.rx.state, t.rx.len)) =
      some (.body, 0x1234) := by decide

/-! ### One step of each operation -/

theorem test_start : (nextOf (exec .start State.reset)).map (·.rx.state) = some .lenHi := by decide
/-- R161: the escape marker has no meaning in SEEK. -/
theorem test_esc_in_seek : (nextOf (exec .esc State.reset)).map (fun t => (t.rxTrace, t.rx.esc)) =
    some ([0x7D], false) := by decide
theorem test_esc_in_body : (nextOf (exec .esc rxBody)).map (fun t => (t.rx.esc, t.rx.cnt)) = some (true, 1) := by decide
/-- Vector V6c: a raw 0x11 in BODY is data. -/
theorem test_xon : (nextOf (exec .xon rxBody)).map (fun t => (t.rx.state, t.rx.sum)) = some (.csum, 0x99) := by decide
theorem test_xoff : (nextOf (exec .xoff (rxIn .lenHi))).map (·.rx.len) = some 0x1300 := by decide
/-- Vector V1. -/
theorem test_plain : (nextOf (exec (.plain 0x77) rxCsum)).map (fun t => (t.rxEvents, t.rx.state)) =
    some ([.frame 0x88 []], .seek) := by decide
theorem test_escStart : (nextOf (exec .escStart rxBody)).map (·.rx.buf) = some [(0, 0x88), (1, 0x7E)] := by decide
theorem test_escEsc : (nextOf (exec .escEsc rxBody)).map (·.rx.buf) = some [(0, 0x88), (1, 0x7D)] := by decide
theorem test_escXon : (nextOf (exec .escXon rxBody)).map (·.rx.buf) = some [(0, 0x88), (1, 0x11)] := by decide
theorem test_escXoff : (nextOf (exec .escXoff rxBody)).map (·.rx.buf) = some [(0, 0x88), (1, 0x13)] := by decide
/-- Vector V5. -/
theorem test_escAny : (nextOf (exec (.escAny 0x21) rxBody)).map (·.rx.buf) = some [(0, 0x88), (1, 0x01)] := by decide
theorem test_hdr_empty : (nextOf (exec (.hdr 0x00 0x00) State.reset)).map (·.rx.state) = some .csum := by decide
theorem test_hdr_special : (nextOf (exec (.hdr 0x7E 0x7D) State.reset)).map (fun t => (t.rx.state, t.rx.len)) =
    some (.body, 0x7E7D) := by decide
/-- Vector V3. -/
theorem test_frame : (nextOf (exec (.frame [0x88, 0x7E, 0x7D, 0x11, 0x13]) State.reset)).map
    (fun t => (t.rxEvents, t.rx.state, t.rx.sum)) = some ([.frame 0x88 [0x7E, 0x7D, 0x11, 0x13]], .seek, 0xA7) := by
  decide
/-- Source vector S6. -/
theorem test_frame_unknown : (nextOf (exec (.frame [0x03, 0x01, 0x02]) State.reset)).map (·.rxEvents) =
    some [.unknownType 0x03 [0x01, 0x02]] := by decide

theorem test_ftLocalCmdResponse : retOf (exec .ftLocalCmdResponse State.reset) =
    some (.ftype ⟨0x88, .localCmdResponse, .inbound, true⟩) := by decide
theorem test_ftRemoteCmdResponse : retOf (exec .ftRemoteCmdResponse State.reset) =
    some (.ftype ⟨0x97, .remoteCmdResponse, .inbound, true⟩) := by decide
theorem test_ftIoSample : retOf (exec .ftIoSample State.reset) =
    some (.ftype ⟨0x92, .ioSample, .inbound, true⟩) := by decide
theorem test_ftRemoteCmdRequest : retOf (exec .ftRemoteCmdRequest State.reset) =
    some (.ftype ⟨0x17, .remoteCmdRequest, .outbound, true⟩) := by decide
theorem test_ftUnmappedExample : retOf (exec .ftUnmappedExample State.reset) =
    some (.ftype ⟨0x03, .unmapped, .noDirection, false⟩) := by decide
theorem test_ftOther_configured :
    retOf (exec (.ftOther 0x90) { State.reset with cfg := { Cfg.default with typeOpen := 1 <<< 0x90 } }) =
      some (.ftype ⟨0x90, .notGiven, .notGiven, true⟩) := by decide

theorem test_stOk : retOf (exec .stOk State.reset) = some (.statusCode 0x00 .ok .ok) := by decide
theorem test_stError : retOf (exec .stError State.reset) = some (.statusCode 0x01 .error .error) := by decide
theorem test_stInvalidCommand : retOf (exec .stInvalidCommand State.reset) =
    some (.statusCode 0x02 .invalidCommand .invalidCommand) := by decide
theorem test_stInvalidParameter : retOf (exec .stInvalidParameter State.reset) =
    some (.statusCode 0x03 .invalidParameter .invalidParameter) := by decide
theorem test_stTransmissionFailure : retOf (exec .stTransmissionFailure State.reset) =
    some (.statusCode 0x04 (.unknown 0x04) .transmissionFailure) := by decide
theorem test_stNoSecureSession : retOf (exec .stNoSecureSession State.reset) =
    some (.statusCode 0x0B (.unknown 0x0B) .noSecureSession) := by decide
theorem test_stEncryptionError : retOf (exec .stEncryptionError State.reset) =
    some (.statusCode 0x0C (.unknown 0x0C) .encryptionError) := by decide
theorem test_stSentInsecurely : retOf (exec .stSentInsecurely State.reset) =
    some (.statusCode 0x0D (.unknown 0x0D) .sentInsecurely) := by decide
theorem test_stUnknown : retOf (exec (.stUnknown 0xFF) State.reset) =
    some (.statusCode 0xFF (.unknown 0xFF) (.unknown 0xFF)) := by decide

theorem test_rxSkip : (nextOf (exec (.rxSkip 0x00) State.reset)).map (·.rxTrace) = some [0x00] := by decide
theorem test_rxStart : (nextOf (exec .rxStart State.reset)).map (·.rx.state) = some .lenHi := by decide
theorem test_rxStart_not_selected : refusedAs .notSelected (exec .rxStart rxBody) = true := by decide
theorem test_rxLenHi : (nextOf (exec (.rxLenHi 0x7E) (rxIn .lenHi))).map (fun t => (t.rx.len, t.rx.state)) =
    some (0x7E00, .lenLo) := by decide
/-- Vector V9a: 7 bytes for a buffer of 4. -/
theorem test_rxLenLo : (nextOf (exec (.rxLenLo 0x07) { rxIn .lenLo with cfg := { Cfg.default with rxMaxLen := 4 } })).map
    (fun t => (t.rx.len, t.rx.state, t.rx.oversize)) = some (7, .body, true) := by decide
/-- Vector V9c: 4 bytes for a buffer of 4. -/
theorem test_rxLenLo_fits :
    (nextOf (exec (.rxLenLo 0x04) { rxIn .lenLo with cfg := { Cfg.default with rxMaxLen := 4 } })).map
      (fun t => t.rx.oversize) = some false := by decide
theorem test_rxBodyEsc : (nextOf (exec .rxBodyEsc rxBody)).map (fun t => (t.rx.esc, t.rx.cnt)) = some (true, 1) := by
  decide
/-- Vector V4: a raw 0x7E in BODY is data. -/
theorem test_rxBodyLit : (nextOf (exec (.rxBodyLit 0x7E) rxBody)).map (fun t => (t.rx.buf, t.rx.state, t.rx.cnt)) =
    some ([(0, 0x88), (1, 0x7E)], .csum, 2) := by decide
theorem test_rxBodyLit_beyond : faultsAs .bufAddress (exec (.rxBodyLit 0x00) rxFull) = true := by decide
/-- Vector V6: `7D 7D` is one byte, 0x5D. -/
theorem test_rxBodyXor : (nextOf (exec (.rxBodyXor 0x7D) rxBodyPair)).map (fun t => (t.rx.buf, t.rx.esc)) =
    some ([(0, 0x88), (1, 0x5D)], false) := by decide
theorem test_rxCsumEsc : (nextOf (exec .rxCsumEsc rxCsum)).map (·.rx.esc) = some true := by decide
/-- Vector V7b. -/
theorem test_rxCsumLit : (nextOf (exec (.rxCsumLit 0x78) rxCsum)).map (·.rxEvents) =
    some [.checksumErr 1 0x78 0x77] := by decide
/-- Vector V11b: a stop pending at the end of the frame. -/
theorem test_rxCsumLit_stop : (nextOf (exec (.rxCsumLit 0x77) (withRx { rxCsum.rx with stopPending := true }))).map
    (fun t => (t.rxEvents, t.rx.state)) = some ([.frame 0x88 [], .stopped], .stopped) := by decide
/-- Vector V8c: `7D DF` is the checksum 0xFF of an empty frame. -/
theorem test_rxCsumXor :
    (nextOf (exec (.rxCsumXor 0xDF) (withRx { Rx.reset with state := .csum, esc := true }))).map
      (fun t => (t.rxEvents, t.rx.esc)) = some ([.emptyFrame], false) := by decide
/-- Vector V10a. -/
theorem test_rxEosIdle : (nextOf (exec .rxEosIdle State.reset)).map (fun t => (t.rxEvents, t.rx.state, t.rx.cause)) =
    some ([.transportClosed], .dead, 0x0C) := by decide
/-- Vector V10d. -/
theorem test_rxEosLen : (nextOf (exec .rxEosLen (rxIn .lenLo))).map (fun t => (t.rxEvents, t.rx.cause)) =
    some ([.framingErr .eosInLength 1 2], 0x08) := by decide
/-- Vector V10f. -/
theorem test_rxEosFrame : (nextOf (exec .rxEosFrame rxBodyPair)).map
    (fun t => (t.rxEvents, t.rx.state, t.rx.cause, t.rx.esc)) =
      some ([.framingErr .escTruncated 1 2], .dead, 0x0B, true) := by decide
/-- Vector V11a. -/
theorem test_rxStop_seek : (nextOf (exec .rxStop State.reset)).map (fun t => (t.rxEvents, t.rx.state)) =
    some ([.stopped], .stopped) := by decide
theorem test_rxStop_frame : (nextOf (exec .rxStop rxBody)).map (fun t => (t.rxEvents, t.rx.state, t.rx.stopPending)) =
    some ([], .body, true) := by decide
theorem test_rxIgnore : (nextOf (exec (.rxIgnore (.byte 0x7E)) (rxIn .dead))).map (·.rx.state) = some .dead := by decide
/-- R26: an oversize frame's byte is counted and summed, not stored. -/
theorem test_rxAccept : (nextOf (exec (.rxAccept 0x10) (withRx { rxBody.rx with len := 5, oversize := true }))).map
    (fun t => (t.rx.buf, t.rx.cnt, t.rx.sum)) = some ([(0, 0x88)], 2, 0x98) := by decide
/-- Vector V9b: a checksum error outranks oversize. -/
theorem test_rxVerify : (nextOf (exec (.rxVerify 0x70)
    (withRx { Rx.reset with state := .csum, len := 7, cnt := 7, sum := 0x87, oversize := true }))).map (·.rxEvents) =
      some [.checksumErr 7 0x70 0x78] := by decide
/-- Vectors V12 and V11d's first event. -/
theorem test_deframe : retOf (exec (.deframe [0x7D, 0x7E, 0x00, 0x01, 0x88, 0x77, 0x7E, 0x00, 0x01, 0x88, 0x78, 0x7E])
    State.reset) = some (.events [.frame 0x88 [], .checksumErr 1 0x78 0x77]) := by decide

/-- Vector T3. -/
theorem test_txReq_empty : (nextOf (exec (.txReq []) State.reset)).map (fun t => (t.txEvents, t.tx.state)) =
    some ([.txErrEmpty], .idle) := by decide
theorem test_txReq : (nextOf (exec (.txReq [0x81]) State.reset)).map (fun t => (t.tx.state, t.tx.len, t.tx.pay)) =
    some (.start, 1, [0x81]) := by decide
theorem test_txStart : (nextOf (exec .txStart (txIn .start))).map (fun t => (t.txOut, t.tx.sent)) =
    some ([0x7E], 1) := by decide
/-- R216: `tx.len = 0x7E11` sends the raw bytes 7E and 11. -/
theorem test_txLenHi : (nextOf (exec .txLenHi (withTx { Tx.reset with state := .lenHi, len := 0x7E11 }))).map (·.txOut) =
    some [0x7E] := by decide
theorem test_txLenLo : (nextOf (exec .txLenLo (withTx { Tx.reset with state := .lenLo, len := 0x7E11 }))).map
    (fun t => (t.txOut, t.tx.state)) = some ([0x11], .data) := by decide
/-- Vector T2, step 4. -/
theorem test_txData : (nextOf (exec .txData txFirst)).map (fun t => (t.txOut, t.tx.idx, t.tx.sum, t.tx.sent)) =
    some ([0x88], 1, 0x88, 4) := by decide
/-- Vector T2, step 5. -/
theorem test_txDataEsc1 : (nextOf (exec .txDataEsc1 txData)).map (fun t => (t.txOut, t.tx.state, t.tx.sum)) =
    some ([0x7D], .dataEsc, 0x88) := by decide
/-- Vector T2, step 6. -/
theorem test_txDataEsc2 : (nextOf (exec .txDataEsc2 (withTx { txData.tx with state := .dataEsc }))).map
    (fun t => (t.txOut, t.tx.state, t.tx.sum)) = some ([0x33], .csum, 0x9B) := by decide
/-- Vector T1, step 5. -/
theorem test_txCsum_special : (nextOf (exec .txCsum txCsum)).map (fun t => (t.txOut, t.tx.state)) =
    some ([0x7D], .csumEsc) := by decide
/-- Vector T2, step 7. -/
theorem test_txCsum : (nextOf (exec .txCsum txCsumPlain)).map (fun t => (t.txOut, t.tx.state, t.txEvents)) =
    some ([0x64], .idle, [.txDone 2]) := by decide
/-- Vector T1, step 6. -/
theorem test_txCsumEsc2 : (nextOf (exec .txCsumEsc2 (withTx { txCsum.tx with state := .csumEsc }))).map
    (fun t => (t.txOut, t.tx.state, t.txEvents)) = some ([0x5E], .idle, [.txDone 1]) := by decide
/-- Vector T8. -/
theorem test_txFail : (nextOf (exec .txFail (txIn .start))).map (fun t => (t.txOut, t.tx.state, t.tx.cause, t.txEvents)) =
    some ([], .dead, 0x18, [.txErrTransport 0]) := by decide
theorem test_finish : (nextOf (exec .finish txCsumPlain)).map (fun t => (t.tx.state, t.txEvents)) =
    some (.idle, [.txDone 2]) := by decide
/-- Source vector S5. -/
theorem test_txEncode : retOf (exec (.txEncode [0x17, 0x01, 0x00, 0x13, 0xA2, 0x00, 0x40, 0x62, 0xAC, 0x98, 0xFF, 0xFE,
    0x02, 0x44, 0x30]) State.reset) = some (.bytes [0x7E, 0x00, 0x0F, 0x17, 0x01, 0x00, 0x7D, 0x33, 0xA2, 0x00, 0x40,
    0x62, 0xAC, 0x98, 0xFF, 0xFE, 0x02, 0x44, 0x30, 0xD9]) := by decide
/-- Vector W6. -/
theorem test_wire : retOf (exec (.wire [0xEE]) State.reset) = some (.bytes [0x7E, 0x00, 0x01, 0xEE, 0x7D, 0x31]) := by
  decide

/-- Vectors B1 and B2. -/
theorem test_isSpecial : [0x7E, 0x7D, 0x11, 0x13, 0x5E, 0x5D, 0x31, 0x33, 0x7F, 0x7C, 0x10, 0x12, 0x14].map isSpecial =
    [true, true, true, true, false, false, false, false, false, false, false, false, false] := by decide
/-- Vector B3. -/
theorem test_escape : retOf (exec (.escape 0x7D) State.reset) = some (.bytes [0x7D, 0x5D]) := by decide
/-- Vector B6. -/
theorem test_unescape : retOf (exec (.unescape [0x7D, 0x7E, 0x01]) State.reset) =
    some (.unescaped (.byte 0x5E [0x01])) := by decide
/-- Vector B11. -/
theorem test_checksum : retOf (exec (.checksum [0xFF, 0x01]) State.reset) = some (.byte 0xFF) := by decide
/-- Vector B9. -/
theorem test_verify : retOf (exec (.verify [0x88, 0x01, 0x48, 0x56, 0x00, 0x1A, 0x46] 0x78) State.reset) =
    some (.flag true) := by decide
/-- Vector B13. -/
theorem test_lenEncode : retOf (exec (.lenEncode 0x1234) State.reset) = some (.bytes [0x12, 0x34]) := by decide
/-- Vector B14. -/
theorem test_lenDecode : retOf (exec (.lenDecode 0x7E 0x00) State.reset) = some (.num 32256) := by decide
/-- Vector B16. -/
theorem test_stuff : retOf (exec (.stuff [0x7E, 0x7D, 0x11, 0x13]) State.reset) =
    some (.bytes [0x7D, 0x5E, 0x7D, 0x5D, 0x7D, 0x31, 0x7D, 0x33]) := by decide
/-- Vector B17. -/
theorem test_unstuff : retOf (exec (.unstuff [0x01, 0x7D]) State.reset) = some .escTruncated := by decide

/-- Source vector S4. -/
theorem test_decodeLocalResponse : retOf (exec (.decodeLocalResponse [0x01, 0x48, 0x56, 0x00, 0x1A, 0x46]) State.reset) =
    some (.localResponse ⟨0x01, 0x48, 0x56, .ok, [0x1A, 0x46]⟩) := by decide
/-- Vector L2's second instance. -/
theorem test_decodeRemoteResponse : retOf (exec (.decodeRemoteResponse [0x02, 0x00, 0x13, 0xA2, 0x00, 0x40, 0x62, 0xAC,
    0x98, 0x12, 0x34, 0x44, 0x30, 0x04]) State.reset) =
      some (.remoteResponse ⟨0x02, 0x0013A2004062AC98, 0x1234, 0x44, 0x30, .transmissionFailure, []⟩) := by decide
theorem test_decodeStatus : retOf (exec (.decodeStatus .inLocal 0x04) State.reset) =
    some (.status (.unknown 0x04)) := by decide
/-- Vector L3. -/
theorem test_decodeNdRecord : retOf (exec (.decodeNdRecord ⟨0x88, [0x12, 0x34, 0x00, 0x13, 0xA2, 0x00, 0x40, 0x62, 0xAC, 0x98,
    0x48, 0x56, 0x41, 0x43, 0x00, 0xFF, 0xFE, 0x01, 0x00, 0xC1, 0x05, 0x10, 0x1E]⟩) State.reset) =
      some (.ndRecord ⟨0x1234, 0x0013A2004062AC98, [0x48, 0x56, 0x41, 0x43], 0xFFFE, 0x01, 0x00, 0xC105, 0x101E, []⟩) := by
  decide
/-- Vector L3's first failing variant. -/
theorem test_scanIdentifier : retOf (exec (.scanIdentifier ⟨0x88, [0x12, 0x34, 0x00, 0x13, 0xA2, 0x00, 0x40, 0x62, 0xAC, 0x98,
    0x1F, 0x56, 0x00]⟩) State.reset) = some (.layoutError (.ndBadIdentifier 10 0x1F)) := by decide
/-- Vector L4. -/
theorem test_decodeIoSample : retOf (exec (.decodeIoSample [0x00, 0x13, 0xA2, 0x00, 0x40, 0x62, 0xAC, 0x98, 0x12, 0x34,
    0x01, 0x01, 0x00, 0x14, 0x05, 0x00, 0x10, 0x02, 0x00, 0x03, 0xFF]) State.reset) =
      some (.ioSample ⟨0x0013A2004062AC98, 0x1234, 0x01, 0x01, 0x0014, 0x05, some 0x0010,
        [(0, 0x0200), (2, 0x03FF)], []⟩) := by decide
/-- Vector L1. -/
theorem test_numDecode : retOf (exec (.numDecode .two ⟨0x88, [0x1A, 0x46]⟩) State.reset) = some (.number 6726 []) := by decide
theorem test_atreq : retOf (exec (.atreq (.code 0x08) 0x01 0x44 0x30 [0x05]) State.reset) =
    some (.bytes [0x08, 0x01, 0x44, 0x30, 0x05]) := by decide
/-- Source vector S5's payload. -/
theorem test_ratreq : retOf (exec (.ratreq 0x01 0x0013A2004062AC98 0xFFFE 0x02 0x44 0x30 []) State.reset) =
    some (.bytes [0x17, 0x01, 0x00, 0x13, 0xA2, 0x00, 0x40, 0x62, 0xAC, 0x98, 0xFF, 0xFE, 0x02, 0x44, 0x30]) := by decide
/-- Vector F1's first call. -/
theorem test_fidNext : retOf (exec .fidNext State.reset) = some (.byte 0x02) := by decide
/-- Vector F1's third configuration. -/
theorem test_fidNext_default :
    retOf (exec .fidNext (setFid 0x7F { State.reset with cfg := { Cfg.default with fidDefault := 0x80 } })) =
      some (.byte 0x81) := by decide

/-! ### Witnesses: a state and operands for the hypotheses of each statement, clause by clause -/

/-- RX inside a frame and TX inside another: the registers and outputs of V10e and T2, together. -/
def busy : State := { txData with rx := rxBody.rx, txOut := [0x7E, 0x00, 0x02, 0x88] }

theorem busy_rxInv : RxInv busy.cfg busy.rx where
  body := by decide
  csum := by decide
  esc := by decide
  dead := by decide
  cause := by decide
  stopped := by decide
  oversize := by decide
  fits := by decide
  lens := by decide
  stored := by
    intro _ _ a h
    have h0 : a = 0 := by
      change a < 1 at h
      omega
    subst h0
    rfl
  sum := by intro _ _; rfl
  bufWf := by decide
  bufRange := by decide

theorem busy_txInv : TxInv busy.cfg busy.tx where
  payLen := by decide
  lenPos := by decide
  lenMax := by decide
  header := by decide
  data := by decide
  csum := by decide
  sum := by decide
  dataEsc := by decide
  csumEsc := by decide
  dead := by decide
  cause := by decide
  sent := by decide

theorem busy_inv : Inv busy where
  cfg := by decide
  rx := busy_rxInv
  tx := busy_txInv
  wire := fun _ => ⟨[], rfl⟩
  fid := ⟨by decide, by decide⟩

theorem witness_DecodeOfEncode :
    (Instr.frame [0x13]).wf = true ∧ (Instr.frame [0x13]).format.hasBits = true ∧
      (Instr.escAny 0x21).wf = true ∧ (Instr.ftOther 0x90).wf = true ∧ (Instr.stUnknown 0x05).wf = true := by decide

theorem witness_EncodeOfDecode : decode .esc16 [0x7D, 0x21] = .ok (.escAny 0x21) := rfl

theorem witness_StuffingLaws :
    (stuff [0x01, 0x13])[1]? = some 0x7D ∧ unstuff [0x7E] = some [0x7E] ∧ (0x7E : Byte) ∈ [(0x7E : Byte)] ∧
      unstuff [0x11] = some [0x11] ∧ unstuff [0x13] = some [0x13] := by decide

theorem witness_ChecksumDetectsOneByte : ([0x88] : List Byte)[0] ≠ 0x89 := by decide

theorem witness_EscapeFunctionsReturn : (0x7E : Byte) ≠ 0x7D := by decide

theorem witness_StuffFunctionsReturn :
    unstuff [0x7D, 0x33] = some [0x13] ∧ unstuff [0x01, 0x7D] = none ∧
      unescape [0x7D, 0x33, 0xA2] = .byte 0x13 [0xA2] ∧ unescape [0x7D] = .escTruncated := by decide

theorem witness_WholeFrameFunctionsReturn :
    1 ≤ ([0x88] : List Byte).length ∧ (List.replicate 65535 (0x00 : Byte)).length ≤ 65535 := by
  simp only [List.length_replicate]; decide

theorem witness_RxSkip : State.reset.rx.state = .seek ∧ (0x7D : Byte) ≠ 0x7E := by decide

theorem witness_RxStart : State.reset.rx.state = .seek := rfl

theorem witness_RxLenHi : (rxIn .lenHi).rx.state = .lenHi := rfl

theorem witness_RxLenLo :
    (rxIn .lenLo).rx.state = .lenLo ∧
      (0 : Len) = BitVec.ofNat 16 ((rxIn .lenLo).rx.len.toNat / 256 * 256 + (0x00 : Byte).toNat) ∧
      (255 : Len) = BitVec.ofNat 16 ((rxIn .lenLo).rx.len.toNat / 256 * 256 + (0xFF : Byte).toNat) := by decide

theorem witness_RxEscapeMarker :
    rxBody.rx.esc = false ∧ rxBody.rx.state = .body ∧ rxCsum.rx.esc = false ∧ rxCsum.rx.state = .csum := by decide

/-- The last byte of a frame and the last entry of a buffer, among them. -/
theorem witness_RxBody_fits :
    rxBody.rx.state = .body ∧ rxBodyPair.rx.state = .body ∧ StoreFits rxBody ∧ StoreFits rxBodyPair ∧
      rxBody.rx.esc = false ∧ (0x7E : Byte) ≠ 0x7D ∧ rxBodyPair.rx.esc = true ∧ rxBody.rx.cnt < rxBody.rx.len ∧
      StoreFits { rxBody with cfg := { Cfg.default with rxMaxLen := 2 } } := by
  unfold StoreFits
  decide

theorem witness_RxBody_full :
    rxFull.rx.state = .body ∧ ¬ StoreFits rxFull ∧ rxFull.rx.esc = false ∧ (0x7E : Byte) ≠ 0x7D ∧
      rxFull.rx.cnt < rxFull.rx.len ∧ ¬ StoreFits { rxFull with rx := { rxFull.rx with esc := true } } := by
  unfold StoreFits
  decide

theorem witness_RxChecksum_fits :
    rxCsum.rx.state = .csum ∧ rxCsumPair.rx.state = .csum ∧ ReadFits rxCsum ∧ ReadFits rxCsumPair ∧
      rxCsum.rx.esc = false ∧ (0x77 : Byte) ≠ 0x7D ∧ rxCsumPair.rx.esc = true ∧ rxCsum.rx.cnt = rxCsum.rx.len ∧
      ReadFits { rxCsum with cfg := { Cfg.default with rxMaxLen := 1 } } := by
  unfold ReadFits
  decide

theorem witness_RxChecksum_beyond :
    rxBeyond.rx.state = .csum ∧ ¬ ReadFits rxBeyond ∧ rxBeyond.rx.len ≠ 0 ∧ rxBeyond.rx.esc = false ∧
      (0x77 : Byte) ≠ 0x7D ∧ rxBeyond.rx.sum + 0x77 = 0xFF ∧ rxBeyond.rx.cnt = rxBeyond.rx.len ∧
      ¬ ReadFits { rxBeyond with rx := { rxBeyond.rx with esc := true } } ∧
      rxBeyond.rx.sum + (0x57 ^^^ 0x20) = 0xFF := by
  unfold ReadFits
  decide

theorem witness_RxEndOfStream :
    State.reset.rx.state = .seek ∧ (rxIn .lenHi).rx.state = .lenHi ∧ (rxIn .lenLo).rx.state = .lenLo ∧
      rxBodyPair.rx.state = .body ∧ rxBodyPair.rx.esc = true ∧ rxCsumPair.rx.state = .csum ∧
      rxCsumPair.rx.esc = true ∧ rxBody.rx.state = .body ∧ rxBody.rx.esc = false ∧ rxCsum.rx.state = .csum ∧
      rxCsum.rx.esc = false := by decide

theorem witness_RxStopAndIgnore :
    State.reset.rx.state = .seek ∧ rxBody.rx.state.inFrame = true ∧ (rxIn .stopped).rx.state = .stopped ∧
      (rxIn .dead).rx.state = .dead := by decide

theorem witness_ExactlyOneRxStep :
    symbolOf (.rxSkip 0x00) = some (.byte 0x00) ∧ .rxSkip 0x00 = selectRx State.reset.rx (.byte 0x00) ∧
      symbolOf (.rxLenHi 0x00) = some (.byte 0x00) ∧ .rxLenHi 0x00 ≠ selectRx State.reset.rx (.byte 0x00) := by decide

theorem witness_RawByteRows :
    (Instr.plain 0x77).wf = true ∧ (Instr.plain 0x77).format ∈ [Format.sym8, .esc16, .hdr24, .frame] ∧
      (Instr.frame []).wf = true ∧ (Instr.frame []).format ∈ [Format.sym8, .esc16, .hdr24, .frame] ∧
      (∃ t, exec (selectRx State.reset.rx (.byte 0x7E)) State.reset = .next t) ∧
      exec (selectRx rxFull.rx (.byte 0x00)) rxFull = .fault .bufAddress :=
  ⟨by decide, by decide, by decide, by decide, ⟨_, rfl⟩, rfl⟩

theorem witness_RowsOfRawBytes :
    Instr.hdr 0x00 0x01 ∈ [.start, .esc, .xon, .xoff, .plain 0x00, .escStart, .escEsc, .escXon, .escXoff,
      .escAny 0x00, .hdr 0x00 0x01, .frame []] ∧ RxInv busy.cfg busy.rx := ⟨by decide, busy_rxInv⟩

theorem witness_EscapePair :
    (Instr.escXoff, (0x13 : Byte)) ∈ ([(.escStart, 0x7E), (.escEsc, 0x7D), (.escXon, 0x11), (.escXoff, 0x13),
      (.escAny 0x21, 0x21 ^^^ 0x20)] : List (Instr × Byte)) ∧ rxBody.rx.esc = false ∧ rxBody.rx.state = .body ∧
      StoreFits rxBody ∧ rxCsum.rx.esc = false ∧ rxCsum.rx.state = .csum ∧ ReadFits rxCsum := by
  unfold StoreFits ReadFits
  decide

theorem witness_HeaderSetsTheLength :
    State.reset.rx.state = .seek ∧ (0 : Len) = BitVec.ofNat 16 ((0x00 : Byte).toNat * 256 + (0x00 : Byte).toNat) ∧
      (65535 : Len) = BitVec.ofNat 16 ((0xFF : Byte).toNat * 256 + (0xFF : Byte).toNat) := by decide

/-- A frame of two bytes with a pair and one left to read, one read whole, an empty one, and one longer than a buffer of
four bytes. -/
theorem witness_RunningSum :
    (rxIn .lenLo).rx.state = .lenLo ∧ unstuff [0x7D, 0x33] = some [0x13] ∧
      (2 : Len) = BitVec.ofNat 16 ((rxIn .lenLo).rx.len.toNat / 256 * 256 + (0x02 : Byte).toNat) ∧
      ([0x13] : List Byte).length ≤ (2 : Len).toNat ∧ ([0x13, 0x13] : List Byte).length ≤ (2 : Len).toNat ∧
      (0 : Len) = BitVec.ofNat 16 ((rxIn .lenLo).rx.len.toNat / 256 * 256 + (0x00 : Byte).toNat) ∧
      unstuff [] = some [] ∧ ([] : List Byte).length ≤ (0 : Len).toNat ∧ rxFull.cfg.rxMaxLen < (5 : Len) := by decide

/-- A frame of the buffer's whole capacity, among them. -/
theorem witness_FrameDelivers :
    State.reset.rx.state = .seek ∧ State.reset.rx.stopPending = false ∧
      ([0x88] : List Byte).length ≤ State.reset.cfg.rxMaxLen.toNat ∧
      (0x88 :: List.replicate 65534 (0x00 : Byte)).length ≤ State.reset.cfg.rxMaxLen.toNat := by
  simp only [List.length_cons, List.length_replicate]; decide

theorem witness_StreamGives : State.reset.rx.state = .seek ∧ State.reset.rx.stopPending = false := by decide

theorem witness_OneEvent_inside :
    rxBody.rx.state.inFrame = true ∧ ∃ t, rxSymbol (.byte 0x01) rxBody = .next t ∧ t.rx.state.inFrame = true :=
  ⟨rfl, _, rfl, rfl⟩

theorem witness_OneEvent_end :
    rxCsum.rx.state.inFrame = true ∧ ∃ t, rxSymbol (.byte 0x78) rxCsum = .next t ∧ t.rx.state.inFrame = false :=
  ⟨rfl, _, rfl, rfl⟩

theorem witness_ErrorEvents_fatal :
    ∃ t, rxSymbol .eos rxBody = .next t ∧ t.rxEvents = rxBody.rxEvents ++ [.framingErr .eosInBody 1 2] ∧
      (Event.framingErr .eosInBody 1 2).cls = .fatal := ⟨_, rfl, rfl, rfl⟩

theorem witness_ErrorEvents_recoverable :
    ∃ t, rxSymbol (.byte 0x78) rxCsum = .next t ∧ t.rxEvents = rxCsum.rxEvents ++ [.checksumErr 1 0x78 0x77] ∧
      (Event.checksumErr 1 0x78 0x77).cls = .recoverable := ⟨_, rfl, rfl, rfl⟩

/-- With requests of 4 and 5 bytes where TX_MAX_LEN is 4 (vectors T4 and T5). -/
theorem witness_TxRequest :
    busy.tx.state.sending = true ∧ (txIn .dead).tx.state = .dead ∧ State.reset.tx.state = .idle ∧
      ([0x88] : List Byte) ≠ [] ∧
      { Cfg.default with txMaxLen := 4 }.txMaxLen.toNat < ([0x01, 0x02, 0x03, 0x04, 0x05] : List Byte).length ∧
      ([0x88, 0x02, 0x03, 0x04] : List Byte).length ≤ { Cfg.default with txMaxLen := 4 }.txMaxLen.toNat := by decide

theorem witness_TxHeader :
    (txIn .start).tx.state = .start ∧ (txIn .lenHi).tx.state = .lenHi ∧ (txIn .lenLo).tx.state = .lenLo := by decide

theorem witness_TxPayload :
    txFirst.tx.pay[txFirst.tx.idx.toNat]? = some 0x88 ∧ txFirst.tx.state = .data ∧ isSpecial 0x88 = false ∧
      txData.tx.pay[txData.tx.idx.toNat]? = some 0x13 ∧ txData.tx.state = .data ∧ isSpecial 0x13 = true ∧
      (txIn .data).tx.pay[(txIn .data).tx.idx.toNat]? = none ∧ (txIn .data).tx.state = .data ∧
      (txIn .dataEsc).tx.pay[(txIn .dataEsc).tx.idx.toNat]? = none ∧ (txIn .dataEsc).tx.state = .dataEsc := by decide

theorem witness_TxChecksum :
    (0x7E : Byte) = 0xFF - txCsum.tx.sum ∧ txCsum.tx.state = .csum ∧ isSpecial 0x7E = true ∧
      (0x64 : Byte) = 0xFF - txCsumPlain.tx.sum ∧ txCsumPlain.tx.state = .csum ∧ isSpecial 0x64 = false ∧
      (txIn .csumEsc).tx.state = .csumEsc := by decide

theorem witness_TxSinkFailure : busy.tx.state.sending = true := rfl

theorem witness_ExactlyOneTxByteStep :
    TxInv busy.cfg busy.tx ∧ Instr.txDataEsc1 ∈ byteSteps ∧ selectTx busy.tx true = some .txDataEsc1 ∧
      Instr.txData ∈ byteSteps ∧ selectTx busy.tx true ≠ some .txData ∧ busy.tx.state.sending = true ∧
      State.reset.tx.state.sending = false := ⟨busy_txInv, by decide⟩

theorem txEncode_81 : txEncode [0x81] = [0x7E, 0x00, 0x01, 0x81, 0x7D, 0x5E] := by decide

theorem witness_TxSends :
    State.reset.tx.state = .idle ∧ 1 ≤ ([0x81] : List Byte).length ∧
      ([0x81] : List Byte).length ≤ State.reset.cfg.txMaxLen.toNat ∧
      (setEnv (.send [0x81] :: List.replicate 6 (.answer true)) State.reset).env =
        .send [0x81] :: List.replicate (txEncode [0x81]).length (.answer true) ++ [] := by
  rw [txEncode_81]; decide

theorem witness_OneCompletion :
    isTxOp (.txReq [0x88]) = true ∧ (∃ t, exec (.txReq [0x88]) State.reset = .next t) ∧
      isTxOp .txFail = true ∧ ∃ t, exec .txFail busy = .next t := ⟨rfl, ⟨_, rfl⟩, rfl, _, rfl⟩

theorem witness_Procedures :
    ¬ (State.reset.rx.state = .body ∧ State.reset.rx.cnt < State.reset.rx.len) ∧
      ¬ (State.reset.rx.state = .csum ∧ State.reset.rx.cnt = State.reset.rx.len) ∧
      ¬ (State.reset.tx.state = .csumEsc ∨
        State.reset.tx.state = .csum ∧ isSpecial (0xFF - State.reset.tx.sum) = false) ∧
      ¬ (txCsum.tx.state = .csumEsc ∨ txCsum.tx.state = .csum ∧ isSpecial (0xFF - txCsum.tx.sum) = false) := by decide

theorem witness_AgentsShareNoState :
    isRxOp .rxBodyEsc = true ∧ (∃ t, exec .rxBodyEsc busy = .next t) ∧ isTxOp .txDataEsc1 = true ∧
      ∃ t, exec .txDataEsc1 busy = .next t := ⟨rfl, ⟨_, rfl⟩, rfl, _, rfl⟩

theorem witness_AgentsCommute :
    isRxOp .rxBodyEsc = true ∧ isTxOp .txDataEsc1 = true ∧ (∃ t, exec .rxBodyEsc busy = .next t) ∧
      ∃ t, exec .txDataEsc1 busy = .next t := ⟨rfl, rfl, ⟨_, rfl⟩, _, rfl⟩

theorem witness_OutputsOnlyGrow :
    (∃ t, step (setEnv [.answer true] busy) = .next t) ∧ (setEnv [.answer true] busy).env.head? ≠ some .reset :=
  ⟨⟨_, rfl⟩, by decide⟩

theorem witness_OnlyReset :
    (∃ t, step (setEnv [.word .sym8 [0x7E]] (rxIn .dead)) = .next t) ∧ (rxIn .dead).rx.state = .dead ∧
      (rxIn .stopped).rx.state = .stopped ∧ (∃ t, step (setEnv [.send [0x88]] (txIn .dead)) = .next t) ∧
      (txIn .dead).tx.state = .dead ∧ (withRx { rxBody.rx with stopPending := true }).rx.stopPending = true :=
  ⟨⟨_, rfl⟩, rfl, rfl, ⟨_, rfl⟩, rfl, rfl⟩

theorem witness_FrameTypeRows : (Instr.ftOther 0x90).wf = true := by decide

theorem witness_StatusRows : (Instr.stUnknown 0x05).wf = true := by decide

theorem witness_LocalResponse : ([0x01, 0x48, 0x56] : List Byte).length < 4 := by decide

theorem witness_RemoteResponse : (List.replicate 13 (0x00 : Byte)).length < 14 := by decide

/-- An identifier at both ends of the printable range; bad bytes just outside it; lengths 18 and 19; a record one byte
short of its last field, and one of no bytes. -/
theorem witness_NodeDiscovery :
    (∀ c ∈ ([0x20, 0x7E] : List Byte), 32 ≤ c ∧ c ≤ 126) ∧ (0x1F : Byte) ≠ 0x00 ∧ (0x1F : Byte) < 32 ∧
      (0x7F : Byte) ≠ 0x00 ∧ 126 < (0x7F : Byte) ∧ (List.replicate 18 (0x00 : Byte)).length < 19 ∧
      19 ≤ (be16Bytes 0 ++ be64Bytes 0 ++ [0x20, 0x7E] ++ [0x00] ++ List.replicate 7 (0x00 : Byte)).length ∧
      (List.replicate 7 (0x00 : Byte)).length < 8 ∧
      19 ≤ (be16Bytes 0 ++ be64Bytes 0 ++ List.replicate 9 (0x41 : Byte)).length ∧
      ([] : List Byte).length < 10 := by decide

/-- The frames of L1, of a remote response, of an IO sample and of a known type without a layout, delivered, and the
registry asked for each. -/
def delivered (c : Cfg) (k : Nat) : State :=
  { State.reset with
    cfg := c, env := [.registry k]
    rxEvents := [.frame 0x88 [0x01, 0x48, 0x56, 0x00, 0x1A, 0x46],
      .frame 0x97 (0x02 :: List.replicate 10 0x00 ++ [0x44, 0x30, 0x00, 0x05]), .frame 0x92 (List.replicate 15 0x00),
      .frame 0x17 [0x01], .emptyFrame, .frame 0x88 [0x01, 0x4E, 0x44, 0x00], .frame 0x97 [0x01],
      .frame 0x88 [0x03, 0x4E, 0x44, 0x00, 0x12, 0x34, 0x00, 0x13, 0xA2, 0x00, 0x40, 0x62, 0xAC, 0x98, 0x48, 0x56,
        0x41, 0x43, 0x00, 0xFF, 0xFE, 0x01, 0x00, 0xC1, 0x05, 0x10, 0x1E]] }

/-- A catalogue with two numeric commands and a text, and an encoder for one command of either request. -/
def catalogue : Cfg :=
  { Cfg.default with
    registry := [⟨0x88, 0x48, 0x56, .number .two⟩, ⟨0x97, 0x44, 0x30, .number .one⟩, ⟨0x88, 0x4E, 0x49, .text⟩]
    encoders := [⟨0x17, 0x44, 0x30, .number .one⟩, ⟨0x08, 0x49, 0x44, .number .two⟩] }

/-- The registry asked to encode a request. -/
def asked (r : CmdRequest) : State := { State.reset with cfg := catalogue, env := [.encode r] }

/-- Vector S5's request: the query of `D0` to the address `0013A200.4062AC98`. -/
def queryD0 : CmdRequest := ⟨.remoteNode 0x0013A2004062AC98 0xFFFE 0x02, 0x01, 0x44, 0x30, none⟩

theorem test_registry_query : retOf (step (asked queryD0)) = some (.bytes
    [0x17, 0x01, 0x00, 0x13, 0xA2, 0x00, 0x40, 0x62, 0xAC, 0x98, 0xFF, 0xFE, 0x02, 0x44, 0x30]) := by decide
/-- A sixteen-bit number, most significant byte first (R251, R260). -/
theorem test_registry_number : retOf (step (asked ⟨.localNode .atReqType, 0x05, 0x49, 0x44, some (.number 0x1A46 [])⟩)) =
    some (.bytes [0x08, 0x05, 0x49, 0x44, 0x1A, 0x46]) := by decide
/-- A text up to its terminator, and one that the end of the payload ends; a byte that is not printable (R257). -/
theorem test_registry_text :
    readText [0x48, 0x56, 0x00, 0x01] = .ok ([0x48, 0x56], [0x00, 0x01]) ∧
      readText [0x48, 0x56] = .ok ([0x48, 0x56], []) ∧
      readText [0x48, 0x1F] = .error (.ndBadIdentifier 1 0x1F) := ⟨rfl, rfl, rfl⟩

/-- L1's command is in no catalogue: its payload stays the bytes. -/
theorem test_registry_opaque : retOf (step (delivered Cfg.default 0)) =
    some (.localCommand ⟨0x01, 0x48, 0x56, .ok, [0x1A, 0x46]⟩ (.bytes [0x1A, 0x46])) := by decide
/-- Vector L3, carried as the command payload of a response to `ND`. -/
theorem test_registry_nd : (retOf (step (delivered Cfg.default 7))).map (fun r =>
    match r with
    | .localCommand _ p => p
    | _ => .bytes []) = some (.ndRecord
      ⟨0x1234, 0x0013A2004062AC98, [0x48, 0x56, 0x41, 0x43], 0xFFFE, 0x01, 0x00, 0xC105, 0x101E, []⟩) := by decide

theorem witness_Registry :
    (delivered catalogue 0).env = .registry 0 :: [] ∧
      (delivered catalogue 0).rxEvents[0]? = some (.frame 0x88 ([0x01, 0x48, 0x56, 0x00] ++ [0x1A, 0x46])) ∧
      commandDecoder catalogue 0x88 0x48 0x56 = .number .two ∧
      retOf (exec (.numDecode .two ⟨0x88, [0x1A, 0x46]⟩) (delivered catalogue 0)) = some (.number 6726 []) ∧
      retOf (exec (.numDecode .two ⟨0x88, []⟩) (delivered catalogue 0)) = some (.layoutError (.truncated 0x88 0 2)) ∧
      retOf (exec (.decodeNdRecord ⟨0x88, []⟩) (delivered catalogue 0)) = some (.layoutError (.truncated 0x88 0 19)) ∧
      commandDecoder Cfg.default 0x88 0x48 0x56 = .opaqueBytes ∧ commandDecoder Cfg.default 0x97 0x4E 0x44 = .ndRecord ∧
      commandDecoder catalogue 0x97 0x44 0x30 = .number .one ∧ commandDecoder catalogue 0x88 0x4E 0x49 = .text ∧
      (∀ c ∈ ([0x20, 0x7E] : List Byte), 32 ≤ c ∧ c ≤ 126) ∧ ([] : List Byte).headD 0x00 = 0x00 ∧
      ([0x00, 0x01] : List Byte).headD 0x00 = 0x00 ∧ (0x1F : Byte) ≠ 0x00 ∧ (0x1F : Byte) < 32 ∧
      retOf (exec (.decodeRemoteResponse (0x02 :: List.replicate 10 0x00 ++ [0x44, 0x30, 0x00, 0x05]))
        (delivered catalogue 1)) = some (.remoteResponse ⟨0x02, 0, 0, 0x44, 0x30, .ok, [0x05]⟩) ∧
      retOf (exec (.decodeLocalResponse [0x01]) State.reset) = some (.layoutError (.truncated 0x88 2 5)) ∧
      retOf (exec (.decodeRemoteResponse [0x01]) State.reset) = some (.layoutError (.truncated 0x97 2 15)) ∧
      (retOf (exec (.decodeIoSample (List.replicate 15 0x00)) State.reset)).isSome = true ∧
      (0x17 : Byte) ≠ 0x88 ∧ (0x17 : Byte) ≠ 0x97 ∧ (0x17 : Byte) ≠ 0x92 := by decide

/-- With all masks clear, and with all set; a payload one byte short in each. -/
theorem witness_IoSample :
    ([] : List Nat) = (List.range 8).filter (fun k => (0x00 : Byte).getLsbD k) ∧
      16 = 16 + (if (0 : BitVec 16) ≠ 0 then 2 else 0) + 2 * ([] : List Nat).length ∧
      [0, 1, 2, 3, 4, 5, 6, 7] = (List.range 8).filter (fun k => (0xFF : Byte).getLsbD k) ∧
      34 = 16 + (if (1 : BitVec 16) ≠ 0 then 2 else 0) + 2 * [0, 1, 2, 3, 4, 5, 6, 7].length ∧
      (List.replicate 8 (0 : BitVec 16)).length = [0, 1, 2, 3, 4, 5, 6, 7].length ∧
      (List.replicate 14 (0x00 : Byte)).length < 15 ∧ 16 + (List.replicate 17 (0x00 : Byte)).length < 34 := by decide

theorem witness_Numeric : ([0x00, 0x01, 0x02] : List Byte).length < widthBytes .four := by decide

theorem witness_RegistryEncodes :
    (asked queryD0).env = .encode queryD0 :: [] ∧ queryD0.value = none ∧
      commandEncoder catalogue 0x17 0x44 0x30 = .number .one ∧
      readCommand 0x97 (.number .one) [0x05] = .ok (.number 5 []) ∧
      commandEncoder catalogue 0x08 0x41 0x50 = .opaqueBytes ∧
      retOf (exec (.atreq .atReqType 0x05 0x49 0x44 [0x1A, 0x46]) (asked queryD0)) =
        some (.bytes [0x08, 0x05, 0x49, 0x44, 0x1A, 0x46]) := ⟨rfl, rfl, rfl, rfl, rfl, rfl⟩

theorem witness_Requests :
    ([0x01, 0x02, 0x03, 0x04] : List Byte).length ≤ 4 ∧ 4 < ([0x01, 0x02, 0x03, 0x04, 0x05] : List Byte).length := by
  decide

theorem witness_FrameIdNext :
    (0x01 : Byte) = (if State.reset.fidLast = 0xFF then 0x01 else State.reset.fidLast + 1) ∧
      (0x02 : Byte) = (if (0x01 : Byte) = 0xFF then 0x01 else 0x01 + 1) := by decide

theorem witness_FrameIdsCycle :
    (0x01 : Byte) ≠ 0 ∧ (0x02 : Byte) ≠ 0 ∧ (0x02 : Byte) ≠ 0x01 ∧
      fidNext 0x01 0x02 = fidNext 0x01 0x02 ∧ (0x02 : Byte) ≠ fidMax 0x01 ∧ (0x03 : Byte) ≠ 0x01 ∧
      (0x02 : Byte) < 0x03 := by decide

theorem witness_StepRuns :
    (setEnv [.word .sym8 [0x7E]] State.reset).env = .word .sym8 [0x7E] :: [] ∧ decode .sym8 [0x7E] = .ok .start ∧
      decode .frame [0x7E] = .error .wrongLength ∧ (setWaiting [[0x88]] State.reset).waiting[0]? = some [0x88] ∧
      State.reset.tx.state.sending = false ∧ selectTx busy.tx false = some .txFail ∧
      selectTx busy.tx true = some .txDataEsc1 ∧ Instr.fidNext.wf = true ∧ (Instr.plain 0x7E).wf = false := by
  refine ⟨rfl, rfl, rfl, rfl, rfl, rfl, rfl, rfl, rfl⟩

theorem witness_StepWaits :
    State.reset.env = [] ∧ (delivered Cfg.default 4).env = .registry 4 :: [] ∧
      (∀ ft data, (delivered Cfg.default 4).rxEvents[4]? ≠ some (.frame ft data)) ∧ busy.tx.state.sending = true ∧ State.reset.waiting[0]? = none ∧
      (setEnv [.take 0] busy).env = .take 0 :: [] ∧ (setEnv [.answer true] State.reset).env = .answer true :: [] ∧
      State.reset.tx.state.sending = false :=
  ⟨by decide, by decide, by intro _ _ h; exact Event.noConfusion (Option.some.inj h), by decide⟩

theorem witness_ResetInput : (setEnv [.reset] busy).env = .reset :: [] := rfl

theorem witness_InvariantHoldsAtReset :
    Cfg.default.wf = true ∧ { Cfg.default with rxMaxLen := 1, txMaxLen := 1, fidDefault := 0xFF }.wf = true := by decide

theorem witness_StepKeepsTheInvariant :
    Inv (setEnv [.answer true] busy) ∧ ∃ t, step (setEnv [.answer true] busy) = .next t :=
  ⟨⟨by decide, busy_rxInv, busy_txInv, fun _ => ⟨[], rfl⟩, by decide, by decide⟩, _, rfl⟩

theorem witness_StepAlwaysCompletes :
    Inv (setEnv [.answer true, .word .sym8 [0x7D], .call .fidNext] busy) ∧
      EnvOk (setEnv [.answer true, .word .sym8 [0x7D], .call .fidNext] busy) :=
  ⟨⟨by decide, busy_rxInv, busy_txInv, fun _ => ⟨[], rfl⟩, by decide, by decide⟩, by
    intro st h
    simp only [setEnv_env, List.mem_cons, List.not_mem_nil, or_false] at h
    rcases h with rfl | rfl | rfl <;> rfl⟩

theorem witness_BufferLaws : bufWf [(0, 0x88), (3, 0x01)] = true ∧ (1 : Nat) ≠ 0 := by decide

end Sys2Proof.Tests
end

section
/-! What an operation by name does, by the agent it belongs to: an RX step is the step of RX on the symbol it consumes,
a row of raw bytes is its bytes fed in order, and every other row returns a function's result. -/

open Sys2Proof.Statements

namespace Sys2Proof.Machine

/-! ### The RX steps by name -/

theorem onlyIf_of_not {sel : Bool} (h : ¬ sel = true) (o : Res) : onlyIf sel o = .refused .notSelected := by
  rw [Bool.eq_false_iff.mpr h, onlyIf_false]

theorem exec_selectRx_byte_body {s : State} (hst : s.rx.state = .body) (b : Byte) :
    exec (selectRx s.rx (.byte b)) s = opBodyByte b s := by
  cases he : s.rx.esc
  · by_cases hb : b = escByte
    · simp [selectRx, opBodyByte, exec, execRxBodyEsc, hst, he, hb]
    · simp [selectRx, opBodyByte, exec, execRxBodyLit, hst, he, hb, bne_iff_ne.mpr hb]
  · simp [selectRx, opBodyByte, exec, execRxBodyXor, hst, he]

theorem exec_selectRx_byte_csum {s : State} (hst : s.rx.state = .csum) (b : Byte) :
    exec (selectRx s.rx (.byte b)) s = opCsumByte b s := by
  cases he : s.rx.esc
  · by_cases hb : b = escByte
    · simp [selectRx, opCsumByte, exec, execRxCsumEsc, hst, he, hb]
    · simp [selectRx, opCsumByte, exec, execRxCsumLit, hst, he, hb, bne_iff_ne.mpr hb]
  · simp [selectRx, opCsumByte, exec, execRxCsumXor, hst, he]

theorem exec_selectRx_byte_seek {s : State} (hst : s.rx.state = .seek) (b : Byte) :
    exec (selectRx s.rx (.byte b)) s = if b = startByte then opStart s else opSkip b s := by
  by_cases hb : b = startByte
  · simp [selectRx, exec, execRxStart, hst, hb]
  · simp [selectRx, exec, execRxSkip, hst, hb, bne_iff_ne.mpr hb]

/-- R160: the step selected does what RX does on the symbol. -/
theorem exec_selectRx (s : State) (sym : Symbol) : exec (selectRx s.rx sym) s = rxSymbol sym s := by
  unfold rxSymbol
  cases hst : s.rx.state with
  | seek =>
    cases sym with
    | byte b => exact exec_selectRx_byte_seek hst b
    | eos => simp [selectRx, exec, execRxEosIdle, hst]
    | stop => simp [selectRx, exec, execRxStop, hst]
  | lenHi => cases sym <;> simp [selectRx, exec, execRxLenHi, execRxEosLen, execRxStop, hst, RxSeq.inFrame]
  | lenLo => cases sym <;> simp [selectRx, exec, execRxLenLo, execRxEosLen, execRxStop, hst, RxSeq.inFrame]
  | body =>
    cases sym with
    | byte b => exact exec_selectRx_byte_body hst b
    | eos => simp [selectRx, exec, execRxEosFrame, hst]
    | stop => simp [selectRx, exec, execRxStop, hst, RxSeq.inFrame]
  | csum =>
    cases sym with
    | byte b => exact exec_selectRx_byte_csum hst b
    | eos => simp [selectRx, exec, execRxEosFrame, hst]
    | stop => simp [selectRx, exec, execRxStop, hst, RxSeq.inFrame]
  | stopped => simp [selectRx, exec, execRxIgnore, hst]
  | dead => simp [selectRx, exec, execRxIgnore, hst]

/-- R160: a step that is not the one selected on its symbol is refused (log entry 13). -/
theorem exec_of_ne_selectRx {i : Instr} {sym : Symbol} (h : symbolOf i = some sym) {s : State}
    (hne : i ≠ selectRx s.rx sym) : exec i s = .refused .notSelected := by
  cases i <;> cases h <;> refine onlyIf_of_not (fun hsel => hne ?_) _ <;>
    simp only [Bool.and_eq_true, Bool.or_eq_true, beq_iff_eq, bne_iff_ne, Bool.not_eq_true'] at hsel
  case rxStop => cases hst : s.rx.state <;> simp_all [selectRx, RxSeq.inFrame]
  case rxEosLen | rxEosFrame | rxIgnore => rcases hsel with hst | hst <;> simp [selectRx, hst]
  all_goals simp [selectRx, hsel]

/-- A next state of an RX step by name is one RX comes to on the symbol the step consumes. -/
theorem rxSymbol_of_exec {i : Instr} {sym : Symbol} (h : symbolOf i = some sym) {s t : State}
    (ht : exec i s = .next t) : rxSymbol sym s = .next t := by
  by_cases hi : i = selectRx s.rx sym
  · rw [← exec_selectRx, ← hi, ht]
  · rw [exec_of_ne_selectRx h hi] at ht
    cases ht

/-! ### The kinds of operation -/

/-- The rows of raw bytes are their bytes fed to RX in order (R91, R94, R95). -/
theorem exec_eq_feed {i : Instr} (h : i.format ∈ [Format.sym8, .esc16, .hdr24, .frame]) (s : State) :
    exec i s = feed (encode i) s := by
  cases i
  case start | esc | xon | xoff | plain => exact (feed_singleton _ s).symm
  case escStart | escEsc | escXon | escXoff | escAny | hdr | frame => rfl
  all_goals exact absurd h (by simp [Instr.format])

/-- An operation of RX is a step on a symbol, a row of raw bytes, or one of the two procedures. -/
theorem isRxOp_cases {i : Instr} (h : isRxOp i = true) :
    (∃ sym, symbolOf i = some sym) ∨ i.format ∈ [Format.sym8, .esc16, .hdr24, .frame] ∨
      (∃ v, i = .rxAccept v) ∨ ∃ c, i = .rxVerify c := by
  cases i <;> simp_all [isRxOp, symbolOf, Instr.format]

/-- An operation of neither agent returns a function's result, and FID.NEXT also writes `fid.last`. -/
theorem exec_of_function {i : Instr} (hr : isRxOp i = false) (ht : isTxOp i = false) (s : State) :
    (∃ r, exec i s = .next (setRet r s)) ∨ exec i s = execFidNext s := by
  cases i <;> cases hr <;> cases ht
  case fidNext => exact .inr rfl
  all_goals exact .inl ⟨_, rfl⟩

end Sys2Proof.Machine
end

section
/-! The two agents share no state (R20, R72, R321): an operation of RX reads the configuration and RX alone and writes
RX alone, and one of TX likewise. Both the frame of an operation and the freedom of order follow. -/

open Sys2Proof.Statements

namespace Sys2Proof.Machine

/-- The state `u`, with RX's registers and outputs those of `s`. -/
def rxOnto (s u : State) : State := { u with rx := s.rx, rxEvents := s.rxEvents, rxTrace := s.rxTrace }

/-- The state `u`, with TX's registers and outputs, and the requests that wait for it, those of `s`. -/
def txOnto (s u : State) : State :=
  { u with tx := s.tx, txOut := s.txOut, txEvents := s.txEvents, waiting := s.waiting }

@[simp] theorem rxOnto_cfg (s u : State) : (rxOnto s u).cfg = u.cfg := rfl
@[simp] theorem rxOnto_rx (s u : State) : (rxOnto s u).rx = s.rx := rfl
@[simp] theorem txOnto_cfg (s u : State) : (txOnto s u).cfg = u.cfg := rfl
@[simp] theorem txOnto_tx (s u : State) : (txOnto s u).tx = s.tx := rfl

/-- `f` reads the configuration and RX alone and writes RX alone: put onto any other state of the same configuration,
it does the same to RX and leaves the rest. -/
def RxLocal (f : State → Res) : Prop :=
  ∀ s u, u.cfg = s.cfg → f (rxOnto s u) = andThen (f s) fun t => .next (rxOnto t u)

/-- `f` reads the configuration and TX alone and writes TX alone. -/
def TxLocal (f : State → Res) : Prop :=
  ∀ s u, u.cfg = s.cfg → f (txOnto s u) = andThen (f s) fun t => .next (txOnto t u)

/-! ### RX -/

theorem opAccept_rxLocal (v : Byte) : RxLocal (opAccept v) := by
  intro s u h
  simp only [opAccept, rxOnto_cfg, rxOnto_rx, h]
  split <;> rfl

theorem endFrame_rxOnto (e : Event) (s u : State) : endFrame e (rxOnto s u) = rxOnto (endFrame e s) u := by
  simp only [endFrame_eq]
  rfl

theorem opVerify_rxLocal (c : Byte) : RxLocal (opVerify c) := by
  intro s u h
  simp only [opVerify, frameEvent, rxOnto_cfg, rxOnto_rx, h]
  repeat' split
  case isFalse.isFalse.isFalse.isTrue => rfl
  all_goals exact congrArg Host.Outcome.next (endFrame_rxOnto _ s u)

theorem next_rxLocal {f : State → State} (hf : ∀ s u, f (rxOnto s u) = rxOnto (f s) u) :
    RxLocal fun s => .next (f s) := fun s u _ => congrArg Host.Outcome.next (hf s u)

theorem onlyIf_rxLocal {sel : Rx → Bool} {f : State → Res} (hf : RxLocal f) :
    RxLocal fun s => onlyIf (sel s.rx) (f s) := by
  intro s u h
  dsimp only [rxOnto_rx]
  cases sel s.rx
  · rfl
  · exact hf s u h

theorem ite_rxLocal {p : Rx → Prop} [DecidablePred p] {f g : State → Res} (hf : RxLocal f) (hg : RxLocal g) :
    RxLocal fun s => if p s.rx then f s else g s := by
  intro s u h
  beta_reduce
  by_cases hp : p s.rx
  · rw [if_pos hp, if_pos (by exact hp)]
    exact hf s u h
  · rw [if_neg hp, if_neg (by exact hp)]
    exact hg s u h

theorem opStop_rxLocal : RxLocal opStop :=
  ite_rxLocal (p := fun r => r.state = .seek) (next_rxLocal fun _ _ => rfl) (next_rxLocal fun _ _ => rfl)

theorem opBodyByte_rxLocal (b : Byte) : RxLocal (opBodyByte b) :=
  ite_rxLocal (p := fun r => r.esc = true) (fun s u h => opAccept_rxLocal _ (escClear s) u h)
    (ite_rxLocal (p := fun _ => b = escByte) (next_rxLocal fun _ _ => rfl) (opAccept_rxLocal b))

theorem opCsumByte_rxLocal (b : Byte) : RxLocal (opCsumByte b) :=
  ite_rxLocal (p := fun r => r.esc = true) (fun s u h => opVerify_rxLocal _ (escClear s) u h)
    (ite_rxLocal (p := fun _ => b = escByte) (next_rxLocal fun _ _ => rfl) (opVerify_rxLocal b))

theorem opLenLo_rxLocal (b : Byte) : RxLocal (opLenLo b) := by
  intro s u h
  simp only [opLenLo, rxOnto_cfg, rxOnto_rx, h]
  rfl

theorem opSeekByte_rxLocal (b : Byte) : RxLocal fun s => if b = startByte then opStart s else opSkip b s :=
  ite_rxLocal (p := fun _ => b = startByte) (next_rxLocal fun _ _ => rfl) (next_rxLocal fun _ _ => rfl)

/-- R20: RX on a symbol is RX's alone. -/
theorem rxSymbol_rxLocal (sym : Symbol) : RxLocal (rxSymbol sym) := by
  intro s u h
  simp only [rxSymbol, rxOnto_rx]
  cases s.rx.state <;> cases sym
  case seek.byte b => exact opSeekByte_rxLocal b s u h
  case lenLo.byte b => exact opLenLo_rxLocal b s u h
  case body.byte b => exact opBodyByte_rxLocal b s u h
  case csum.byte b => exact opCsumByte_rxLocal b s u h
  case seek.stop | lenHi.stop | lenLo.stop | body.stop | csum.stop => exact opStop_rxLocal s u h
  all_goals rfl

/-- A step of RX leaves the configuration (R75). -/
theorem rxSymbol_cfg {sym : Symbol} {s t : State} (h : rxSymbol sym s = .next t) : t.cfg = s.cfg := by
  rw [(rxSymbol_frame h).1]

theorem feed_rxLocal (bs : List Byte) : RxLocal (feed bs) := by
  induction bs with
  | nil => intro s u _; rfl
  | cons b bs ih =>
    intro s u h
    rw [feed_cons, feed_cons, rxSymbol_rxLocal _ s u h]
    cases hb : rxSymbol (.byte b) s with
    | next t => exact ih t u (h.trans (rxSymbol_cfg hb).symm)
    | fault | refused => rfl

/-- R20: every operation of RX is RX's alone. -/
theorem exec_rxLocal {i : Instr} (hi : isRxOp i = true) : RxLocal (exec i) := by
  rcases isRxOp_cases hi with ⟨sym, hsym⟩ | hfmt | ⟨v, rfl⟩ | ⟨c, rfl⟩
  · intro s u h
    by_cases hsel : i = selectRx s.rx sym
    · rw [hsel, exec_selectRx]
      exact (exec_selectRx (rxOnto s u) sym).trans (rxSymbol_rxLocal sym s u h)
    · rw [exec_of_ne_selectRx hsym hsel, exec_of_ne_selectRx hsym (by exact hsel)]
      rfl
  · rw [funext (exec_eq_feed hfmt)]
    exact feed_rxLocal _
  · exact onlyIf_rxLocal (sel := fun r => r.state == .body && decide (r.cnt < r.len))
      fun s u h => opAccept_rxLocal v (escClear s) u h
  · exact onlyIf_rxLocal (sel := fun r => r.state == .csum && r.cnt == r.len)
      fun s u h => opVerify_rxLocal c (escClear s) u h

/-! ### TX -/

theorem opReq_txOnto (p : List Byte) {s u : State} (h : u.cfg = s.cfg) :
    opReq p (txOnto s u) = txOnto (opReq p s) u := by
  simp only [opReq, txOnto_cfg, txOnto_tx, h]
  repeat' split
  all_goals rfl

theorem withPayByte_txLocal {f : State → Byte → Res} (hf : ∀ v, TxLocal fun s => f s v) :
    TxLocal fun s => withPayByte s (f s) := by
  intro s u h
  dsimp only [withPayByte, txOnto_tx]
  cases payByte s.tx with
  | some v => exact hf v s u h
  | none => rfl

theorem onlyIf_txLocal {sel : Tx → Bool} {f : State → Res} (hf : TxLocal f) :
    TxLocal fun s => onlyIf (sel s.tx) (f s) := by
  intro s u h
  dsimp only [txOnto_tx]
  cases sel s.tx
  · rfl
  · exact hf s u h

theorem next_txLocal {f : State → State} (hf : ∀ s u, f (txOnto s u) = txOnto (f s) u) :
    TxLocal fun s => .next (f s) := fun s u _ => congrArg Host.Outcome.next (hf s u)

/-- R20: every operation of TX is TX's alone. -/
theorem exec_txLocal {i : Instr} (hi : isTxOp i = true) : TxLocal (exec i) := by
  cases i <;> cases hi
  case txReq p => exact fun s u h => congrArg Host.Outcome.next (opReq_txOnto p h)
  case txData =>
    exact onlyIf_txLocal (sel := fun t => t.state == .data)
      (withPayByte_txLocal fun v => onlyIf_txLocal (sel := fun _ => !isSpecial v) (next_txLocal fun _ _ => rfl))
  case txDataEsc1 =>
    exact onlyIf_txLocal (sel := fun t => t.state == .data)
      (withPayByte_txLocal fun v => onlyIf_txLocal (sel := fun _ => isSpecial v) (next_txLocal fun _ _ => rfl))
  case txDataEsc2 =>
    exact onlyIf_txLocal (sel := fun t => t.state == .dataEsc)
      (withPayByte_txLocal fun v => next_txLocal fun _ _ => rfl)
  case txCsum =>
    refine onlyIf_txLocal (sel := fun t => t.state == .csum) (next_txLocal fun s u => ?_)
    cases hs : isSpecial (txCheck s.tx) <;> simp [hs] <;> rfl
  case txStart => exact onlyIf_txLocal (sel := fun t => t.state == .start) (next_txLocal fun _ _ => rfl)
  case txLenHi => exact onlyIf_txLocal (sel := fun t => t.state == .lenHi) (next_txLocal fun _ _ => rfl)
  case txLenLo => exact onlyIf_txLocal (sel := fun t => t.state == .lenLo) (next_txLocal fun _ _ => rfl)
  case txCsumEsc2 => exact onlyIf_txLocal (sel := fun t => t.state == .csumEsc) (next_txLocal fun _ _ => rfl)
  case txFail => exact onlyIf_txLocal (sel := fun t => t.state.sending) (next_txLocal fun _ _ => rfl)
  case finish =>
    exact onlyIf_txLocal (sel := fun t => t.state == .csum && !isSpecial (txCheck t) || t.state == .csumEsc)
      (next_txLocal fun _ _ => rfl)

/-! ### The frame of an operation, and the two agents in either order -/

/-- R20, R72: an operation of RX leaves everything but RX as it was. -/
theorem exec_rx_frame {i : Instr} (hi : isRxOp i = true) {s t : State} (h : exec i s = .next t) : t = rxOnto t s := by
  have := exec_rxLocal hi s s rfl
  rw [show rxOnto s s = s from rfl, h] at this
  exact Host.Outcome.next.inj this

/-- R20, R72: an operation of TX leaves everything but TX as it was. -/
theorem exec_tx_frame {i : Instr} (hi : isTxOp i = true) {s t : State} (h : exec i s = .next t) : t = txOnto t s := by
  have := exec_txLocal hi s s rfl
  rw [show txOnto s s = s from rfl, h] at this
  exact Host.Outcome.next.inj this

/-- Settles O38: the frame of an operation, by its agent. -/
theorem agentsShareNoState : Obligations.AgentsShareNoState := fun _ _ _ h =>
  ⟨fun hi => exec_rx_frame hi h, fun hi => exec_tx_frame hi h⟩

/-- Settles O39: each operation does to its own agent, on the state the other leaves, what it does on the first
state. -/
theorem agentsCommute : Obligations.AgentsCommute := by
  intro s s1 s2 i j hi hj h1 h2
  have f1 : s1 = rxOnto s1 s := exec_rx_frame hi h1
  have f2 : s2 = txOnto s2 s := exec_tx_frame hj h2
  have hc1 : s1.cfg = s.cfg := by rw [f1]; rfl
  have hc2 : s2.cfg = s.cfg := by rw [f2]; rfl
  have g1 : txOnto s s1 = s1 := by rw [f1]; rfl
  have g2 : rxOnto s s2 = s2 := by rw [f2]; rfl
  refine ⟨txOnto s2 s1, ?_, ?_⟩
  · have := exec_txLocal hj s s1 hc1
    rwa [g1, h2] at this
  · have := exec_rxLocal hi s s2 hc2
    rw [g2, h1, andThen_next] at this
    rw [this, f1, f2]
    rfl

end Sys2Proof.Machine
end

section
/-! The invariants of RX state (R30): each kind of RX step keeps them, and under them every symbol is taken. -/

open Sys2Proof.Statements

namespace Sys2Proof.Machine

section
variable {c : Cfg} {r : Rx}

/-- R28, R30(d): RX has no cause unless it is dead. -/
theorem RxInv.cause_eq_zero (hi : RxInv c r) (h : r.state ≠ .dead) : r.cause = 0 :=
  not_not.mp (mt hi.dead.mpr h)

/-- R30(c): outside BODY, CSUM and DEAD no escape marker is pending. -/
theorem RxInv.esc_eq_false (hi : RxInv c r) (h : r.state.reading = false) (h' : r.state ≠ .dead) : r.esc = false := by
  by_contra he
  rcases hi.esc (Bool.not_eq_false _ ▸ he) with hr | ⟨hd, _⟩
  · simp [h] at hr
  · exact h' hd

/-- R50: RX after reset keeps the invariants. -/
theorem reset_rxInv (c : Cfg) : RxInv c Rx.reset where
  body := nofun
  csum := nofun
  esc := nofun
  dead := by decide
  cause := by decide
  stopped := nofun
  oversize := nofun
  fits := nofun
  lens := nofun
  stored := nofun
  sum := nofun
  bufWf := rfl
  bufRange := nofun

/-- R162: after the start marker. -/
theorem RxInv.after_start (hi : RxInv c r) (h : r.state = .seek) :
    RxInv c { r with len := 0, cnt := 0, sum := 0, esc := false, oversize := false, state := .lenHi } where
  body := nofun
  csum := nofun
  esc := nofun
  dead := by simp [hi.cause_eq_zero (by simp [h])]
  cause := hi.cause
  stopped := nofun
  oversize := nofun
  fits := nofun
  lens _ := rfl
  stored := nofun
  sum := nofun
  bufWf := hi.bufWf
  bufRange := hi.bufRange

/-- R163: after the high length byte. -/
theorem RxInv.after_lenHi (hi : RxInv c r) (h : r.state = .lenHi) (n : Len) :
    RxInv c { r with len := n, state := .lenLo } where
  body := nofun
  csum := nofun
  esc he := by simp [hi.esc_eq_false (by rw [h]; rfl) (by simp [h])] at he
  dead := by simp [hi.cause_eq_zero (by simp [h])]
  cause := hi.cause
  stopped := nofun
  oversize ho := by simp [hi.lens (.inl h)] at ho
  fits := nofun
  lens _ := hi.lens (.inl h)
  stored := nofun
  sum := nofun
  bufWf := hi.bufWf
  bufRange := hi.bufRange

theorem lenLoRx_state (n : Len) :
    (lenLoRx c n r).state = .csum ∧ n = 0 ∨ (lenLoRx c n r).state = .body ∧ n ≠ 0 := by
  by_cases hn : n = 0
  · exact .inl ⟨if_pos hn, hn⟩
  · exact .inr ⟨if_neg hn, hn⟩

/-- R164: after the low length byte. -/
theorem RxInv.after_lenLo (hi : RxInv c r) (h : r.state = .lenLo) (n : Len) : RxInv c (lenLoRx c n r) := by
  have hst := lenLoRx_state (c := c) (r := r) n
  constructor
  case body =>
    intro hb
    obtain ⟨_, hn⟩ := hst.resolve_left (by simp [hb])
    show 0 < n
    bv_omega
  case csum =>
    intro hc
    exact (hst.resolve_right (by simp [hc])).2.symm
  case esc => exact nofun
  case dead =>
    have hcause : (lenLoRx c n r).cause = 0 := hi.cause_eq_zero (by simp [h])
    rcases hst with ⟨hs, _⟩ | ⟨hs, _⟩ <;> simp [hs, hcause]
  case cause => exact hi.cause
  case stopped => rcases hst with ⟨hs, _⟩ | ⟨hs, _⟩ <;> simp [hs]
  case oversize => exact of_decide_eq_true
  case fits => exact fun _ ho => BitVec.not_lt.mp (of_decide_eq_false ho)
  case lens => rcases hst with ⟨hs, _⟩ | ⟨hs, _⟩ <;> simp [hs]
  case stored => exact nofun
  case sum => exact fun _ _ => rfl
  case bufWf => exact hi.bufWf
  case bufRange => exact hi.bufRange

/-- R170, R176: after an escape marker. -/
theorem RxInv.after_marker (hi : RxInv c r) (h : r.state.reading = true) : RxInv c { r with esc := true } :=
  { hi with esc := fun _ => .inl h }

theorem acceptRx_state {v : Byte} (h : r.state = .body) :
    (acceptRx v r).state = .csum ∧ r.cnt + 1 = r.len ∨ (acceptRx v r).state = .body ∧ r.cnt + 1 ≠ r.len := by
  by_cases hn : r.cnt + 1 = r.len
  · exact .inl ⟨if_pos hn, hn⟩
  · exact .inr ⟨(if_neg hn).trans h, hn⟩

theorem acceptRx_buf_of_fits {v : Byte} (h : r.oversize = false) :
    (acceptRx v r).buf = bufWrite r.buf r.cnt.toNat v := by simp [acceptRx, h]

/-- R23: the count of a frame does not wrap. -/
theorem cnt_succ_toNat (h : r.cnt < r.len) : (r.cnt + 1).toNat = r.cnt.toNat + 1 := by bv_omega

/-- R172, R178: after their first line. -/
theorem RxInv.after_clearEsc (hi : RxInv c r) : RxInv c { r with esc := false } := { hi with esc := nofun }

/-- R173: after a logical byte that has an entry to go to, or none is stored. -/
theorem RxInv.after_accept (hi : RxInv c r) (h : r.state = .body) (v : Byte)
    (hf : r.oversize = true ∨ r.cnt < c.rxMaxLen) : RxInv c (acceptRx v r) := by
  have hst := acceptRx_state (r := r) (v := v) h
  have hlt := hi.body h
  have hcnt := cnt_succ_toNat hlt
  have hread : r.state.reading = true := by rw [h]; rfl
  constructor
  case body =>
    intro hb
    obtain ⟨_, hne⟩ := hst.resolve_left (by simp [hb])
    change r.cnt + 1 < r.len
    bv_omega
  case csum =>
    intro hc
    exact (hst.resolve_right (by simp [hc])).2
  case esc => rcases hst with ⟨hs, _⟩ | ⟨hs, _⟩ <;> simp [hs, RxSeq.reading]
  case dead =>
    have hcause : (acceptRx v r).cause = 0 := hi.cause_eq_zero (by simp [h])
    rcases hst with ⟨hs, _⟩ | ⟨hs, _⟩ <;> simp [hs, hcause]
  case cause => exact hi.cause
  case stopped => rcases hst with ⟨hs, _⟩ | ⟨hs, _⟩ <;> simp [hs]
  case oversize => exact hi.oversize
  case fits => exact fun _ ho => hi.fits hread ho
  case lens => rcases hst with ⟨hs, _⟩ | ⟨hs, _⟩ <;> simp [hs]
  case stored =>
    intro _ (ho : r.oversize = false) a ha
    change a < (r.cnt + 1).toNat at ha
    rw [acceptRx_buf_of_fits ho, bufRead_bufWrite]
    split
    · rfl
    · exact hi.stored hread ho a (by omega)
  case sum =>
    intro _ (ho : r.oversize = false)
    show r.sum + v = sumBytes (bufSlice (acceptRx v r).buf 0 (r.cnt + 1).toNat)
    rw [acceptRx_buf_of_fits ho, hcnt, bufSlice_bufWrite_end, sumBytes_append, ← hi.sum hread ho]
    simp
  case bufWf => exact acceptRx_bufWf v hi.bufWf
  case bufRange =>
    intro e he
    cases ho : r.oversize with
    | true => exact hi.bufRange e (by simpa [acceptRx, ho] using he)
    | false =>
      rw [acceptRx_buf_of_fits ho] at he
      rcases mem_bufWrite he with heq | hm
      · rw [heq]
        exact BitVec.lt_def.mp (hf.resolve_left (by simp [ho]))
      · exact hi.bufRange e hm

/-- R180: after its last lines, back to seeking, or stopped. -/
theorem RxInv.after_resume (hi : RxInv c r) (h : r.state ≠ .dead) :
    RxInv c { r with esc := false, state := if r.stopPending then .stopped else .seek } := by
  have hcause := hi.cause_eq_zero h
  constructor
  case esc => exact nofun
  case cause => exact hi.cause
  case oversize => exact hi.oversize
  case bufWf => exact hi.bufWf
  case bufRange => exact hi.bufRange
  all_goals cases hp : r.stopPending <;> simp [RxSeq.reading, hcause]

/-- R301: after a fatal error that is a cause of R28. -/
theorem RxInv.after_fatal (hi : RxInv c r) {k : Code} (hk : k ∈ rxCauses) (h0 : k ≠ 0)
    (he : r.esc = true → k = 0x0B) : RxInv c { r with cause := k, state := .dead } where
  body := nofun
  csum := nofun
  esc h := .inr ⟨rfl, he h⟩
  dead := by simpa using h0
  cause := hk
  stopped := nofun
  oversize := hi.oversize
  fits := nofun
  lens := nofun
  stored := nofun
  sum := nofun
  bufWf := hi.bufWf
  bufRange := hi.bufRange

/-- R185: after STOP in SEEK. -/
theorem RxInv.after_stopNow (hi : RxInv c r) (h : r.state = .seek) :
    RxInv c { r with stopPending := true, state := .stopped } where
  body := nofun
  csum := nofun
  esc he := by simp [hi.esc_eq_false (by rw [h]; rfl) (by simp [h])] at he
  dead := by simp [hi.cause_eq_zero (by simp [h])]
  cause := hi.cause
  stopped _ := rfl
  oversize := hi.oversize
  fits := nofun
  lens := nofun
  stored := nofun
  sum := nofun
  bufWf := hi.bufWf
  bufRange := hi.bufRange

/-- R185: after STOP in a frame. -/
theorem RxInv.after_stopLater (hi : RxInv c r) : RxInv c { r with stopPending := true } :=
  { hi with stopped := fun _ => rfl }

end

theorem reading_of_body_or_csum {q : RxSeq} (h : q = .body ∨ q = .csum) : q.reading = true := by
  rcases h with rfl | rfl <;> rfl

/-- R184: the cause of the end of the stream inside the payload or the checksum. -/
theorem eosCause_code (r : Rx) :
    (eosCause r).code ∈ rxCauses ∧ (eosCause r).code ≠ 0 ∧ (r.esc = true → (eosCause r).code = 0x0B) := by
  unfold eosCause
  split
  · simp [FramingCause.code, rxCauses]
  · next he => split <;> simp [FramingCause.code, rxCauses, he]

/-- R30: every RX step keeps the invariants of RX state. -/
theorem rxSymbol_keeps_rxInv {sym : Symbol} {s t : State} (hi : RxInv s.cfg s.rx) (h : rxSymbol sym s = .next t) :
    RxInv t.cfg t.rx := by
  cases rxSymbol_cases h with
  | skip b hs _ _ => exact hi
  | start hs _ => exact hi.after_start hs
  | lenHi b hs _ => exact hi.after_lenHi hs _
  | lenLo b hs _ => exact hi.after_lenLo hs _
  | marker hs _ _ => exact hi.after_marker (reading_of_body_or_csum hs)
  | accept b v hs _ _ _ hf => exact (hi.after_accept hs v hf).after_clearEsc
  | verify b v hs _ _ _ =>
    rw [endFrame_eq]
    exact hi.after_resume (by simp [hs])
  | eosIdle hs _ =>
    have he := hi.esc_eq_false (by rw [hs]; rfl) (by simp [hs])
    exact hi.after_fatal (k := 0x0C) (by decide) (by decide) (by simp [he])
  | eosLen n hs _ =>
    have he : s.rx.esc = false := by
      rcases hs with ⟨hs, _⟩ | ⟨hs, _⟩ <;> exact hi.esc_eq_false (by rw [hs]; rfl) (by simp [hs])
    exact hi.after_fatal (k := 0x08) (by decide) (by decide) (by simp [he])
  | eosFrame _ _ =>
    obtain ⟨hm, h0, he⟩ := eosCause_code s.rx
    exact hi.after_fatal hm h0 he
  | stopNow hs _ => exact hi.after_stopNow hs
  | stopLater _ _ => exact hi.after_stopLater
  | ignore _ => exact hi

/-- R30 over raw bytes in order. -/
theorem feed_keeps_rxInv (bs : List Byte) : ∀ {s t : State}, RxInv s.cfg s.rx → feed bs s = .next t →
    RxInv t.cfg t.rx := by
  induction bs with
  | nil => intro s t hi h; cases h; exact hi
  | cons b bs ih =>
    intro s t hi h
    rw [feed_cons, andThen_eq_next] at h
    obtain ⟨u, hu, ht⟩ := h
    exact ih (rxSymbol_keeps_rxInv hi hu) ht

theorem rxSymbol_byte_of_body {s : State} (h : s.rx.state = .body) (b : Byte) :
    rxSymbol (.byte b) s = opBodyByte b s := by simp only [rxSymbol, h]

theorem rxSymbol_byte_of_csum {s : State} (h : s.rx.state = .csum) (b : Byte) :
    rxSymbol (.byte b) s = opCsumByte b s := by simp only [rxSymbol, h]

theorem opBodyByte_of_esc {s : State} (h : s.rx.esc = true) (b : Byte) :
    opBodyByte b s = opAccept (b ^^^ escXor) (escClear s) := if_pos h

theorem opCsumByte_of_esc {s : State} (h : s.rx.esc = true) (b : Byte) :
    opCsumByte b s = opVerify (b ^^^ escXor) (escClear s) := if_pos h

/-- R173 by name is R172 on a pair whose marker has been read. -/
theorem opAccept_escClear_eq {s : State} (h : s.rx.state = .body) (v : Byte) :
    opAccept v (escClear s) = rxSymbol (.byte (v ^^^ escXor)) (setRx { s.rx with esc := true } s) := by
  rw [rxSymbol_byte_of_body (by exact h), opBodyByte_of_esc rfl, xor_escXor_xor_escXor]
  rfl

/-- R180 by name is R178 on a pair whose marker has been read. -/
theorem opVerify_escClear_eq {s : State} (h : s.rx.state = .csum) (c : Byte) :
    opVerify c (escClear s) = rxSymbol (.byte (c ^^^ escXor)) (setRx { s.rx with esc := true } s) := by
  rw [rxSymbol_byte_of_csum (by exact h), opCsumByte_of_esc rfl, xor_escXor_xor_escXor]
  rfl

/-- R30: every operation of RX by name keeps the invariants of RX state. -/
theorem exec_keeps_rxInv {i : Instr} (hr : isRxOp i = true) {s t : State} (hi : RxInv s.cfg s.rx)
    (h : exec i s = .next t) : RxInv t.cfg t.rx := by
  rcases isRxOp_cases hr with ⟨sym, hsym⟩ | hfmt | ⟨v, rfl⟩ | ⟨c, rfl⟩
  · exact rxSymbol_keeps_rxInv hi (rxSymbol_of_exec hsym h)
  · exact feed_keeps_rxInv _ hi (exec_eq_feed hfmt s ▸ h)
  · obtain ⟨hsel, h⟩ := onlyIf_eq_next.mp h
    have hst : s.rx.state = .body := by simp_all
    rw [opAccept_escClear_eq hst] at h
    exact rxSymbol_keeps_rxInv (hi.after_marker (by rw [hst]; rfl)) h
  · obtain ⟨hsel, h⟩ := onlyIf_eq_next.mp h
    have hst : s.rx.state = .csum := by simp_all
    rw [opVerify_escClear_eq hst] at h
    exact rxSymbol_keeps_rxInv (hi.after_marker (by rw [hst]; rfl)) h

/-! ### Under the invariants every symbol is taken -/

/-- R29: in BODY a store has an entry to go to, or there is none. -/
theorem RxInv.store_fits {c : Cfg} {r : Rx} (hi : RxInv c r) (h : r.state = .body) :
    r.oversize = true ∨ r.cnt < c.rxMaxLen := by
  cases ho : r.oversize with
  | true => exact .inl rfl
  | false =>
    have hlt := hi.body h
    have hle := hi.fits (by rw [h]; rfl) ho
    exact .inr (by bv_omega)

/-- R29: in CSUM the frame read stands inside the buffer, or none is read. -/
theorem RxInv.read_fits {c : Cfg} {r : Rx} (hi : RxInv c r) (h : r.state = .csum) :
    r.oversize = true ∨ r.len ≤ c.rxMaxLen := by
  cases ho : r.oversize with
  | true => exact .inl rfl
  | false => exact .inr (hi.fits (by rw [h]; rfl) ho)

theorem opBodyByte_completes {s : State} (hf : s.rx.oversize = true ∨ s.rx.cnt < s.cfg.rxMaxLen) (b : Byte) :
    ∃ t, opBodyByte b s = .next t := by
  unfold opBodyByte
  split
  · exact ⟨_, opAccept_of_fits (s := escClear s) hf⟩
  · split
    · exact ⟨_, rfl⟩
    · exact ⟨_, opAccept_of_fits hf⟩

theorem opCsumByte_completes {s : State} (hf : s.rx.oversize = true ∨ s.rx.len ≤ s.cfg.rxMaxLen) (b : Byte) :
    ∃ t, opCsumByte b s = .next t := by
  unfold opCsumByte
  split
  · exact ⟨_, opVerify_of_fits (s := escClear s) hf⟩
  · split
    · exact ⟨_, rfl⟩
    · exact ⟨_, opVerify_of_fits hf⟩

theorem opStop_completes (s : State) : ∃ t, opStop s = .next t := by
  unfold opStop
  split <;> exact ⟨_, rfl⟩

/-- R35, R160: in a state that keeps the invariants RX takes every symbol. -/
theorem rxSymbol_completes {s : State} (hi : RxInv s.cfg s.rx) (sym : Symbol) : ∃ t, rxSymbol sym s = .next t := by
  unfold rxSymbol
  cases hst : s.rx.state <;> cases sym
  case seek.byte b =>
    dsimp only
    split <;> exact ⟨_, rfl⟩
  case body.byte b => exact opBodyByte_completes (hi.store_fits hst) b
  case csum.byte b => exact opCsumByte_completes (hi.read_fits hst) b
  case seek.stop | lenHi.stop | lenLo.stop | body.stop | csum.stop => exact opStop_completes s
  all_goals exact ⟨_, rfl⟩

theorem feed_completes (bs : List Byte) : ∀ {s : State}, RxInv s.cfg s.rx → ∃ t, feed bs s = .next t := by
  induction bs with
  | nil => exact fun _ => ⟨_, rfl⟩
  | cons b bs ih =>
    intro s hi
    obtain ⟨u, hu⟩ := rxSymbol_completes hi (.byte b)
    rw [feed_cons, hu, andThen_next]
    exact ih (rxSymbol_keeps_rxInv hi hu)

end Sys2Proof.Machine
end

section
/-! The invariants of TX state (R43) and of its raw stream (R67(b), R223): each TX operation keeps them. -/

namespace Sys2Proof.Machine

/-! ### The next raw byte of the frame in progress -/

/-- The frame is what is sent of it after `k` payload bytes, and then the rest. -/
theorem frameBytes_split (p : List Byte) (k : Nat) :
    frameBytes p = (startByte :: lenEncode (BitVec.ofNat 16 p.length) ++ stuff (p.take k)) ++
      stuff (p.drop k ++ [checksum p]) := by
  have hp : stuff (p.take k) ++ stuff (p.drop k ++ [checksum p]) = stuff (p ++ [checksum p]) := by
    rw [← stuff_append, ← List.append_assoc, List.take_append_drop]
  rw [List.append_assoc, hp]
  rfl

/-- After the header and `k` payload bytes come the raw bytes of the next logical byte. -/
theorem frameBytes_get_stuffed {p q : List Byte} {k : Nat} {v : Byte} (h : p.drop k ++ [checksum p] = v :: q)
    {j : Nat} (hj : j < (escape v).length) :
    (frameBytes p)[3 + (stuff (p.take k)).length + j]? = (escape v)[j]? := by
  have hlen : (startByte :: lenEncode (BitVec.ofNat 16 p.length) ++ stuff (p.take k)).length =
      3 + (stuff (p.take k)).length := by simp [lenEncode]; omega
  rw [frameBytes_split p k, h, stuff_cons, ← hlen, List.getElem?_append_right (by omega), Nat.add_sub_cancel_left,
    List.getElem?_append_left hj]

section
variable {c : Cfg} {t : Tx}

theorem sending_of_data {q : TxSeq} (h : q = .data ∨ q = .dataEsc) : q.sending = true := by
  rcases h with rfl | rfl <;> rfl

theorem sending_of_csum {q : TxSeq} (h : q = .csum ∨ q = .csumEsc) : q.sending = true := by
  rcases h with rfl | rfl <;> rfl

/-- R41: the length register holds the length of the payload. -/
theorem TxInv.len_eq (hi : TxInv c t) (h : t.state.sending = true) : BitVec.ofNat 16 t.pay.length = t.len := by
  rw [hi.payLen h, BitVec.ofNat_toNat, BitVec.setWidth_eq]

/-- R43(b): in T_DATA and T_DATA_ESC the index is one of the payload. -/
theorem TxInv.exists_payByte (hi : TxInv c t) (h : t.state = .data ∨ t.state = .dataEsc) :
    ∃ v, payByte t = some v := by
  have hs := sending_of_data h
  have hlt := BitVec.lt_def.mp (hi.data h)
  rw [← hi.payLen hs] at hlt
  exact ⟨_, List.getElem?_eq_getElem hlt⟩

theorem drop_idx_eq {v : Byte} (hv : payByte t = some v) :
    t.pay.drop t.idx.toNat = v :: t.pay.drop (t.idx.toNat + 1) := by
  obtain ⟨hlt, hv⟩ := List.getElem?_eq_some_iff.mp hv
  rw [← hv, List.drop_eq_getElem_cons hlt]

theorem take_idx_succ {v : Byte} (hv : payByte t = some v) :
    t.pay.take (t.idx.toNat + 1) = t.pay.take t.idx.toNat ++ [v] := by
  rw [List.take_add_one, show t.pay[t.idx.toNat]? = some v from hv]
  rfl

/-- R134, R221: at the checksum the register gives the checksum of the payload. -/
theorem TxInv.txCheck_eq (hi : TxInv c t) (h : t.state = .csum ∨ t.state = .csumEsc) :
    txCheck t = checksum t.pay := by
  have hs := sending_of_csum h
  rw [txCheck, checksum, hi.sum hs, hi.csum h, ← hi.payLen hs, List.take_length]

/-- R211, R41: the count of raw bytes of a frame stays within its 18 bits. -/
theorem sentCount_lt (hl : t.pay.length = t.len.toNat) : sentCount t < 2 ^ 18 - 1 := by
  have hb := t.len.isLt
  have h1 := length_stuff_le t.pay
  have h2 := length_stuff_le (t.pay.take t.idx.toNat)
  have h3 := List.length_take_le' t.idx.toNat t.pay
  unfold sentCount
  split <;> omega


/-- R43(d): TX has no cause unless it is dead. -/
theorem TxInv.cause_eq_zero (hi : TxInv c t) (h : t.state ≠ .dead) : t.cause = 0 :=
  hi.cause.resolve_right (mt hi.dead.mpr h)

/-- Idle TX keeps the invariants. -/
theorem txInv_of_idle (h : t.state = .idle) (h0 : t.cause = 0) : TxInv c t := by
  constructor
  case cause => exact .inl h0
  all_goals simp [h, h0, TxSeq.sending]

/-- TX dead of its one fatal error keeps the invariants. -/
theorem txInv_of_dead (h : t.state = .dead) (h0 : t.cause = 0x18) : TxInv c t := by
  constructor
  case cause => exact .inr h0
  all_goals simp [h, h0, TxSeq.sending]

end

/-- `b` is the next raw byte of the frame that `t` is sending, and `t'` holds the registers after it but for the
count of bytes sent: what R215 to R222 have in common. -/
structure Advances (t : Tx) (b : Byte) (t' : Tx) : Prop where
  pay : t'.pay = t.pay
  len : t'.len = t.len
  sent : t'.sent = t.sent
  cause : t'.cause = t.cause
  sending : t'.state.sending = true
  header : t'.state = .start ∨ t'.state = .lenHi ∨ t'.state = .lenLo → t'.idx = 0
  data : t'.state = .data ∨ t'.state = .dataEsc → t'.idx < t'.len
  csum : t'.state = .csum ∨ t'.state = .csumEsc → t'.idx = t'.len
  sum : t'.sum = sumBytes (t'.pay.take t'.idx.toNat)
  dataEsc : t'.state = .dataEsc → (payByte t').any isSpecial = true
  csumEsc : t'.state = .csumEsc → isSpecial (txCheck t') = true
  next : (frameBytes t.pay)[sentCount t]? = some b
  count : sentCount t' = sentCount t + 1

theorem ne_dead_of_sending {q : TxSeq} (h : q.sending = true) : q ≠ .dead := by
  rintro rfl
  exact absurd h (by decide)

/-- R43 over a byte sent. -/
theorem Advances.txInv {c : Cfg} {t t' : Tx} {b : Byte} (ha : Advances t b t') (hi : TxInv c t)
    (hs : t.state.sending = true) : TxInv c { t' with sent := t'.sent + 1 } where
  payLen _ := by rw [ha.pay, ha.len, hi.payLen hs]
  lenPos _ := by rw [ha.len]; exact hi.lenPos hs
  lenMax _ := by rw [ha.len]; exact hi.lenMax hs
  header := ha.header
  data := ha.data
  csum := ha.csum
  sum _ := ha.sum
  dataEsc := ha.dataEsc
  csumEsc := ha.csumEsc
  dead := by
    have h0 : t'.cause = 0 := ha.cause.trans (hi.cause_eq_zero (ne_dead_of_sending hs))
    simp [h0, ne_dead_of_sending ha.sending]
  cause := by rw [ha.cause]; exact hi.cause
  sent _ := by
    have hlt := sentCount_lt (hi.payLen hs)
    have hcount := hi.sent hs
    show (t'.sent + 1).toNat = sentCount t'
    rw [ha.count, ha.sent, ← hcount, BitVec.toNat_add, Nat.mod_eq_of_lt]
    · rfl
    · rw [hcount]
      exact Nat.add_lt_of_lt_sub hlt

/-- R67(b) over a byte sent: the raw stream still ends with the first bytes of the frame. -/
theorem Advances.txWire {s : State} {t' : Tx} {b : Byte} (ha : Advances s.tx b t') (hw : TxWire s)
    (hs : s.tx.state.sending = true) : TxWire (sendByte b t' s) := by
  intro _
  obtain ⟨before, hout⟩ := hw hs
  refine ⟨before, ?_⟩
  show s.txOut ++ [b] = before ++ (frameBytes t'.pay).take (sentCount t')
  rw [hout, ha.pay, ha.count, List.take_add_one, ha.next, List.append_assoc]
  rfl

section
variable {c : Cfg} {t : Tx}

/-- R215: the start marker. -/
theorem TxInv.advances_start (hi : TxInv c t) (h : t.state = .start) :
    Advances t startByte { t with state := .lenHi } where
  pay := rfl
  len := rfl
  sent := rfl
  cause := rfl
  sending := rfl
  header _ := hi.header (.inl h)
  data := nofun
  csum := nofun
  sum := hi.sum (by rw [h]; rfl)
  dataEsc := nofun
  csumEsc := nofun
  next := by simp [sentCount, h, frameBytes]
  count := by simp [sentCount, h]

/-- R216: the high length byte. -/
theorem TxInv.advances_lenHi (hi : TxInv c t) (h : t.state = .lenHi) :
    Advances t (hiByte t.len) { t with state := .lenLo } where
  pay := rfl
  len := rfl
  sent := rfl
  cause := rfl
  sending := rfl
  header _ := hi.header (.inr (.inl h))
  data := nofun
  csum := nofun
  sum := hi.sum (by rw [h]; rfl)
  dataEsc := nofun
  csumEsc := nofun
  next := by simp [sentCount, h, frameBytes, lenEncode, hi.len_eq (by rw [h]; rfl)]
  count := by simp [sentCount, h]

/-- R217: the low length byte. -/
theorem TxInv.advances_lenLo (hi : TxInv c t) (h : t.state = .lenLo) :
    Advances t (loByte t.len) { t with state := .data } where
  pay := rfl
  len := rfl
  sent := rfl
  cause := rfl
  sending := rfl
  header := nofun
  data _ := by
    have hpos := hi.lenPos (by rw [h]; rfl)
    show t.idx < t.len
    rw [hi.header (.inr (.inr h)), BitVec.lt_def]
    exact hpos
  csum := nofun
  sum := hi.sum (by rw [h]; rfl)
  dataEsc := nofun
  csumEsc := nofun
  next := by simp [sentCount, h, frameBytes, lenEncode, hi.len_eq (by rw [h]; rfl)]
  count := by simp [sentCount, h, hi.header (.inr (.inr h))]

/-- R219: the first byte of a payload pair. -/
theorem TxInv.advances_dataEsc1 (hi : TxInv c t) (h : t.state = .data) {v : Byte} (hv : payByte t = some v)
    (hsp : isSpecial v = true) : Advances t escByte { t with state := .dataEsc } where
  pay := rfl
  len := rfl
  sent := rfl
  cause := rfl
  sending := rfl
  header := nofun
  data _ := hi.data (.inl h)
  csum := nofun
  sum := hi.sum (by rw [h]; rfl)
  dataEsc _ := by
    show (payByte t).any isSpecial = true
    rw [hv]
    exact hsp
  csumEsc := nofun
  next := by
    rw [show sentCount t = 3 + (stuff (t.pay.take t.idx.toNat)).length + 0 by simp [sentCount, h],
      frameBytes_get_stuffed (by rw [drop_idx_eq hv]; rfl) (by simp [escape_length, hsp]), escape_of_special hsp]
    rfl
  count := by simp [sentCount, h]

/-- R221: the first byte of a checksum pair. -/
theorem TxInv.advances_csumEsc1 (hi : TxInv c t) (h : t.state = .csum) (hsp : isSpecial (txCheck t) = true) :
    Advances t escByte { t with state := .csumEsc } where
  pay := rfl
  len := rfl
  sent := rfl
  cause := rfl
  sending := rfl
  header := nofun
  data := nofun
  csum _ := hi.csum (.inl h)
  sum := hi.sum (by rw [h]; rfl)
  dataEsc := nofun
  csumEsc _ := hsp
  next := by
    have hk : t.pay.drop t.pay.length ++ [checksum t.pay] = txCheck t :: [] := by
      rw [List.drop_length, hi.txCheck_eq (.inl h)]
      rfl
    rw [show sentCount t = 3 + (stuff (t.pay.take t.pay.length)).length + 0 by simp [sentCount, h],
      frameBytes_get_stuffed hk (by simp [escape_length, hsp]), escape_of_special hsp]
    rfl
  count := by simp [sentCount, h]

theorem advanceTx_state {v : Byte} :
    (advanceTx v t).state = .csum ∧ t.idx + 1 = t.len ∨ (advanceTx v t).state = .data ∧ t.idx + 1 ≠ t.len := by
  by_cases hn : t.idx + 1 = t.len
  · exact .inl ⟨if_pos hn, hn⟩
  · exact .inr ⟨if_neg hn, hn⟩

/-- R41: the index of a frame in progress does not wrap. -/
theorem idx_succ_toNat (h : t.idx < t.len) : (t.idx + 1).toNat = t.idx.toNat + 1 := by bv_omega

/-- After a payload byte sent whole, the bytes sent are the header and the payload bytes up to and with it. -/
theorem TxInv.sentCount_advanceTx (hi : TxInv c t) (h : t.state = .data ∨ t.state = .dataEsc) (v : Byte) :
    sentCount (advanceTx v t) = 3 + (stuff (t.pay.take (t.idx.toNat + 1))).length := by
  rw [← idx_succ_toNat (hi.data h)]
  rcases advanceTx_state (t := t) (v := v) with ⟨hq, hn⟩ | ⟨hq, _⟩
  · rw [hn, ← hi.payLen (sending_of_data h), List.take_length, sentCount, hq]
    rfl
  · rw [sentCount, hq]
    rfl

/-- R218, R220: the last raw byte `b` of a payload byte, its raw byte with index `j`, moves the index on. -/
theorem TxInv.advances_data (hi : TxInv c t) (h : t.state = .data ∨ t.state = .dataEsc) {v b : Byte} {j : Nat}
    (hv : payByte t = some v) (hj : (escape v).length = j + 1) (hb : (escape v)[j]? = some b)
    (hc : sentCount t = 3 + (stuff (t.pay.take t.idx.toNat)).length + j) : Advances t b (advanceTx v t) := by
  have hs := sending_of_data h
  have hlt := hi.data h
  have hidx := idx_succ_toNat hlt
  have hst := advanceTx_state (t := t) (v := v)
  constructor
  case pay | len | sent | cause => rfl
  case sending => rcases hst with ⟨hq, _⟩ | ⟨hq, _⟩ <;> rw [hq] <;> rfl
  case header => rcases hst with ⟨hq, _⟩ | ⟨hq, _⟩ <;> simp [hq]
  case data =>
    intro hd
    obtain ⟨_, hne⟩ := hst.resolve_left fun ⟨hq, _⟩ => by simp [hq] at hd
    show t.idx + 1 < t.len
    bv_omega
  case csum =>
    intro hd
    exact (hst.resolve_right fun ⟨hq, _⟩ => by simp [hq] at hd).2
  case sum =>
    show t.sum + v = sumBytes (t.pay.take (t.idx + 1).toNat)
    rw [hidx, take_idx_succ hv, sumBytes_append, hi.sum hs]
    simp
  case dataEsc => rcases hst with ⟨hq, _⟩ | ⟨hq, _⟩ <;> simp [hq]
  case csumEsc => rcases hst with ⟨hq, _⟩ | ⟨hq, _⟩ <;> simp [hq]
  case next => rw [hc, frameBytes_get_stuffed (by rw [drop_idx_eq hv]; rfl) (by omega), hb]
  case count =>
    rw [hi.sentCount_advanceTx h v, take_idx_succ hv, stuff_append, List.length_append, hc, stuff_cons,
      stuff_nil, List.append_nil, hj]
    omega

/-- R214: after an accepted request. -/
theorem TxInv.after_accept (hi : TxInv c t) (h : t.state = .idle) {p : List Byte} (hp : 1 ≤ p.length)
    (hl : p.length ≤ c.txMaxLen.toNat) : TxInv c (acceptTx p t) := by
  have hlen : (BitVec.ofNat 16 p.length).toNat = p.length :=
    Nat.mod_eq_of_lt (Nat.lt_of_le_of_lt hl c.txMaxLen.isLt)
  constructor
  case payLen => exact fun _ => hlen.symm
  case lenPos => exact fun _ => hlen.symm ▸ hp
  case lenMax => exact fun _ => BitVec.le_def.mpr (hlen.symm ▸ hl)
  case header => exact fun _ => rfl
  case dead =>
    have h0 := hi.cause_eq_zero (by simp [h])
    simp [acceptTx, h0]
  case cause => exact hi.cause
  case sum | sent => exact fun _ => rfl
  all_goals exact nofun

end

theorem txWire_of_not_sending {s : State} (h : s.tx.state.sending = false) : TxWire s := by
  intro hs
  simp [h] at hs

/-- R43, R67(b): every operation of TX keeps the invariants of TX state and of its raw stream. -/
theorem txStep_keeps_txInv {i : Instr} {s t : State} (hi : TxInv s.cfg s.tx) (hw : TxWire s) (h : TxStepTo s i t) :
    TxInv s.cfg t.tx ∧ TxWire t := by
  have sends {b : Byte} {t' : Tx} (hs : s.tx.state.sending = true) (ha : Advances s.tx b t') :
      TxInv s.cfg (sendByte b t' s).tx ∧ TxWire (sendByte b t' s) := ⟨ha.txInv hi hs, ha.txWire hw hs⟩
  have ends {t' : State} (hne : s.tx.state ≠ .dead) (hst : t'.tx.state = .idle) (hc : t'.tx.cause = s.tx.cause) :
      TxInv s.cfg t'.tx ∧ TxWire t' :=
    ⟨txInv_of_idle hst (hc.trans (hi.cause_eq_zero hne)), txWire_of_not_sending (by rw [hst]; rfl)⟩
  cases h with
  | waits p _ => exact ⟨hi, hw⟩
  | refused p e _ => exact ⟨hi, hw⟩
  | taken p hs hp hl => exact ⟨hi.after_accept hs hp hl, fun _ => ⟨s.txOut, by simp [sentCount, acceptTx]⟩⟩
  | start hs => exact sends (by rw [hs]; rfl) (hi.advances_start hs)
  | lenHi hs => exact sends (by rw [hs]; rfl) (hi.advances_lenHi hs)
  | lenLo hs => exact sends (by rw [hs]; rfl) (hi.advances_lenLo hs)
  | data v hs hv hsp =>
    refine sends (by rw [hs]; rfl) (hi.advances_data (j := 0) (.inl hs) hv ?_ ?_ ?_)
    · rw [escape_of_not_special hsp]; rfl
    · rw [escape_of_not_special hsp]; rfl
    · simp [sentCount, hs]
  | dataEsc1 v hs hv hsp => exact sends (by rw [hs]; rfl) (hi.advances_dataEsc1 hs hv hsp)
  | dataEsc2 v hs hv =>
    have hsp : isSpecial v = true := by simpa [hv] using hi.dataEsc hs
    refine sends (by rw [hs]; rfl) (hi.advances_data (j := 1) (.inr hs) hv ?_ ?_ ?_)
    · rw [escape_of_special hsp]; rfl
    · rw [escape_of_special hsp]; rfl
    · simp [sentCount, hs]
  | csumEsc1 hs hsp => exact sends (by rw [hs]; rfl) (hi.advances_csumEsc1 hs hsp)
  | csum hs _ => exact ends (by simp [hs]) rfl rfl
  | csumEsc2 hs => exact ends (by simp [hs]) rfl rfl
  | fail hs => exact ⟨txInv_of_dead rfl rfl, txWire_of_not_sending rfl⟩
  | finish hs => exact ends (by rcases hs with ⟨hs, _⟩ | hs <;> simp [hs]) rfl rfl

/-! ### Under the invariants the byte step selected completes -/

/-- R218, R219: the step selected in T_DATA completes on an index of the payload. -/
theorem exec_selectTxByte_of_data {s : State} (hst : s.tx.state = .data) {v : Byte} (hv : payByte s.tx = some v)
    {i : Instr} (h : selectTxByte s.tx = some i) : ∃ t, exec i s = .next t := by
  cases hsp : isSpecial v
  · obtain rfl : Instr.txData = i := by simpa [selectTxByte, hst, hv, hsp] using h
    exact ⟨_, by simp [exec, execTxData, hst, withPayByte, hv, hsp]; rfl⟩
  · obtain rfl : Instr.txDataEsc1 = i := by simpa [selectTxByte, hst, hv, hsp] using h
    exact ⟨_, by simp [exec, execTxDataEsc1, hst, withPayByte, hv, hsp]; rfl⟩

/-- R210, R211: under the invariants the step that TX selects on an OK answer completes. -/
theorem exec_selectTxByte_completes {s : State} (hi : TxInv s.cfg s.tx) {i : Instr} (h : selectTxByte s.tx = some i) :
    ∃ t, exec i s = .next t := by
  cases hst : s.tx.state with
  | idle | dead => simp [selectTxByte, hst] at h
  | data =>
    obtain ⟨v, hv⟩ := hi.exists_payByte (.inl hst)
    exact exec_selectTxByte_of_data hst hv h
  | dataEsc =>
    obtain ⟨v, hv⟩ := hi.exists_payByte (.inr hst)
    obtain rfl : Instr.txDataEsc2 = i := by simpa [selectTxByte, hst] using h
    exact ⟨_, by simp [exec, execTxDataEsc2, hst, withPayByte, hv]; rfl⟩
  | start | lenHi | lenLo | csum | csumEsc =>
    simp only [selectTxByte, hst, Option.some.injEq] at h
    subst h
    exact ⟨_, by simp [exec, execTxStart, execTxLenHi, execTxLenLo, execTxCsum, execTxCsumEsc2, hst]; rfl⟩

/-- R210, R211: under the invariants the step that TX selects on an answer completes. -/
theorem exec_selectTx_completes {s : State} (hi : TxInv s.cfg s.tx) {ok : Bool} {i : Instr}
    (h : selectTx s.tx ok = some i) : ∃ t, exec i s = .next t := by
  cases ok with
  | true => exact exec_selectTxByte_completes hi h
  | false =>
    obtain ⟨hs, rfl⟩ : s.tx.state.sending = true ∧ Instr.txFail = i := by simpa [selectTx] using h
    exact ⟨_, by rw [exec, execTxFail, hs, onlyIf_true]⟩

end Sys2Proof.Machine
end

section
/-! The invariant of the whole machine (R30, R43, R67(b), R291): it holds at reset, every step keeps it, and from a
state that keeps it every good input is taken. -/

open Sys2Proof.Statements

namespace Sys2Proof.Machine

/-! ### The allocator (R291, R292) -/

theorem fidSucc_ne_zero (v : Byte) : fidSucc v ≠ 0 := by
  unfold fidSucc
  split
  · decide
  · bv_omega

theorem fidSucc_ne_self (v : Byte) : fidSucc v ≠ v := by
  unfold fidSucc
  split
  · next h => rw [h]; decide
  · bv_omega

/-- R291: an id returned is neither 0 nor the reserved default. -/
theorem fidNext_valid (dflt last : Byte) : fidNext dflt last ≠ 0 ∧ fidNext dflt last ≠ dflt := by
  unfold fidNext
  split
  · next h => exact ⟨fidSucc_ne_zero _, by rw [h]; exact fidSucc_ne_self dflt⟩
  · next h => exact ⟨fidSucc_ne_zero _, h⟩

theorem fidMax_valid (dflt : Byte) : fidMax dflt ≠ 0 ∧ fidMax dflt ≠ dflt := by
  unfold fidMax
  split
  · next h => rw [h]; decide
  · next h => exact ⟨by decide, Ne.symm h⟩

/-! ### Reset -/

/-- R50: TX after reset keeps the invariants. -/
theorem reset_txInv (c : Cfg) : TxInv c Tx.reset := txInv_of_idle rfl rfl

theorem resetWith_inv {c : Cfg} (h : c.wf = true) : Inv (State.resetWith c) where
  cfg := h
  rx := reset_rxInv c
  tx := reset_txInv c
  wire := txWire_of_not_sending rfl
  fid := fidMax_valid c.fidDefault

/-- Settles O55: at reset RX is seeking, TX idle, and `fid.last` the greatest valid id. -/
theorem invariantHoldsAtReset : Obligations.InvariantHoldsAtReset :=
  ⟨fun _ h => resetWith_inv h, resetWith_inv (by decide)⟩

/-! ### What an operation leaves unchanged -/

/-- What a next state of any operation can be: RX's alone changed, TX's alone, or a function's result, and with
FID.NEXT the id last returned. -/
theorem exec_cases {i : Instr} {s t : State} (h : exec i s = .next t) :
    isRxOp i = true ∧ t = rxOnto t s ∨ isTxOp i = true ∧ t = txOnto t s ∨ (∃ r, t = setRet r s) ∨
      ∃ r, t = setRet r (setFid (fidNext s.cfg.fidDefault s.fidLast) s) := by
  cases hr : isRxOp i with
  | true => exact .inl ⟨rfl, exec_rx_frame hr h⟩
  | false =>
    cases ht : isTxOp i with
    | true => exact .inr (.inl ⟨rfl, exec_tx_frame ht h⟩)
    | false =>
      rcases exec_of_function hr ht s with ⟨r, hf⟩ | hf
      · rw [hf] at h
        cases h
        exact .inr (.inr (.inl ⟨r, rfl⟩))
      · rw [hf] at h
        cases h
        exact .inr (.inr (.inr ⟨_, rfl⟩))

theorem exec_env {i : Instr} {s t : State} (h : exec i s = .next t) : t.env = s.env := by
  rcases exec_cases h with ⟨_, h⟩ | ⟨_, h⟩ | ⟨r, h⟩ | ⟨r, h⟩ <;> rw [h] <;> rfl

/-- The invariant reads the configuration, the two agents' registers, the raw stream of TX and the allocator alone. -/
theorem Inv.congr {s t : State} (hi : Inv s) (hcfg : t.cfg = s.cfg) (hrx : t.rx = s.rx) (htx : t.tx = s.tx)
    (hout : t.txOut = s.txOut) (hfid : t.fidLast = s.fidLast) : Inv t where
  cfg := hcfg ▸ hi.cfg
  rx := by rw [hcfg, hrx]; exact hi.rx
  tx := by rw [hcfg, htx]; exact hi.tx
  wire := by
    have hw := hi.wire
    unfold TxWire at hw ⊢
    rwa [htx, hout]
  fid := by
    have hf := hi.fid
    unfold FidInv at hf ⊢
    rwa [hcfg, hfid]

theorem isTxOp_iff {i : Instr} : isTxOp i = true ↔ i = .finish ∨ i.format = .txStep := by
  cases i <;> simp [isTxOp, Instr.format]

/-- R30, R43, R223, R291: every operation by name keeps the invariant. -/
theorem exec_keeps_inv {i : Instr} {s t : State} (hi : Inv s) (h : exec i s = .next t) : Inv t := by
  rcases exec_cases h with ⟨hr, ht⟩ | ⟨hx, ht⟩ | ⟨r, rfl⟩ | ⟨r, rfl⟩
  · have hrx : RxInv t.cfg t.rx := exec_keeps_rxInv hr hi.rx h
    rw [ht] at hrx ⊢
    exact { cfg := hi.cfg, rx := hrx, tx := hi.tx, wire := hi.wire, fid := hi.fid }
  · obtain ⟨htx, hw⟩ := txStep_keeps_txInv hi.tx hi.wire (txOp_cases (isTxOp_iff.mp hx) h)
    rw [ht] at htx hw ⊢
    exact { cfg := hi.cfg, rx := hi.rx, tx := htx, wire := hw, fid := hi.fid }
  · exact hi.congr rfl rfl rfl rfl rfl
  · exact { cfg := hi.cfg, rx := hi.rx, tx := hi.tx, wire := hi.wire, fid := fidNext_valid _ _ }

/-! ### What is presented -/

/-- An operation fetched runs on the state as it is, but for a waiting request taken from its list (R213). -/
theorem fetchStimulus_run {st : Stimulus} {s u : State} {i : Instr} (h : fetchStimulus st s = .run i u) :
    ∃ w, u = setWaiting w s := by
  cases st <;> simp only [fetchStimulus] at h
  case take k =>
    split at h
    · split at h
      · cases h
      · cases h; exact ⟨_, rfl⟩
    · cases h
  case word | answer =>
    split at h
    · cases h; exact ⟨s.waiting, rfl⟩
    · cases h
  case call =>
    split at h
    · cases h; exact ⟨s.waiting, rfl⟩
    · cases h
  case eos | stop | send => cases h; exact ⟨s.waiting, rfl⟩
  case registry | encode | reset => cases h

/-- A move of the environment writes the result register alone, or is a reset. -/
theorem fetchStimulus_move {st : Stimulus} {s u : State} (h : fetchStimulus st s = .move u) :
    u = s ∨ (∃ r, u = setRet r s) ∨ u = applyReset s := by
  cases st <;> simp only [fetchStimulus] at h
  case take k =>
    split at h
    · split at h
      · cases h; exact .inl rfl
      · cases h
    · cases h; exact .inl rfl
  case word =>
    split at h <;> cases h
  case answer =>
    split at h
    · cases h
    · cases h; exact .inl rfl
  case call => split at h <;> cases h
  case eos | stop | send => cases h
  case registry k =>
    cases h
    exact (applyRegistry_cases k s).imp_right .inl
  case encode => cases h; exact .inr (.inl ⟨_, rfl⟩)
  case reset => cases h; exact .inr (.inr rfl)

/-- What a completed step is: nothing presented and nothing changed, a move of the environment, or an operation. -/
theorem step_cases {s t : State} (h : step s = .next t) :
    s.env = [] ∧ t = s ∨ ∃ st rest, s.env = st :: rest ∧
      (fetchStimulus st (setEnv rest s) = .move t ∨
        ∃ i u, fetchStimulus st (setEnv rest s) = .run i u ∧ exec i u = .next t) := by
  unfold step fetch at h
  cases henv : s.env with
  | nil =>
    simp only [henv] at h
    cases h
    exact .inl ⟨rfl, rfl⟩
  | cons st rest =>
    simp only [henv] at h
    refine .inr ⟨st, rest, rfl, ?_⟩
    split at h
    · next i u hf => exact .inr ⟨i, u, hf, h⟩
    · next u hf => cases h; exact .inl hf
    · cases h

/-- A step takes what is presented next and leaves the rest (log entry 3). -/
theorem step_env {s t : State} (h : step s = .next t) : t.env = s.env.tail := by
  rcases step_cases h with ⟨henv, rfl⟩ | ⟨st, rest, henv, hm | ⟨i, u, hf, hx⟩⟩
  · rw [henv]; rfl
  · rw [henv]
    rcases fetchStimulus_move hm with rfl | ⟨r, rfl⟩ | rfl <;> rfl
  · obtain ⟨w, rfl⟩ := fetchStimulus_run hf
    rw [henv, exec_env hx]
    rfl

theorem setEnv_inv {s : State} (hi : Inv s) (e : List Stimulus) : Inv (setEnv e s) := hi.congr rfl rfl rfl rfl rfl

theorem applyReset_inv {s : State} (hi : Inv s) : Inv (applyReset s) :=
  (resetWith_inv hi.cfg).congr rfl rfl rfl rfl rfl

/-- Settles O56: an operation fetched keeps the invariant, and a move of the environment writes nothing the invariant
reads, or resets the machine. -/
theorem stepKeepsTheInvariant : Obligations.StepKeepsTheInvariant := by
  intro s t hi h
  rcases step_cases h with ⟨_, rfl⟩ | ⟨st, rest, _, hm | ⟨i, u, hf, hx⟩⟩
  · exact hi
  · have hu := setEnv_inv hi rest
    rcases fetchStimulus_move hm with rfl | ⟨r, rfl⟩ | rfl
    · exact hu
    · exact hu.congr rfl rfl rfl rfl rfl
    · exact applyReset_inv hu
  · obtain ⟨w, rfl⟩ := fetchStimulus_run hf
    have hu : Inv (setWaiting w (setEnv rest s)) := hi.congr rfl rfl rfl rfl rfl
    exact exec_keeps_inv hu hx

/-! ### A good input is taken -/

theorem decodeSym8_format (b : Byte) : (decodeSym8 b).format = .sym8 := by
  unfold decodeSym8
  repeat' split
  all_goals rfl

theorem decodeFtype8_format (c : Byte) : (decodeFtype8 c).format = .ftype8 := by
  unfold decodeFtype8
  repeat' split
  all_goals rfl

theorem decodeStatus8_format (c : Byte) : (decodeStatus8 c).format = .status8 := by
  unfold decodeStatus8
  repeat' split
  all_goals rfl

theorem decodeEsc16_format {a e : Byte} {i : Instr} (h : decodeEsc16 a e = .ok i) : i.format = .esc16 := by
  unfold decodeEsc16 at h
  repeat' split at h
  all_goals cases h
  all_goals rfl

theorem decodeHdr24_format {a hi lo : Byte} {i : Instr} (h : decodeHdr24 a hi lo = .ok i) : i.format = .hdr24 := by
  unfold decodeHdr24 at h
  split at h <;> cases h
  rfl

theorem decodeFrame_format {bs : List Byte} {i : Instr} (h : decodeFrame bs = .ok i) : i.format = .frame := by
  unfold decodeFrame decodeFrameRest at h
  repeat' split at h
  all_goals cases h
  rfl

/-- R90: what the decoder reads from the bytes of a format is of that format, one with bits. -/
theorem format_of_decode {fmt : Format} {bs : List Byte} {i : Instr} (h : decode fmt bs = .ok i) :
    i.format = fmt ∧ fmt.hasBits = true := by
  cases fmt <;> simp only [decode] at h
  case sym8 | ftype8 | status8 =>
    split at h
    · cases h; simp [decodeSym8_format, decodeFtype8_format, decodeStatus8_format, Format.hasBits]
    · cases h
  case esc16 =>
    split at h
    · exact ⟨decodeEsc16_format h, rfl⟩
    · cases h
  case hdr24 =>
    split at h
    · exact ⟨decodeHdr24_format h, rfl⟩
    · cases h
  case frame => exact ⟨decodeFrame_format h, rfl⟩
  case rxStep | txStep | func => cases h

theorem exec_completes_of_function {i : Instr} (hr : isRxOp i = false) (ht : isTxOp i = false) (s : State) :
    ∃ t, exec i s = .next t := by
  rcases exec_of_function hr ht s with ⟨r, h⟩ | h
  · exact ⟨_, h⟩
  · exact ⟨_, h⟩

/-- The frame-type and status rows are functions. -/
theorem function_of_code_row {i : Instr} (h : i.format = .ftype8 ∨ i.format = .status8) :
    isRxOp i = false ∧ isTxOp i = false := by
  cases i <;> simp_all [isRxOp, isTxOp, Instr.format]

theorem function_of_pureFunc {i : Instr} (h : pureFunc i = true) : isRxOp i = false ∧ isTxOp i = false := by
  cases i <;> simp_all [isRxOp, isTxOp, pureFunc, Instr.format]

/-- R91, R94, R95, R99, R100: in a state that keeps the invariants of R30, every word is taken. -/
theorem exec_completes_of_hasBits {s : State} (hi : RxInv s.cfg s.rx) {i : Instr} (h : i.format.hasBits = true) :
    ∃ t, exec i s = .next t := by
  cases hf : i.format
  case sym8 | esc16 | hdr24 | frame =>
    rw [exec_eq_feed (by simp [hf])]
    exact feed_completes _ hi
  case ftype8 | status8 =>
    obtain ⟨hr, ht⟩ := function_of_code_row (i := i) (by simp [hf])
    exact exec_completes_of_function hr ht s
  case rxStep | txStep | func => simp [hf, Format.hasBits] at h

theorem exec_selectRx_completes {s : State} (hi : RxInv s.cfg s.rx) (sym : Symbol) :
    ∃ t, exec (selectRx s.rx sym) s = .next t := by
  rw [exec_selectRx]
  exact rxSymbol_completes hi sym

/-- A good input runs an operation that completes, or moves the environment. -/
theorem fetchStimulus_completes {s : State} (hi : Inv s) {st : Stimulus} (hok : st.ok = true) :
    (∃ u, fetchStimulus st s = .move u) ∨ ∃ i u t, fetchStimulus st s = .run i u ∧ exec i u = .next t := by
  cases st with
  | word fmt bs =>
    cases hd : decode fmt bs with
    | ok i =>
      obtain ⟨hfmt, hbits⟩ := format_of_decode hd
      obtain ⟨t, ht⟩ := exec_completes_of_hasBits hi.rx (i := i) (by rw [hfmt, hbits])
      exact .inr ⟨i, s, t, by simp [fetchStimulus, hd], ht⟩
    | error e => simp [Stimulus.ok, hd] at hok
  | eos =>
    obtain ⟨t, ht⟩ := exec_selectRx_completes hi.rx .eos
    exact .inr ⟨_, s, t, rfl, ht⟩
  | stop =>
    obtain ⟨t, ht⟩ := exec_selectRx_completes hi.rx .stop
    exact .inr ⟨_, s, t, rfl, ht⟩
  | send p => exact .inr ⟨_, s, _, rfl, rfl⟩
  | take k =>
    cases hw : s.waiting[k]? with
    | none => exact .inl ⟨s, by simp [fetchStimulus, hw]⟩
    | some p =>
      cases hs : s.tx.state.sending with
      | true => exact .inl ⟨s, by simp [fetchStimulus, hw, hs]⟩
      | false => exact .inr ⟨.txReq p, setWaiting (s.waiting.eraseIdx k) s, _, by simp [fetchStimulus, hw, hs], rfl⟩
  | answer ok =>
    cases hsel : selectTx s.tx ok with
    | none => exact .inl ⟨s, by simp [fetchStimulus, hsel]⟩
    | some i =>
      obtain ⟨t, ht⟩ := exec_selectTx_completes hi.tx hsel
      exact .inr ⟨i, s, t, by simp [fetchStimulus, hsel], ht⟩
  | call i =>
    obtain ⟨hp, hwf⟩ : pureFunc i = true ∧ i.wf = true := by simpa [Stimulus.ok] using hok
    obtain ⟨hr, hx⟩ := function_of_pureFunc hp
    obtain ⟨t, ht⟩ := exec_completes_of_function hr hx s
    exact .inr ⟨i, s, t, by simp [fetchStimulus, hwf], ht⟩
  | registry k => exact .inl ⟨_, rfl⟩
  | encode r => exact .inl ⟨_, rfl⟩
  | reset => exact .inl ⟨_, rfl⟩

/-- R35, R160, R210: from a state that keeps the invariant every step on good inputs completes. -/
theorem step_completes {s : State} (hi : Inv s) (henv : EnvOk s) : ∃ t, step s = .next t := by
  cases he : s.env with
  | nil => exact ⟨s, by simp [step, fetch, he]⟩
  | cons st rest =>
    have hok : st.ok = true := henv st (by simp [he])
    rcases fetchStimulus_completes (setEnv_inv hi rest) hok with ⟨u, hm⟩ | ⟨i, u, t, hf, hx⟩
    · exact ⟨u, by simp [step, fetch, he, hm]⟩
    · exact ⟨t, by simp [step, fetch, he, hf, hx]⟩

/-- Settles O57: the step completes, keeps the invariant, and leaves the rest of the inputs, which are good ones. -/
theorem stepAlwaysCompletes : Obligations.StepAlwaysCompletes := by
  intro s hi henv
  obtain ⟨t, ht⟩ := step_completes hi henv
  refine ⟨t, ht, stepKeepsTheInvariant s t hi ht, fun st hst => henv st ?_⟩
  rw [step_env ht] at hst
  exact List.mem_of_mem_tail hst

end Sys2Proof.Machine
end

section
/-! The registers of RX inside a frame are those of the logical bytes read (R30(g), R23, R24, R29); the laws of the
frame buffer; the status levels (R45). -/

namespace Sys2Proof.Machine

/-! ### Sums -/

/-- R130: the sum of a byte sequence is that of its values modulo 256. -/
theorem sumBytes_toNat (l : List Byte) : (sumBytes l).toNat = (l.map BitVec.toNat).sum % 256 := by
  induction l with
  | nil => rfl
  | cons b l ih => simp [BitVec.toNat_add, ih]

/-! ### The registers inside a frame -/

/-- RX, in a frame of length `n`, has read exactly the logical bytes `l` of its payload. -/
structure HasRead (c : Cfg) (n : Len) (l : List Byte) (r : Rx) : Prop where
  state : r.state = if l.length = n.toNat then .csum else .body
  esc : r.esc = false
  len : r.len = n
  cnt : r.cnt.toNat = l.length
  sum : r.sum = sumBytes l
  oversize : r.oversize = true ↔ c.rxMaxLen < n
  buf : r.oversize = false → ∀ i < l.length, bufRead r.buf i = l[i]?

/-- R164: after the length no logical byte has been read. -/
theorem hasRead_nil (c : Cfg) (n : Len) (r : Rx) : HasRead c n [] (lenLoRx c n r) where
  state := by
    by_cases hn : n = 0
    · simp [lenLoRx, hn]
    · have hn' : 0 ≠ n.toNat := by bv_omega
      rw [List.length_nil, if_neg hn']
      exact if_neg hn
  esc := rfl
  len := rfl
  cnt := rfl
  sum := rfl
  oversize := decide_eq_true_iff
  buf := nofun

section
variable {c : Cfg} {n : Len} {l : List Byte} {r : Rx}

theorem HasRead.body (hr : HasRead c n l r) (h : l.length < n.toNat) : r.state = .body := by
  rw [hr.state, if_neg (by omega)]

/-- R29: in BODY a store has an entry to go to, or there is none. -/
theorem HasRead.store_fits (hr : HasRead c n l r) (h : l.length < n.toNat) :
    r.oversize = true ∨ r.cnt < c.rxMaxLen := by
  rcases Decidable.em (c.rxMaxLen < n) with hn | hn
  · exact .inl (hr.oversize.mpr hn)
  · rw [BitVec.lt_def, hr.cnt]
    rw [BitVec.lt_def] at hn
    exact .inr (by omega)

/-- R173: a logical byte taken is the next one read. -/
theorem HasRead.after_accept (hr : HasRead c n l r) (h : l.length < n.toNat) (v : Byte) :
    HasRead c n (l ++ [v]) (acceptRx v r) := by
  have hcnt : (r.cnt + 1).toNat = l.length + 1 := by
    have := hr.cnt
    have := n.isLt
    bv_omega
  constructor
  case state =>
    have hiff : r.cnt + 1 = r.len ↔ (l ++ [v]).length = n.toNat := by
      rw [hr.len, ← BitVec.toNat_inj, hcnt, List.length_append]
      rfl
    show (if r.cnt + 1 = r.len then RxSeq.csum else r.state) = _
    rw [hr.body h]
    simp only [hiff]
  case esc => exact hr.esc
  case len => exact hr.len
  case cnt => rw [List.length_append]; exact hcnt
  case sum =>
    show r.sum + v = _
    rw [hr.sum, sumBytes_append]
    simp
  case oversize => exact hr.oversize
  case buf =>
    intro (ho : r.oversize = false) i hi
    rw [acceptRx_buf_of_fits ho, bufRead_bufWrite, hr.cnt]
    by_cases hil : i = l.length
    · simp [hil]
    · rw [List.length_append, List.length_singleton] at hi
      have hlt : i < l.length := by omega
      rw [if_neg hil, hr.buf ho i hlt, List.getElem?_append_left hlt]

end

section
variable {s : State} {n : Len} {l : List Byte}

/-- R171: in BODY a byte other than the marker is a logical byte. -/
theorem HasRead.feed_literal (hr : HasRead s.cfg n l s.rx) (h : l.length < n.toNat) {b : Byte} (hb : b ≠ escByte)
    (raw : List Byte) : feed (b :: raw) s = feed raw (setRx (acceptRx b s.rx) s) := by
  rw [feed_cons, rxSymbol_byte_of_body (hr.body h), opBodyByte, if_neg (by simp [hr.esc]), if_neg hb,
    opAccept_of_fits (hr.store_fits h), andThen_next]

/-- R170, R172: in BODY the marker and the byte after it are a logical byte. -/
theorem HasRead.feed_pair (hr : HasRead s.cfg n l s.rx) (h : l.length < n.toNat) (e : Byte) (raw : List Byte) :
    feed (escByte :: e :: raw) s = feed raw (setRx (acceptRx (e ^^^ escXor) s.rx) s) := by
  have hm : rxSymbol (.byte escByte) s = .next (setRx { s.rx with esc := true } s) := by
    rw [rxSymbol_byte_of_body (hr.body h), opBodyByte, if_neg (by simp [hr.esc]), if_pos rfl, opEscSet]
  have he : rxSymbol (.byte e) (setRx { s.rx with esc := true } s) =
      .next (setRx (acceptRx (e ^^^ escXor) s.rx) s) := by
    have := opAccept_escClear_eq (hr.body h) (e ^^^ escXor)
    rw [xor_escXor_xor_escXor, escClear_of_clear hr.esc, opAccept_of_fits (hr.store_fits h)] at this
    exact this.symm
  rw [feed_cons, hm, andThen_next, feed_cons, he, andThen_next]

end

/-- From any point of a frame of length `n`, if the raw bytes stand for logical bytes of its payload, feeding them
leaves RX having read these too, with no event. -/
def ReadsPayload (n : Len) (raw : List Byte) : Prop :=
  ∀ (s : State) (l m : List Byte), HasRead s.cfg n l s.rx → unstuff raw = some m →
    l.length + m.length ≤ n.toNat →
    ∃ t, feed raw s = .next t ∧ HasRead s.cfg n (l ++ m) t.rx ∧ t.rxEvents = s.rxEvents

theorem readsPayload_nil (n : Len) : ReadsPayload n [] := by
  intro s l m hr hu _
  cases hu
  exact ⟨s, rfl, by simpa using hr, rfl⟩

/-- If raw bytes do to RX what a logical byte `v` and the bytes `raw` do, they read the payload as `raw` does. -/
theorem ReadsPayload.cons {n : Len} {raw raw' : List Byte} {v : Byte} (ih : ReadsPayload n raw)
    (hun : unstuff raw' = (unstuff raw).map (v :: ·))
    (hfeed : ∀ (s : State) (l : List Byte), HasRead s.cfg n l s.rx → l.length < n.toNat →
      feed raw' s = feed raw (setRx (acceptRx v s.rx) s)) : ReadsPayload n raw' := by
  intro s l m hr hu hlen
  rw [hun, Option.map_eq_some_iff] at hu
  obtain ⟨m', hm', rfl⟩ := hu
  rw [List.length_cons] at hlen
  have hlt : l.length < n.toNat := by omega
  have hlen' : (l ++ [v]).length + m'.length ≤ n.toNat := by
    rw [List.length_append, List.length_singleton]
    omega
  obtain ⟨t, ht, hr', hev⟩ := ih (setRx (acceptRx v s.rx) s) (l ++ [v]) m' (hr.after_accept hlt v) hm' hlen'
  refine ⟨t, (hfeed s l hr hlt).trans ht, ?_, hev⟩
  rwa [List.append_assoc] at hr'

theorem readsPayload_literal {n : Len} {raw : List Byte} {b : Byte} (hb : b ≠ escByte) (ih : ReadsPayload n raw) :
    ReadsPayload n (b :: raw) :=
  ih.cons (unstuff_cons_of_ne hb raw) fun _ _ hr hlt => hr.feed_literal hlt hb raw

theorem readsPayload_pair {n : Len} {raw : List Byte} (e : Byte) (ih : ReadsPayload n raw) :
    ReadsPayload n (escByte :: e :: raw) :=
  ih.cons (unstuff_cons_cons_esc e raw) fun _ _ hr hlt => hr.feed_pair hlt e raw

/-- R30(g): any raw bytes read the payload they stand for. -/
theorem readsPayload (n : Len) (raw : List Byte) : ReadsPayload n raw := by
  induction raw using unstuff.induct with
  | case1 => exact readsPayload_nil n
  | case2 => exact fun _ _ _ _ hu => by simp [unstuff] at hu
  | case3 b hb => exact readsPayload_literal hb (readsPayload_nil n)
  | case4 e rest ih => exact readsPayload_pair e ih
  | case5 b e rest hb ih => exact readsPayload_literal hb ih

/-- Settles O59: the low length byte starts the frame with nothing read, and the raw bytes read the payload. -/
theorem runningSumIsTheSumOfTheLogicalBytes : Obligations.RunningSumIsTheSumOfTheLogicalBytes := by
  intro s b raw l n hst hn hu hl
  have hlen : lenDecode (hiByte s.rx.len) b = n := by
    apply BitVec.eq_of_toNat_eq
    have := s.rx.len.isLt
    have := b.isLt
    rw [lenDecode_toNat, hiByte_toNat, hn, BitVec.toNat_ofNat]
    omega
  have hb : rxSymbol (.byte b) s = .next (setRx (lenLoRx s.cfg n s.rx) s) := by
    simp only [rxSymbol, hst, opLenLo, hlen]
  obtain ⟨t, ht, hr, hev⟩ := readsPayload n raw (setRx (lenLoRx s.cfg n s.rx) s) [] l
    (hasRead_nil s.cfg n s.rx) hu (by simpa using hl)
  rw [List.nil_append] at hr
  refine ⟨t, ?_, hr.state, hr.esc, hr.len, hr.cnt, ?_, hr.oversize, hr.buf, hev⟩
  · rw [feed_cons, hb, andThen_next, ht]
  · rw [hr.sum, sumBytes_toNat]

/-! ### The frame buffer and the status levels -/

/-- Settles O58: read after write at every index, and the canonical form kept. -/
theorem bufferLaws : Obligations.BufferLaws := fun m a b v =>
  ⟨bufRead_bufWrite_self m a v, fun hb => by rw [bufRead_bufWrite, if_neg hb], bufWrite_wf a v⟩

theorem inFrame_iff (q : RxSeq) : q.inFrame = true ↔ q = .lenHi ∨ q = .lenLo ∨ q = .body ∨ q = .csum := by
  cases q <;> simp [RxSeq.inFrame]

theorem sending_iff (q : TxSeq) : q.sending = true ↔ q ≠ .idle ∧ q ≠ .dead := by
  cases q <;> simp [TxSeq.sending]

/-- Settles O37: three levels are tests of one state, the other two of a set of states. -/
theorem statusLevelsFollowTheSequencers : Obligations.StatusLevelsFollowTheSequencers := fun s =>
  ⟨beq_iff_eq, beq_iff_eq, inFrame_iff s.rx.state, sending_iff s.tx.state, beq_iff_eq⟩

end Sys2Proof.Machine
end

section
/-! The step and the outputs: over any step but a reset every output only grows, by at most one raw byte (R60, R66,
R70, R71, R38), and a step with nothing to do changes nothing (R62, R210, R354). -/

open Sys2Proof.Statements

namespace Sys2Proof.Machine

/-! ### The outputs only grow -/

/-- Every output of `s` is a first part of that of `t`, `t` has sent at most one raw byte more, and the configuration
is the same. -/
def OutputsGrow (s t : State) : Prop :=
  s.rxEvents <+: t.rxEvents ∧ s.rxTrace <+: t.rxTrace ∧ s.txOut <+: t.txOut ∧ s.txEvents <+: t.txEvents ∧
    t.txOut.length ≤ s.txOut.length + 1 ∧ t.cfg = s.cfg

theorem outputsGrow_refl (s : State) : OutputsGrow s s :=
  ⟨List.prefix_rfl, List.prefix_rfl, List.prefix_rfl, List.prefix_rfl, Nat.le_succ _, rfl⟩

theorem opAccept_rxOutputs {v : Byte} {s t : State} (h : opAccept v s = .next t) :
    t.rxEvents = s.rxEvents ∧ t.rxTrace = s.rxTrace := by
  rw [opAccept_eq_next h]
  exact ⟨rfl, rfl⟩

theorem opVerify_rxOutputs {c : Byte} {s t : State} (h : opVerify c s = .next t) :
    s.rxEvents <+: t.rxEvents ∧ t.rxTrace = s.rxTrace := by
  rw [opVerify_eq_next h, endFrame_eq]
  exact ⟨List.prefix_append _ _, rfl⟩

/-- R71, R38: an operation of RX only adds to RX's outputs. -/
theorem exec_rxOutputs_prefix {i : Instr} (hi : isRxOp i = true) {s t : State} (h : exec i s = .next t) :
    s.rxEvents <+: t.rxEvents ∧ s.rxTrace <+: t.rxTrace := by
  rcases isRxOp_cases hi with ⟨sym, hsym⟩ | hfmt | ⟨v, rfl⟩ | ⟨c, rfl⟩
  · exact (rxSymbol_frame (rxSymbol_of_exec hsym h)).2
  · exact (feed_frame _ (exec_eq_feed hfmt s ▸ h)).2
  · obtain ⟨hev, htr⟩ := opAccept_rxOutputs (onlyIf_eq_next.mp h).2
    rw [hev, htr]
    exact ⟨List.prefix_rfl, List.prefix_rfl⟩
  · obtain ⟨hev, htr⟩ := opVerify_rxOutputs (onlyIf_eq_next.mp h).2
    rw [htr]
    exact ⟨hev, List.prefix_rfl⟩

/-- R60, R66: an operation of TX adds at most one raw byte to the raw stream. -/
theorem TxStepTo.txOut_eq {i : Instr} {s t : State} (h : TxStepTo s i t) :
    ∃ bs, bs.length ≤ 1 ∧ t.txOut = s.txOut ++ bs := by
  cases h with
  | waits | refused | taken | fail | finish => exact ⟨[], Nat.zero_le _, (List.append_nil _).symm⟩
  | start | lenHi | lenLo | data | dataEsc1 | dataEsc2 | csumEsc1 | csum | csumEsc2 => exact ⟨[_], Nat.le_refl _, rfl⟩

/-- R42: an operation of TX only adds to the completion events. -/
theorem TxStepTo.txEvents_prefix {i : Instr} {s t : State} (h : TxStepTo s i t) : s.txEvents <+: t.txEvents := by
  cases h with
  | refused | csum | csumEsc2 | fail | finish => exact List.prefix_append _ _
  | waits | taken | start | lenHi | lenLo | data | dataEsc1 | dataEsc2 | csumEsc1 => exact List.prefix_rfl

/-- R60, R66, R70, R71, R38: the outputs only grow over any operation by name. -/
theorem exec_outputsGrow {i : Instr} {s t : State} (h : exec i s = .next t) : OutputsGrow s t := by
  rcases exec_cases h with ⟨hr, ht⟩ | ⟨hx, ht⟩ | ⟨r, rfl⟩ | ⟨r, rfl⟩
  · obtain ⟨hev, htr⟩ := exec_rxOutputs_prefix hr h
    rw [ht]
    exact ⟨hev, htr, List.prefix_rfl, List.prefix_rfl, Nat.le_succ _, rfl⟩
  · have hstep := txOp_cases (isTxOp_iff.mp hx) h
    obtain ⟨bs, hlen, hout⟩ := hstep.txOut_eq
    have hev := hstep.txEvents_prefix
    have hcfg : t.cfg = s.cfg := by rw [ht]; rfl
    have hrxEv : t.rxEvents = s.rxEvents := by rw [ht]; rfl
    have hrxTr : t.rxTrace = s.rxTrace := by rw [ht]; rfl
    rw [OutputsGrow, hrxEv, hrxTr, hout, List.length_append]
    exact ⟨List.prefix_rfl, List.prefix_rfl, List.prefix_append _ _, hev, by omega, hcfg⟩
  · exact outputsGrow_refl s
  · exact outputsGrow_refl s

/-- A move of the environment other than a reset writes the result register alone. -/
theorem fetchStimulus_move_of_ne_reset {st : Stimulus} {s u : State} (hne : st ≠ .reset)
    (h : fetchStimulus st s = .move u) : u = s ∨ ∃ r, u = setRet r s := by
  cases st <;> simp only [fetchStimulus] at h
  case reset => exact absurd rfl hne
  case registry k =>
    cases h
    exact applyRegistry_cases k s
  case encode => cases h; exact .inr ⟨_, rfl⟩
  case eos | stop | send => cases h
  case word | take | answer | call =>
    repeat' split at h
    all_goals cases h
    all_goals exact .inl rfl

/-- Settles O40: an operation fetched runs on the outputs as they are and adds to them; a move of the environment other
than a reset writes none. -/
theorem outputsOnlyGrow : Obligations.OutputsOnlyGrow := by
  intro s t h hne
  rcases step_cases h with ⟨_, ht⟩ | ⟨st, rest, henv, hm | ⟨i, u, hf, hx⟩⟩
  · rw [ht]
    exact outputsGrow_refl s
  · have hst : st ≠ .reset := by
      rintro rfl
      exact hne (by rw [henv]; rfl)
    rcases fetchStimulus_move_of_ne_reset hst hm with rfl | ⟨r, rfl⟩ <;> exact outputsGrow_refl s
  · obtain ⟨w, rfl⟩ := fetchStimulus_run hf
    have hgrow : OutputsGrow (setWaiting w (setEnv rest s)) t := exec_outputsGrow hx
    exact hgrow

/-! ### A step with nothing to do -/

/-- Where what is presented runs no operation, the step is the environment's move. -/
theorem step_of_move {s u : State} {st : Stimulus} {rest : List Stimulus} (henv : s.env = st :: rest)
    (hm : fetchStimulus st (setEnv rest s) = .move u) : step s = .next u := by
  simp only [step, fetch, henv, hm]

/-- R62, R354: with nothing presented the block waits. -/
theorem step_of_env_nil {s : State} (henv : s.env = []) : step s = .next s := by
  simp only [step, fetch, henv]

/-- R210: where no byte step is enabled, no answer of the sink selects one. -/
theorem selectTx_of_not_sending {t : Tx} (h : t.state.sending = false) (ok : Bool) : selectTx t ok = none := by
  cases ok with
  | false => simp [selectTx, h]
  | true =>
    rcases TxSeq.cases_mode t.state with hst | hst | hst
    · simp [selectTx, selectTxByte, hst]
    · simp [hst] at h
    · simp [selectTx, selectTxByte, hst]

/-- R213: a request is not taken while TX is sending, or where none waits at that place. -/
theorem fetchStimulus_take_of_not_taken {k : Nat} {s : State}
    (h : s.tx.state.sending = true ∨ s.waiting[k]? = none) : fetchStimulus (.take k) s = .move s := by
  cases hw : s.waiting[k]? with
  | none => simp only [fetchStimulus, hw]
  | some p =>
    have hs : s.tx.state.sending = true := h.resolve_right (by simp [hw])
    simp only [fetchStimulus, hw, hs, if_true]

theorem fetchStimulus_answer_of_not_sending {s : State} (h : s.tx.state.sending = false) (ok : Bool) :
    fetchStimulus (.answer ok) s = .move s := by
  simp only [fetchStimulus, selectTx_of_not_sending h]

/-- An event that is no frame, or none, is not the registry's business (log entry 38). -/
theorem applyRegistry_of_not_frame {k : Nat} {s : State} (h : ∀ ft data, s.rxEvents[k]? ≠ some (.frame ft data)) :
    applyRegistry k s = s := by
  unfold applyRegistry
  split
  · next ft data hk => exact absurd hk (h ft data)
  · rfl

/-- Settles O53: what is presented, if anything, moves the environment to the state it is in. -/
theorem stepWaits : Obligations.StepWaits := by
  intro s
  refine ⟨step_of_env_nil, fun k rest henv h => ?_, fun ok rest henv h => ?_, fun k rest henv h => ?_⟩
  · exact step_of_move henv (fetchStimulus_take_of_not_taken (s := setEnv rest s) h)
  · exact step_of_move henv (fetchStimulus_answer_of_not_sending (s := setEnv rest s) h ok)
  · exact step_of_move henv (congrArg Fetched.move (applyRegistry_of_not_frame (s := setEnv rest s) h))

end Sys2Proof.Machine
end

section
/-! The encoding: the decoder and the encoder are each other's inverse (R91, R94, R95, R99, R100, R105), and the rows of
raw bytes, pairs, headers and frames are the RX steps their bytes select (R160). -/

open Sys2Proof.Statements

namespace Sys2Proof

/-! ### Decoding what was encoded -/

/-- Settles O1: of a row with fixed bits by evaluation, of a catch-all row or a frame by its round trip. -/
theorem decodeOfEncodeIsTheOperation : Obligations.DecodeOfEncodeIsTheOperation := by
  intro i hwf hbits
  cases i
  case plain v => exact Laws.RoundTrip.plain v hwf hbits
  case escAny e => exact Laws.RoundTrip.escAny e hwf hbits
  case frame p => exact Laws.RoundTrip.frame p hwf hbits
  case ftOther c => exact Laws.RoundTrip.ftOther c hwf hbits
  case stUnknown c => exact Laws.RoundTrip.stUnknown c hwf hbits
  case start | esc | xon | xoff | escStart | escEsc | escXon | escXoff | hdr => rfl
  case ftLocalCmdResponse | ftRemoteCmdResponse | ftIoSample | ftRemoteCmdRequest | ftUnmappedExample => rfl
  case stOk | stError | stInvalidCommand | stInvalidParameter | stTransmissionFailure | stNoSecureSession
    | stEncryptionError | stSentInsecurely => rfl
  all_goals exact absurd hbits Bool.false_ne_true

/-! ### Encoding what was decoded -/

/-- The operation `i` is well-formed and `bs` are its bytes. -/
def Reads (bs : List Byte) (i : Instr) : Prop := i.wf = true ∧ encode i = bs

theorem decodeSym8_reads (b : Byte) : Reads [b] (decodeSym8 b) := by
  unfold decodeSym8
  split_ifs with h1 h2 h3 h4
  case neg =>
    have hb : isSpecial b = false := isSpecial_eq_false_iff.mpr ⟨h1, h2, h3, h4⟩
    exact ⟨by simp [Instr.wf, hb], rfl⟩
  all_goals subst b; exact ⟨rfl, rfl⟩

theorem decodeFtype8_reads (c : Byte) : Reads [c] (decodeFtype8 c) := by
  unfold decodeFtype8
  split_ifs
  case neg => exact ⟨by simp_all [Instr.wf, ftypeCodes], rfl⟩
  all_goals subst c; exact ⟨rfl, rfl⟩

theorem decodeStatus8_reads (c : Byte) : Reads [c] (decodeStatus8 c) := by
  unfold decodeStatus8
  split_ifs
  case neg => exact ⟨by simp_all [Instr.wf, statusCodes], rfl⟩
  all_goals subst c; exact ⟨rfl, rfl⟩

/-- R95: a second byte that is in no canonical pair does not stand for a special byte. -/
theorem not_isSpecial_xor_of_ne {e : Byte} (h1 : e ≠ 0x5E) (h2 : e ≠ 0x5D) (h3 : e ≠ 0x31) (h4 : e ≠ 0x33) :
    isSpecial (e ^^^ escXor) = false := by
  by_contra hs
  rcases isSpecial_eq_true_iff.mp (Bool.not_eq_false _ ▸ hs) with h | h | h | h
  all_goals
    have he := congrArg (· ^^^ escXor) h
    simp only [xor_escXor_xor_escXor] at he
    contradiction

theorem decodeEsc16_reads {a e : Byte} {i : Instr} (h : decodeEsc16 a e = .ok i) : Reads [a, e] i := by
  unfold decodeEsc16 at h
  split_ifs at h with ha h1 h2 h3 h4
  all_goals obtain rfl : a = escByte := not_not.mp ha
  case neg =>
    cases h
    exact ⟨by simp [Instr.wf, not_isSpecial_xor_of_ne h1 h2 h3 h4], rfl⟩
  all_goals cases h; subst e; exact ⟨rfl, rfl⟩

theorem decodeHdr24_reads {a hi lo : Byte} {i : Instr} (h : decodeHdr24 a hi lo = .ok i) : Reads [a, hi, lo] i := by
  unfold decodeHdr24 at h
  split_ifs at h with ha
  cases h
  obtain rfl : a = startByte := not_not.mp ha
  exact ⟨rfl, rfl⟩

/-- R93: logical bytes one more than the length are a payload of the length and the checksum byte. -/
theorem eq_take_append_getD {l : List Byte} {n : Nat} (h : l.length = n + 1) : l = l.take n ++ [l.getD n 0] := by
  have hn : n < l.length := by omega
  rw [List.getD_eq_getElem l 0 hn, List.take_append_getElem hn, List.take_of_length_le (by omega)]

/-- R91: the payload, the length and the stuffed part the decoder reads a frame from. -/
theorem decodeFrameRest_eq_ok {n : Len} {raw : List Byte} {i : Instr} (h : decodeFrameRest n raw = .ok i) :
    ∃ p, i = .frame p ∧ p.length = n.toNat ∧ raw = stuff (p ++ [checksum p]) := by
  unfold decodeFrameRest at h
  split at h
  · cases h
  · next l _ =>
    split_ifs at h with hlen hver hraw
    cases h
    have hl := eq_take_append_getD (not_not.mp hlen)
    have hc := (verify_eq_true_iff _ _).mp (Bool.not_eq_false _ ▸ hver)
    rw [hc] at hl
    exact ⟨_, rfl, List.length_take_of_le (by omega), by rw [← hl, not_not.mp hraw]⟩

theorem decodeFrame_reads {bs : List Byte} {i : Instr} (h : decodeFrame bs = .ok i) : Reads bs i := by
  unfold decodeFrame at h
  split at h
  case h_4 a hi lo raw =>
    split_ifs at h with ha
    obtain rfl : a = startByte := not_not.mp ha
    obtain ⟨p, rfl, hlen, rfl⟩ := decodeFrameRest_eq_ok h
    have hn : BitVec.ofNat 16 p.length = lenDecode hi lo := by rw [hlen, BitVec.ofNat_toNat, BitVec.setWidth_eq]
    have hwf : p.length ≤ 65535 := by have := (lenDecode hi lo).isLt; omega
    exact ⟨decide_eq_true hwf, by rw [encode, frameBytes_eq, hn, hiByte_lenDecode, loByte_lenDecode]⟩
  all_goals cases h

/-- R91, R94, R95, R99, R100: what the decoder reads is well-formed, and these are its bytes. -/
theorem decode_reads {fmt : Format} {bs : List Byte} {i : Instr} (h : decode fmt bs = .ok i) : Reads bs i := by
  cases fmt <;> simp only [decode] at h
  case sym8 | ftype8 | status8 =>
    split at h
    · cases h; simp only [decodeSym8_reads, decodeFtype8_reads, decodeStatus8_reads]
    · cases h
  case esc16 =>
    split at h
    · exact decodeEsc16_reads h
    · cases h
  case hdr24 =>
    split at h
    · exact decodeHdr24_reads h
    · cases h
  case frame => exact decodeFrame_reads h
  case rxStep | txStep | func => cases h

/-- Settles O2: each format's decoder tests what well-formedness asks for, and a frame's decoder that its raw bytes are
the stuffing of its logical bytes. -/
theorem encodeOfDecodeIsTheBytes : Obligations.EncodeOfDecodeIsTheBytes := by
  intro fmt bs i h
  obtain ⟨hwf, henc⟩ := decode_reads h
  exact ⟨hwf, (Machine.format_of_decode h).1, henc⟩

/-- Settles O3, by evaluation of the decoder on each word. -/
theorem wordsOfTheSpecDecode : Obligations.WordsOfTheSpecDecode := by
  unfold Obligations.WordsOfTheSpecDecode
  exact ⟨rfl, rfl, rfl, rfl, rfl, rfl, rfl, rfl, rfl, rfl, rfl, by decide, by decide, by decide⟩

end Sys2Proof

namespace Sys2Proof.Machine

/-! ### Raw bytes run the selected steps -/

theorem opAccept_ne_refused (v : Byte) (s : State) (r : Refusal) : opAccept v s ≠ .refused r := by
  unfold opAccept
  split <;> nofun

theorem opVerify_ne_refused (c : Byte) (s : State) (r : Refusal) : opVerify c s ≠ .refused r := by
  unfold opVerify
  repeat' split
  all_goals nofun

theorem opBodyByte_ne_refused (b : Byte) (s : State) (r : Refusal) : opBodyByte b s ≠ .refused r := by
  unfold opBodyByte
  split_ifs
  · exact opAccept_ne_refused _ _ r
  · nofun
  · exact opAccept_ne_refused _ _ r

theorem opCsumByte_ne_refused (b : Byte) (s : State) (r : Refusal) : opCsumByte b s ≠ .refused r := by
  unfold opCsumByte
  split_ifs
  · exact opVerify_ne_refused _ _ r
  · nofun
  · exact opVerify_ne_refused _ _ r

/-- R160: RX refuses no raw byte. -/
theorem rxSymbol_byte_ne_refused (b : Byte) (s : State) (r : Refusal) : rxSymbol (.byte b) s ≠ .refused r := by
  unfold rxSymbol
  cases s.rx.state
  case seek => dsimp only; split <;> nofun
  case body => exact opBodyByte_ne_refused b s r
  case csum => exact opCsumByte_ne_refused b s r
  all_goals nofun

/-- Settles O20: a row is its bytes fed in order, and a byte fed is the step the state selects for it. -/
theorem rawByteRowsRunTheSelectedStep : Obligations.RawByteRowsRunTheSelectedStep := by
  refine ⟨fun s i _ hfmt => exec_eq_feed hfmt s, feed_nil, fun s b bs => ?_⟩
  rw [exec_selectRx, feed_cons]
  refine ⟨fun t ht => ?_, fun f hf => ?_, rxSymbol_byte_ne_refused b s⟩
  · rw [ht, andThen_next]
  · rw [hf, andThen_fault]

/-- Settles O21: under the invariants RX takes the bytes of a row one after another, each step keeping them and adding
to RX's outputs alone. -/
theorem rowsOfRawBytesComplete : Obligations.RowsOfRawBytesComplete := by
  intro s i b hi lo p hmem hinv
  have hfmt : i.format ∈ [Format.sym8, .esc16, .hdr24, .frame] := by
    simp only [List.mem_cons, List.not_mem_nil, or_false] at hmem
    rcases hmem with rfl | rfl | rfl | rfl | rfl | rfl | rfl | rfl | rfl | rfl | rfl | rfl <;> simp [Instr.format]
  rw [exec_eq_feed hfmt]
  obtain ⟨t, ht⟩ := feed_completes (encode i) hinv
  exact ⟨t, ht, feed_keeps_rxInv _ hinv ht, feed_frame _ ht⟩

/-! ### Logical bytes -/

/-- R170, R176: in BODY and in CSUM the escape marker sets the escape bit. -/
theorem rxSymbol_escByte {s : State} (hst : s.rx.state = .body ∨ s.rx.state = .csum) (he : s.rx.esc = false) :
    rxSymbol (.byte escByte) s = .next (setRx { s.rx with esc := true } s) := by
  have hne : ¬ s.rx.esc = true := by simp [he]
  rcases hst with hst | hst
  · rw [rxSymbol_byte_of_body hst, opBodyByte, if_neg hne, if_pos rfl, opEscSet]
  · rw [rxSymbol_byte_of_csum hst, opCsumByte, if_neg hne, if_pos rfl, opEscSet]

/-- R170, R172: in BODY an escape pair is taken as its logical byte. -/
theorem feed_pair_of_body {s : State} (hst : s.rx.state = .body) (he : s.rx.esc = false) (v : Byte) :
    feed [escByte, v ^^^ escXor] s = opAccept v (escClear s) := by
  rw [feed_cons, rxSymbol_escByte (.inl hst) he, andThen_next, feed_singleton, opAccept_escClear_eq hst]

/-- R176, R178: in CSUM an escape pair is verified as its logical byte. -/
theorem feed_pair_of_csum {s : State} (hst : s.rx.state = .csum) (he : s.rx.esc = false) (c : Byte) :
    feed [escByte, c ^^^ escXor] s = opVerify c (escClear s) := by
  rw [feed_cons, rxSymbol_escByte (.inr hst) he, andThen_next, feed_singleton, opVerify_escClear_eq hst]

/-- R173, R29: the buffer after a logical byte, at every index. -/
theorem bufRead_acceptRx (v : Byte) (r : Rx) (a : Nat) :
    bufRead (acceptRx v r).buf a = if r.oversize = false ∧ a = r.cnt.toNat then some v else bufRead r.buf a := by
  cases ho : r.oversize with
  | true => simp [acceptRx, ho]
  | false => simp [acceptRx_buf_of_fits ho, bufRead_bufWrite]

/-- R173: in BODY a byte whose store fits is accepted. -/
theorem accepted_opAccept {s : State} (hst : s.rx.state = .body) (hf : StoreFits s) (v : Byte) :
    Accepted v s (opAccept v (escClear s)) := by
  refine ⟨(acceptRx v s.rx).buf, ?_, bufRead_acceptRx v s.rx⟩
  rw [opAccept_of_fits (s := escClear s) hf, ← hst]
  rfl

/-- A slice reads its entries in order (R9). -/
theorem bufSlice_eq_map (m : List Host.Cell) (a n : Nat) :
    bufSlice m a n = (List.range n).map fun i => bufByte m (i + a) := by
  induction n with
  | zero => rfl
  | succ n ih => rw [bufSlice_succ, ih, List.range_succ, List.map_append, List.map_singleton, Nat.add_comm a n]

theorem verifyEvent_eq_verdict (c : Byte) (s : State) : verifyEvent c s = verdict c s := by
  unfold verifyEvent verdict frameEvent
  rw [bufSlice_eq_map]
  rfl

/-- R180: a checksum byte whose read fits is verified. -/
theorem verified_opVerify {s : State} (hf : ReadFits s) (c : Byte) : Verified c s (opVerify c (escClear s)) := by
  rw [Verified, opVerify_of_fits (s := escClear s) hf, verifyEvent_escClear, verifyEvent_eq_verdict, endFrame_eq]
  rfl

/-- Settles O22: each row is the marker and the flipped byte, and RX reads these two as the logical byte. -/
theorem escapePairIsOneLogicalByte : Obligations.EscapePairIsOneLogicalByte := by
  intro s i e v hmem he
  have hexec : exec i s = feed [escByte, v ^^^ escXor] s := by
    simp only [List.mem_cons, List.not_mem_nil, or_false, Prod.mk.injEq] at hmem
    rcases hmem with ⟨rfl, rfl⟩ | ⟨rfl, rfl⟩ | ⟨rfl, rfl⟩ | ⟨rfl, rfl⟩ | ⟨rfl, rfl⟩
    case inr.inr.inr.inr => rw [show e ^^^ 0x20 ^^^ escXor = e from xor_escXor_xor_escXor e]; rfl
    all_goals rfl
  rw [hexec]
  refine ⟨fun hst hf => ?_, fun hst hf => ?_⟩
  · rw [feed_pair_of_body hst he]
    exact accepted_opAccept hst hf v
  · rw [feed_pair_of_csum hst he]
    exact verified_opVerify hf v

/-! ### The header -/

theorem rxSymbol_startByte_of_seek {s : State} (h : s.rx.state = .seek) : rxSymbol (.byte startByte) s = opStart s := by
  simp only [rxSymbol, h, if_true]

theorem rxSymbol_byte_of_lenHi {s : State} (h : s.rx.state = .lenHi) (b : Byte) :
    rxSymbol (.byte b) s = opLenHi b s := by simp only [rxSymbol, h]

theorem rxSymbol_byte_of_lenLo {s : State} (h : s.rx.state = .lenLo) (b : Byte) :
    rxSymbol (.byte b) s = opLenLo b s := by simp only [rxSymbol, h]

/-- R162, R163, R164: a header in SEEK does what R164 does with its length. -/
theorem feed_header {s : State} (hst : s.rx.state = .seek) (hi lo : Byte) :
    feed [startByte, hi, lo] s = .next (setRx (lenLoRx s.cfg (lenDecode hi lo) s.rx) s) := by
  rw [feed_cons, rxSymbol_startByte_of_seek hst, opStart, andThen_next,
    feed_cons, rxSymbol_byte_of_lenHi rfl, opLenHi, andThen_next,
    feed_singleton, rxSymbol_byte_of_lenLo rfl, opLenLo]
  simp only [setRx_rx, hiByte_lenDecode]
  rfl

/-- Settles O23: the three bytes in order, the last setting the length. -/
theorem headerSetsTheLength : Obligations.HeaderSetsTheLength := by
  rintro s hi lo n hst rfl
  exact feed_header hst hi lo

/-! ### The code maps -/

theorem lookupFtype_of_unlisted {t : Byte} (h : t ∉ ftypeCodes) (c : Cfg) :
    lookupFtype c t = ⟨t, .notGiven, .notGiven, c.typeOpen.getLsbD t.toNat⟩ := by
  simp only [ftypeCodes, List.mem_cons, List.not_mem_nil, or_false, not_or] at h
  simp only [lookupFtype, typeKnown, h, or_self, if_false]

/-- Settles O42: the five listed codes by evaluation of the table, any other by its last row. -/
theorem frameTypeRowsReturn : Obligations.FrameTypeRowsReturn := by
  intro s c
  refine ⟨rfl, rfl, rfl, rfl, rfl, fun hwf => ?_⟩
  have hc : c ∉ ftypeCodes := by simpa [Instr.wf] using hwf
  rw [← lookupFtype_of_unlisted hc]
  rfl

theorem lookupStatus_of_unlisted {v : Byte} (h : v ∉ statusCodes) :
    lookupStatus v = .statusCode v (.unknown v) (.unknown v) := by
  simp only [statusCodes, List.mem_cons, List.not_mem_nil, or_false, not_or] at h
  simp only [lookupStatus, readStatus, h, if_false]

/-- R100: the row a status code is decoded to looks that code up. -/
theorem exec_decodeStatus8 (v : Byte) (s : State) : exec (decodeStatus8 v) s = .next (setRet (lookupStatus v) s) := by
  unfold decodeStatus8
  split_ifs
  case neg => rfl
  all_goals subst v; rfl

/-- Settles O43: the eight listed codes by evaluation of the table, any other by its last row, and `decode_status` by
the reading of the row its code is decoded to. -/
theorem statusRowsReturn : Obligations.StatusRowsReturn := by
  intro s c k
  refine ⟨rfl, rfl, rfl, rfl, rfl, rfl, rfl, rfl, fun hwf => ?_, readStatus k c, rfl,
    readStatus .inLocal c, readStatus .inRemote c, exec_decodeStatus8 c s, ?_⟩
  · have hc : c ∉ statusCodes := by simpa [Instr.wf] using hwf
    rw [← lookupStatus_of_unlisted hc]
    rfl
  · cases k <;> rfl

end Sys2Proof.Machine
end

section
/-! The byte codec (R130 to R138): the laws of stuffing, what a checksum detects, and what each function's row
returns. -/

open Sys2Proof.Statements

namespace Sys2Proof

/-! ### Stuffing -/

/-- R138(a): unstuffing takes back stuffing. -/
@[simp] theorem unstuff_stuff (l : List Byte) : unstuff (stuff l) = some l := by
  simpa [unstuff] using unstuff_stuff_append l []

/-- R138(b): stuffing has a left inverse. -/
theorem stuff_injective : Function.Injective stuff := fun l m h =>
  Option.some.inj (by rw [← unstuff_stuff l, h, unstuff_stuff])

/-- R132: the only special byte among the bytes of an escape is the marker. -/
theorem eq_escByte_of_mem_escape {b v : Byte} (hb : isSpecial b = true) (h : b ∈ escape v) : b = escByte := by
  cases hv : isSpecial v with
  | true =>
    rw [escape_of_special hv, List.mem_pair] at h
    refine h.resolve_right fun he => ?_
    rw [he, not_isSpecial_xor_escXor hv] at hb
    contradiction
  | false =>
    rw [escape_of_not_special hv, List.mem_singleton] at h
    rw [h, hv] at hb
    contradiction

theorem eq_escByte_of_mem_stuff {b : Byte} {l : List Byte} (hb : isSpecial b = true) (h : b ∈ stuff l) :
    b = escByte := by
  induction l with
  | nil => cases h
  | cons v l ih =>
    rw [stuff_cons, List.mem_append] at h
    exact h.elim (eq_escByte_of_mem_escape hb) ih

/-- R138(c): of the special bytes stuffed bytes hold the marker alone. -/
theorem not_mem_stuff_of_special {b : Byte} (hb : isSpecial b = true) (hne : b ≠ escByte) (l : List Byte) :
    b ∉ stuff l :=
  fun h => hne (eq_escByte_of_mem_stuff hb h)

/-- R138(c): in stuffed bytes the marker stands only before the second byte of a canonical pair. -/
theorem stuff_marker_next {l : List Byte} {k : Nat} (h : (stuff l)[k]? = some escByte) :
    ∃ v, isSpecial v = true ∧ (stuff l)[k + 1]? = some (v ^^^ escXor) := by
  induction l generalizing k with
  | nil => cases h
  | cons v l ih =>
    cases hv : isSpecial v with
    | true =>
      rw [stuff_cons, escape_of_special hv] at h ⊢
      match k with
      | 0 => exact ⟨v, hv, rfl⟩
      | 1 =>
        have he : v ^^^ escXor = escByte := Option.some.inj h
        exact absurd he (ne_escByte_of_not_special (not_isSpecial_xor_escXor hv))
      | k + 2 => exact ih h
    | false =>
      rw [stuff_cons, escape_of_not_special hv] at h ⊢
      match k with
      | 0 => exact absurd (Option.some.inj h) (ne_escByte_of_not_special hv)
      | k + 1 => exact ih h

/-- Settles O4: by the left inverse of stuffing, and by what the bytes of one escape can be. -/
theorem stuffingLaws : Obligations.StuffingLaws := by
  have hclean (l : List Byte) : (0x7E : Byte) ∉ stuff l ∧ (0x11 : Byte) ∉ stuff l ∧ (0x13 : Byte) ∉ stuff l :=
    ⟨not_mem_stuff_of_special rfl (by decide) l, not_mem_stuff_of_special rfl (by decide) l,
      not_mem_stuff_of_special rfl (by decide) l⟩
  refine ⟨unstuff_stuff, fun _ _ h => stuff_injective h, hclean, fun _ _ h => stuff_marker_next h,
    fun l => ⟨length_le_length_stuff l, length_stuff_le l⟩, ?_⟩
  rintro r l - hmem rfl
  obtain ⟨h7E, h11, h13⟩ := hclean l
  exact hmem.elim h7E fun h => h.elim h11 h13

/-! ### What a checksum detects -/

/-- R135: payloads that one checksum byte verifies have the same sum. -/
theorem sumBytes_eq_of_verify {p q : List Byte} {c : Byte} (hp : verify p c = true) (hq : verify q c = true) :
    sumBytes p = sumBytes q := by
  simp only [verify, beq_iff_eq] at hp hq
  exact (BitVec.add_left_inj c).mp (hp.trans hq.symm)

/-- R130: a change of one byte that keeps the sum is no change. -/
theorem getElem_eq_of_sumBytes_set {p : List Byte} {k : Nat} {v : Byte} (hk : k < p.length)
    (h : sumBytes (p.set k v) = sumBytes p) : p[k] = v := by
  induction p generalizing k with
  | nil => cases hk
  | cons b p ih =>
    cases k with
    | zero =>
      simp only [List.set_cons_zero, sumBytes_cons] at h
      exact ((BitVec.add_left_inj (sumBytes p)).mp h).symm
    | succ k =>
      simp only [List.set_cons_succ, sumBytes_cons] at h
      exact ih (Nat.lt_of_succ_lt_succ hk) ((BitVec.add_right_inj b).mp h)

/-- Settles O5: were the changed payload verified, its sum and with it the byte would be unchanged. -/
theorem checksumDetectsOneByte : Obligations.ChecksumDetectsOneByte := by
  refine ⟨verify_eq_true_iff, fun p k v hk hne => ?_⟩
  by_contra hver
  have hsum := sumBytes_eq_of_verify (Bool.not_eq_false _ ▸ hver) (verify_checksum p)
  exact hne (getElem_eq_of_sumBytes_set hk hsum)

/-! ### The codec in integer arithmetic -/

/-- R134. -/
theorem checksum_eq_ofNat (p : List Byte) :
    checksum p = BitVec.ofNat 8 (255 - (p.map BitVec.toNat).sum % 256) := by
  have hok : csumOk.toNat = 255 := rfl
  have hlt := (sumBytes p).isLt
  apply BitVec.eq_of_toNat_eq
  rw [checksum, BitVec.toNat_sub, BitVec.toNat_ofNat, ← Machine.sumBytes_toNat, hok]
  omega

/-- R135. -/
theorem verify_eq_decide (p : List Byte) (c : Byte) :
    verify p c = decide (((p.map BitVec.toNat).sum + c.toNat) % 256 = 255) := by
  have hsum : (sumBytes p + c).toNat = ((p.map BitVec.toNat).sum + c.toNat) % 256 := by
    rw [BitVec.toNat_add, Machine.sumBytes_toNat, Nat.mod_add_mod]
  rw [verify, ← hsum, Bool.beq_eq_decide_eq]
  exact decide_eq_decide.mpr BitVec.toNat_inj.symm

/-- R136. -/
theorem lenEncode_eq_ofNat (n : Len) :
    lenEncode n = [BitVec.ofNat 8 (n.toNat / 256), BitVec.ofNat 8 (n.toNat % 256)] := by
  rw [← hiByte_toNat, ← loByte_toNat, BitVec.ofNat_toNat, BitVec.ofNat_toNat, BitVec.setWidth_eq, BitVec.setWidth_eq,
    lenEncode]

/-! ### Special bytes, unescaping and unstuffing -/

/-- R131. -/
theorem isSpecial_eq_decide (v : Byte) : isSpecial v = decide (v = 0x7E ∨ v = 0x7D ∨ v = 0x11 ∨ v = 0x13) := by
  rw [Bool.eq_iff_iff, isSpecial_eq_true_iff, decide_eq_true_iff]

/-- R132. -/
theorem escape_eq_ite (v : Byte) :
    escape v = if v = 0x7E ∨ v = 0x7D ∨ v = 0x11 ∨ v = 0x13 then [0x7D, v ^^^ 0x20] else [v] := by
  simp only [escape, isSpecial_eq_true_iff]
  rfl

theorem unescape_cons_cons_esc (e : Byte) (r : List Byte) :
    unescape (escByte :: e :: r) = .byte (e ^^^ escXor) r := by
  simp [unescape]

theorem unescape_cons_of_ne {b : Byte} (h : b ≠ escByte) (r : List Byte) : unescape (b :: r) = .byte b r := by
  cases r <;> simp [unescape, h]

/-- R133, R138: what `unescape` finds at the front of the raw bytes, and what unstuffing then does with them. -/
theorem unescape_cases (r : List Byte) :
    (unescape r = .endOfStream ∧ unstuff r = some []) ∨ (unescape r = .escTruncated ∧ unstuff r = none) ∨
      ∃ v rest, unescape r = .byte v rest ∧ unstuff r = (unstuff rest).map (v :: ·) := by
  match r with
  | [] => exact .inl ⟨rfl, rfl⟩
  | b :: r =>
    by_cases hb : b = escByte
    · subst b
      match r with
      | [] => exact .inr (.inl ⟨rfl, rfl⟩)
      | e :: r => exact .inr (.inr ⟨_, r, unescape_cons_cons_esc e r, unstuff_cons_cons_esc e r⟩)
    · exact .inr (.inr ⟨b, r, unescape_cons_of_ne hb r, unstuff_cons_of_ne hb r⟩)

theorem unstuff_of_unescape_byte {r rest : List Byte} {v : Byte} (h : unescape r = .byte v rest) :
    unstuff r = (unstuff rest).map (v :: ·) := by
  rcases unescape_cases r with ⟨hu, -⟩ | ⟨hu, -⟩ | ⟨w, t, hu, hs⟩ <;> rw [hu] at h <;> cases h
  exact hs

theorem unstuff_of_unescape_truncated {r : List Byte} (h : unescape r = .escTruncated) : unstuff r = none := by
  rcases unescape_cases r with ⟨hu, -⟩ | ⟨-, hs⟩ | ⟨w, t, hu, -⟩
  · rw [hu] at h; cases h
  · exact hs
  · rw [hu] at h; cases h

/-- R138: the escapes in order. -/
theorem stuff_eq_flatMap (l : List Byte) : stuff l = l.flatMap escape := by
  induction l with
  | nil => rfl
  | cons v l ih => rw [stuff_cons, ih, List.flatMap_cons]

end Sys2Proof

namespace Sys2Proof.Machine

/-! ### What the rows return -/

/-- A row that sets its result returns any result equal to it, and changes nothing else. -/
theorem returns_of_eq {r r' : FnResult} (h : r' = r) (s : State) : Returns r s (.next (setRet r' s)) := by
  rw [h]
  rfl

/-- Settles O7: each row sets the function's result, and the function is its rule in integer arithmetic. -/
theorem checksumAndLengthFunctionsReturn : Obligations.ChecksumAndLengthFunctionsReturn := fun s p c hi lo n =>
  ⟨returns_of_eq (congrArg FnResult.byte (checksum_eq_ofNat p)) s,
    returns_of_eq (congrArg FnResult.flag (verify_eq_decide p c)) s,
    returns_of_eq (congrArg FnResult.bytes (lenEncode_eq_ofNat n)) s,
    returns_of_eq (congrArg FnResult.num (lenDecode_toNat hi lo)) s⟩

/-- Settles O6: each row sets the function's result; `unescape` by the raw bytes it is given. -/
theorem escapeFunctionsReturn : Obligations.EscapeFunctionsReturn := fun s v =>
  ⟨returns_of_eq (congrArg FnResult.flag (isSpecial_eq_decide v)) s,
    returns_of_eq (congrArg FnResult.bytes (escape_eq_ite v)) s,
    returns_of_eq rfl s,
    returns_of_eq rfl s,
    fun rest hv => returns_of_eq (congrArg FnResult.unescaped (unescape_cons_of_ne hv rest)) s,
    fun rest => returns_of_eq (congrArg FnResult.unescaped (unescape_cons_cons_esc v rest)) s⟩

theorem unstuffResult_of_some {r l : List Byte} (h : unstuff r = some l) : unstuffResult r = .bytes l := by
  simp only [unstuffResult, h]

theorem unstuffResult_of_none {r : List Byte} (h : unstuff r = none) : unstuffResult r = .escTruncated := by
  simp only [unstuffResult, h]

/-- Settles O8: the rows set what `stuff` and `unstuff` give, and unstuffing is `unescape` from the left. -/
theorem stuffFunctionsReturn : Obligations.StuffFunctionsReturn := by
  refine ⟨fun s l => ?_, fun s r l h => ?_, fun s r h => ?_, rfl, fun r v rest h => ?_, fun r h => ?_⟩
  · exact returns_of_eq (congrArg FnResult.bytes (stuff_eq_flatMap l)) s
  · exact returns_of_eq (unstuffResult_of_some h) s
  · exact returns_of_eq (unstuffResult_of_none h) s
  · exact unstuff_of_unescape_byte h
  · exact unstuff_of_unescape_truncated h

end Sys2Proof.Machine
end

section
/-! The RX steps by name, one by one (R160 to R187), and what a step of the machine runs. -/

open Sys2Proof.Statements

namespace Sys2Proof

/-! ### The length in integer arithmetic -/

/-- R163: a high byte alone. -/
theorem lenDecode_zero (b : Byte) : lenDecode b 0 = BitVec.ofNat 16 (b.toNat * 256) := by
  simp [lenDecode]

/-- R164, R137: the high byte kept of a length and a new low byte. -/
theorem lenDecode_hiByte (n : Len) (b : Byte) :
    lenDecode (hiByte n) b = BitVec.ofNat 16 (n.toNat / 256 * 256 + b.toNat) := by
  rw [lenDecode, hiByte_toNat]

end Sys2Proof

namespace Sys2Proof.Machine

/-! ### Between frames and in the length field -/

/-- A selected operation runs. -/
theorem onlyIf_of {sel : Bool} (h : sel = true) (o : Res) : onlyIf sel o = o := by
  rw [h, onlyIf_true]

/-- Settles O10: the step is selected in SEEK by a byte other than the start marker. -/
theorem rxSkipTracesTheByte : Obligations.RxSkipTracesTheByte := fun _ _ hst hb =>
  onlyIf_of (Bool.and_eq_true_iff.mpr ⟨beq_iff_eq.mpr hst, bne_iff_ne.mpr hb⟩) _

/-- Settles O11: the step is selected in SEEK, and it writes these registers. -/
theorem rxStartBeginsAFrame : Obligations.RxStartBeginsAFrame := fun _ hst =>
  onlyIf_of (beq_iff_eq.mpr hst) _

/-- Settles O12: the high byte, with a low byte of zero, is 256 times its value. -/
theorem rxLenHiTakesAnyByte : Obligations.RxLenHiTakesAnyByte := by
  intro s b hst
  have h : exec (.rxLenHi b) s = opLenHi b s := onlyIf_of (beq_iff_eq.mpr hst) _
  rw [h, opLenHi, lenDecode_zero]
  rfl

/-- Settles O13: the step is R164 with the length in integer arithmetic. -/
theorem rxLenLoSetsTheLength : Obligations.RxLenLoSetsTheLength := by
  rintro s b n hst rfl
  have h : exec (.rxLenLo b) s = opLenLo b s := onlyIf_of (beq_iff_eq.mpr hst) _
  rw [h, opLenLo, lenDecode_hiByte]
  rfl

/-! ### Logical bytes -/

/-- Settles O14: the step sets the bit in the state that selects it. -/
theorem rxEscapeMarkerSetsTheBit : Obligations.RxEscapeMarkerSetsTheBit := fun _ he =>
  ⟨fun hst => onlyIf_of (by simp [hst, he]) _, fun hst => onlyIf_of (by simp [hst, he]) _⟩

section
variable {s : State} {b : Byte}

theorem exec_rxBodyLit (hst : s.rx.state = .body) (he : s.rx.esc = false) (hb : b ≠ escByte) :
    exec (.rxBodyLit b) s = opAccept b (escClear s) := by
  rw [escClear_of_clear he]
  exact onlyIf_of (by simp [hst, he, hb]) _

theorem exec_rxBodyXor (hst : s.rx.state = .body) (he : s.rx.esc = true) :
    exec (.rxBodyXor b) s = opAccept (b ^^^ escXor) (escClear s) :=
  onlyIf_of (by simp [hst, he]) _

theorem exec_rxAccept (hst : s.rx.state = .body) (hlt : s.rx.cnt < s.rx.len) :
    exec (.rxAccept b) s = opAccept b (escClear s) :=
  onlyIf_of (by simp [hst, hlt]) _

theorem exec_rxCsumLit (hst : s.rx.state = .csum) (he : s.rx.esc = false) (hb : b ≠ escByte) :
    exec (.rxCsumLit b) s = opVerify b (escClear s) := by
  rw [escClear_of_clear he]
  exact onlyIf_of (by simp [hst, he, hb]) _

theorem exec_rxCsumXor (hst : s.rx.state = .csum) (he : s.rx.esc = true) :
    exec (.rxCsumXor b) s = opVerify (b ^^^ escXor) (escClear s) :=
  onlyIf_of (by simp [hst, he]) _

theorem exec_rxVerify (hst : s.rx.state = .csum) (heq : s.rx.cnt = s.rx.len) :
    exec (.rxVerify b) s = opVerify b (escClear s) :=
  onlyIf_of (by simp [hst, heq]) _

end

/-- R29, log entry 16: a store that does not fit faults, whatever the escape bit. -/
theorem opAccept_escClear_of_not_storeFits {s : State} (hf : ¬ StoreFits s) (v : Byte) :
    opAccept v (escClear s) = .fault .bufAddress := by
  obtain ⟨ho, hc⟩ := not_or.mp hf
  exact opAccept_of_full (s := escClear s) (Bool.eq_false_of_not_eq_true ho) (BitVec.not_lt.mp hc)

/-- R29, log entry 16: a read that does not fit faults, whatever the escape bit. -/
theorem opVerify_escClear_of_not_readFits {s : State} (hf : ¬ ReadFits s) (hl : s.rx.len ≠ 0) {c : Byte}
    (hs : s.rx.sum + c = csumOk) : opVerify c (escClear s) = .fault .bufAddress := by
  obtain ⟨ho, hc⟩ := not_or.mp hf
  exact opVerify_of_beyond (s := escClear s) hs hl (Bool.eq_false_of_not_eq_true ho) (BitVec.not_le.mp hc)

/-- Settles O15: each of the three takes its logical byte with the escape bit clear. -/
theorem rxBodyTakesLogicalBytes : Obligations.RxBodyTakesLogicalBytes := by
  refine fun s b hst => ⟨fun hf => ⟨fun he hb => ?_, fun he => ?_, fun hlt => ?_⟩,
    fun hf => ⟨fun he hb => ?_, fun he => ?_, fun hlt => ?_⟩⟩
  · rw [exec_rxBodyLit hst he hb]
    exact accepted_opAccept hst hf b
  · rw [exec_rxBodyXor hst he]
    exact accepted_opAccept hst hf _
  · rw [exec_rxAccept hst hlt]
    exact accepted_opAccept hst hf b
  · rw [exec_rxBodyLit hst he hb, opAccept_escClear_of_not_storeFits hf]
  · rw [exec_rxBodyXor hst he, opAccept_escClear_of_not_storeFits hf]
  · rw [exec_rxAccept hst hlt, opAccept_escClear_of_not_storeFits hf]

/-- Settles O16: each of the three verifies its logical byte with the escape bit clear. -/
theorem rxChecksumByteIsVerified : Obligations.RxChecksumByteIsVerified := by
  refine fun s b hst => ⟨fun hf => ⟨fun he hb => ?_, fun he => ?_, fun heq => ?_⟩,
    fun hf hl => ⟨fun he hb hs => ?_, fun he hs => ?_, fun heq hs => ?_⟩⟩
  · rw [exec_rxCsumLit hst he hb]
    exact verified_opVerify hf b
  · rw [exec_rxCsumXor hst he]
    exact verified_opVerify hf _
  · rw [exec_rxVerify hst heq]
    exact verified_opVerify hf b
  · rw [exec_rxCsumLit hst he hb, opVerify_escClear_of_not_readFits hf hl hs]
  · rw [exec_rxCsumXor hst he]
    exact opVerify_escClear_of_not_readFits hf hl hs
  · rw [exec_rxVerify hst heq, opVerify_escClear_of_not_readFits hf hl hs]

/-! ### The end of the stream, and stop -/

/-- R183: in the length field, with the length bytes read. -/
theorem exec_rxEosLen {s : State} (hst : s.rx.state = .lenHi ∨ s.rx.state = .lenLo) :
    DiedOn (.framingErr .eosInLength (if s.rx.state = .lenHi then 0 else 1) 2) s (exec .rxEosLen s) :=
  onlyIf_of (by simpa using hst) _

/-- R184: inside a frame, with the count and the length. -/
theorem exec_rxEosFrame {s : State} (hst : s.rx.state = .body ∨ s.rx.state = .csum) :
    DiedOn (.framingErr (eosCause s.rx) s.rx.cnt s.rx.len) s (exec .rxEosFrame s) :=
  onlyIf_of (by simpa using hst) _

/-- Settles O17: in each state the step raises its one event, and the cause is read off the state. -/
theorem rxEndOfStreamIsFatal : Obligations.RxEndOfStreamIsFatal := by
  refine fun s => ⟨fun hst => onlyIf_of (beq_iff_eq.mpr hst) _, fun hst => ?_, fun hst => ?_, fun hst he => ?_,
    fun hst he => ?_, fun hst he => ?_, rfl, rfl, rfl, rfl, rfl⟩
  · simpa [hst] using exec_rxEosLen (.inl hst)
  · simpa [hst] using exec_rxEosLen (.inr hst)
  · simpa [eosCause, he] using exec_rxEosFrame hst
  · simpa [eosCause, he, hst] using exec_rxEosFrame (.inl hst)
  · simpa [eosCause, he, hst] using exec_rxEosFrame (.inr hst)

/-- Settles O18: STOP is honoured in SEEK and latched in a frame; in STOPPED and DEAD nothing is done. -/
theorem rxStopAndIgnore : Obligations.RxStopAndIgnore := by
  refine fun s sym => ⟨fun hst => ?_, fun hst => ?_, fun hst => onlyIf_of (by simpa using hst) _⟩
  · have h : exec .rxStop s = opStop s := onlyIf_of (by simp [hst]) _
    rw [h, opStop, if_pos hst]
    rfl
  · have h : exec .rxStop s = opStop s := onlyIf_of (by simp [hst]) _
    rw [h, opStop, if_neg (by rintro hs; rw [hs] at hst; cases hst)]
    rfl

/-! ### Selection -/

/-- R160: the step selected consumes the symbol it is selected by. -/
theorem symbolOf_selectRx (r : Rx) (sym : Symbol) : symbolOf (selectRx r sym) = some sym := by
  unfold selectRx
  cases r.state <;> cases sym
  case seek.byte b =>
    dsimp only
    split_ifs with hb
    · rw [hb]; rfl
    · rfl
  case body.byte b | csum.byte b =>
    dsimp only
    split_ifs with he hb
    · rfl
    · rw [hb]; rfl
    · rfl
  all_goals rfl

/-- Settles O19: the step selected does what RX does, and every other step of the symbol is refused. -/
theorem exactlyOneRxStepIsSelected : Obligations.ExactlyOneRxStepIsSelected := fun s sym =>
  ⟨symbolOf_selectRx s.rx sym, fun _ hi =>
    ⟨fun heq => by rw [heq, exec_selectRx], exec_of_ne_selectRx hi⟩⟩

/-- Settles O36: outside its precondition a procedure is not selected. -/
theorem proceduresStopOutsideTheirPreconditions : Obligations.ProceduresStopOutsideTheirPreconditions := by
  refine fun s b => ⟨fun h => onlyIf_of_not ?_ _, fun h => onlyIf_of_not ?_ _, fun h => onlyIf_of_not ?_ _⟩
  · simpa using h
  · simpa using h
  · simpa [txCheck, csumOk, or_comm] using h

/-! ### One event for each frame attempt -/

/-- R180: the end of a frame leaves the frame, with its event, and EV_STOPPED after it if RX stops. -/
theorem endFrame_events (e : Event) (s : State) :
    (endFrame e s).rx.state.inFrame = false ∧
      (endFrame e s).rxEvents =
        s.rxEvents ++ e :: (if (endFrame e s).rx.state = .stopped then [.stopped] else []) := by
  rw [endFrame_eq]
  cases s.rx.stopPending <;> exact ⟨rfl, rfl⟩

/-- R187: a symbol taken inside a frame leaves RX inside it with no event, or ends the attempt with one event. -/
theorem RxStepTo.events_of_inFrame {sym : Symbol} {s t : State} (h : RxStepTo sym s t)
    (hin : s.rx.state.inFrame = true) :
    t.rx.state.inFrame = true ∧ t.rxEvents = s.rxEvents ∨
      t.rx.state.inFrame = false ∧ ∃ e, e ≠ .stopped ∧
        t.rxEvents = s.rxEvents ++ e :: (if t.rx.state = .stopped then [.stopped] else []) := by
  cases h with
  | skip _ hst | start hst | eosIdle hst | stopNow hst => rw [hst] at hin; cases hin
  | ignore hst => rcases hst with hst | hst <;> rw [hst] at hin <;> cases hin
  | lenHi => exact .inl ⟨rfl, rfl⟩
  | lenLo =>
    refine .inl ⟨?_, rfl⟩
    show (ite _ RxSeq.csum RxSeq.body).inFrame = true
    split <;> rfl
  | marker | stopLater => exact .inl ⟨hin, rfl⟩
  | accept =>
    refine .inl ⟨?_, rfl⟩
    show (ite _ RxSeq.csum s.rx.state).inFrame = true
    split
    · rfl
    · exact hin
  | verify _ v =>
    obtain ⟨hout, hev⟩ := endFrame_events (verifyEvent v s) (escClear s)
    exact .inr ⟨hout, _, verifyEvent_ne_stopped v s, hev⟩
  | eosLen | eosFrame => exact .inr ⟨rfl, .framingErr _ _ _, nofun, rfl⟩

/-- Settles O26: an RX step inside a frame either stays in it or ends the attempt, and not both. -/
theorem oneEventPerFrameAttempt : Obligations.OneEventPerFrameAttempt := by
  intro s t sym hin h
  rcases (rxSymbol_cases h).events_of_inFrame hin with ⟨ht, hev⟩ | ⟨ht, hend⟩
  · exact ⟨fun _ => hev, fun hout => absurd hout (by simp [ht])⟩
  · exact ⟨fun hin' => absurd hin' (by simp [ht]), fun _ => hend⟩

/-! ### The step -/

/-- Where what is presented selects an operation, the step runs it. -/
theorem step_of_run {s u : State} {st : Stimulus} {rest : List Stimulus} {i : Instr} (henv : s.env = st :: rest)
    (hr : fetchStimulus st (setEnv rest s) = .run i u) : step s = exec i u := by
  simp only [step, fetch, henv, hr]

/-- Where what is presented has no meaning, the step is refused. -/
theorem step_of_refuse {s : State} {st : Stimulus} {rest : List Stimulus} {r : Refusal} (henv : s.env = st :: rest)
    (hr : fetchStimulus st (setEnv rest s) = .refuse r) : step s = .refused r := by
  simp only [step, fetch, henv, hr]

section
variable {s : State}

theorem fetchStimulus_word_ok {fmt : Format} {bs : List Byte} {i : Instr} (h : decode fmt bs = .ok i) :
    fetchStimulus (.word fmt bs) s = .run i s := by simp only [fetchStimulus, h]

theorem fetchStimulus_word_error {fmt : Format} {bs : List Byte} {e : DecodeError} (h : decode fmt bs = .error e) :
    fetchStimulus (.word fmt bs) s = .refuse (.undecodable e) := by simp only [fetchStimulus, h]

theorem fetchStimulus_take {k : Nat} {p : List Byte} (h : s.waiting[k]? = some p) (hs : s.tx.state.sending = false) :
    fetchStimulus (.take k) s = .run (.txReq p) (setWaiting (s.waiting.eraseIdx k) s) := by
  simp only [fetchStimulus, h, hs, Bool.false_eq_true, if_false]

theorem fetchStimulus_answer {ok : Bool} {i : Instr} (h : selectTx s.tx ok = some i) :
    fetchStimulus (.answer ok) s = .run i s := by simp only [fetchStimulus, h]

end

/-- R225: the sink's FAIL selects TX.FAIL in every sending state. -/
theorem selectTx_fail {t : Tx} (h : t.state.sending = true) : selectTx t false = some .txFail := by
  simp [selectTx, h]

/-- Settles O52: each input selects what the step runs, on the state with the input taken. -/
theorem stepRunsTheInstruction : Obligations.StepRunsTheInstruction := by
  refine fun s st rest henv => ⟨?_, ?_, ?_, ?_, ?_, ?_, ?_, ?_, ?_, ?_⟩
  · rintro fmt bs i rfl hd
    exact step_of_run henv (fetchStimulus_word_ok hd)
  · rintro fmt bs e rfl hd
    exact step_of_refuse henv (fetchStimulus_word_error hd)
  · rintro rfl
    exact step_of_run henv rfl
  · rintro rfl
    exact step_of_run henv rfl
  · rintro p rfl
    exact step_of_run henv rfl
  · rintro k p rfl hw hs
    exact step_of_run henv (fetchStimulus_take (s := setEnv rest s) hw hs)
  · rintro ok i rfl hi
    exact step_of_run henv (fetchStimulus_answer (s := setEnv rest s) hi)
  · rintro rfl hs
    exact step_of_run henv (fetchStimulus_answer (s := setEnv rest s) (selectTx_fail hs))
  · rintro i rfl hi
    exact step_of_run henv (if_pos hi)
  · rintro i rfl hi
    exact step_of_refuse henv (if_neg (by simp [hi]))

end Sys2Proof.Machine
end

section
/-! The whole-stream reading (R188): a frame attempt ends with the one event of its length, payload and checksum byte,
and the raw bytes read from SEEK give the events of `deframe`. -/

namespace Sys2Proof

/-! ### One logical byte of the raw stream -/

/-- R133: the raw bytes of a logical byte, a pair or a literal. -/
theorem eq_of_unescape_byte {r rest : List Byte} {v : Byte} (h : unescape r = .byte v rest) :
    r = escByte :: (v ^^^ escXor) :: rest ∨ v ≠ escByte ∧ r = v :: rest := by
  match r with
  | [] => cases h
  | b :: r =>
    by_cases hb : b = escByte
    · subst b
      match r with
      | [] => cases h
      | e :: r =>
        rw [unescape_cons_cons_esc] at h
        cases h
        exact .inl (by rw [xor_escXor_xor_escXor])
    · rw [unescape_cons_of_ne hb] at h
      cases h
      exact .inr ⟨hb, rfl⟩

/-- R133: without a logical byte at their front, the raw bytes are used up or an unpaired marker. -/
theorem eq_of_unescape_ne_byte {r : List Byte} (h : ∀ v rest, unescape r ≠ .byte v rest) :
    r = [] ∨ r = [escByte] := by
  match r with
  | [] => exact .inl rfl
  | b :: r =>
    by_cases hb : b = escByte
    · subst b
      match r with
      | [] => exact .inr rfl
      | e :: r => exact absurd (unescape_cons_cons_esc e r) (h _ _)
    · exact absurd (unescape_cons_of_ne hb r) (h _ _)

theorem length_lt_of_unescape_byte {r rest : List Byte} {v : Byte} (h : unescape r = .byte v rest) :
    rest.length < r.length := by
  rcases eq_of_unescape_byte h with rfl | ⟨-, rfl⟩ <;> simp only [List.length_cons] <;> omega

/-! ### Several logical bytes -/

theorem takeLogical_succ_of_byte {r rest : List Byte} {v : Byte} (h : unescape r = .byte v rest) (k : Nat) :
    takeLogical (k + 1) r = (takeLogical k rest).map fun x => (v :: x.1, x.2) := by
  simp only [takeLogical, h]

theorem takeLogical_succ_of_ne_byte {r : List Byte} (h : ∀ v rest, unescape r ≠ .byte v rest) (k : Nat) :
    takeLogical (k + 1) r = none := by
  cases hu : unescape r with
  | byte v rest => exact absurd hu (h v rest)
  | endOfStream | escTruncated => simp only [takeLogical, hu]

/-- R188: the first of the logical bytes taken, and the others. -/
theorem takeLogical_succ_eq_some {k : Nat} {r rest m : List Byte} (h : takeLogical (k + 1) r = some (m, rest)) :
    ∃ v r' m', unescape r = .byte v r' ∧ takeLogical k r' = some (m', rest) ∧ m = v :: m' := by
  by_cases hb : ∃ v r', unescape r = .byte v r'
  · obtain ⟨v, r', hu⟩ := hb
    rw [takeLogical_succ_of_byte hu, Option.map_eq_some_iff] at h
    obtain ⟨⟨m', rest'⟩, ht, heq⟩ := h
    cases heq
    exact ⟨v, r', m', hu, ht, rfl⟩
  · rw [takeLogical_succ_of_ne_byte fun v r' hu => hb ⟨v, r', hu⟩] at h
    cases h

theorem length_le_of_takeLogical {k : Nat} : ∀ {r rest m : List Byte}, takeLogical k r = some (m, rest) →
    rest.length ≤ r.length := by
  induction k with
  | zero => intro r rest m h; cases h; exact le_rfl
  | succ k ih =>
    intro r rest m h
    obtain ⟨v, r', m', hu, ht, -⟩ := takeLogical_succ_eq_some h
    exact (ih ht).trans (length_lt_of_unescape_byte hu).le

end Sys2Proof

namespace Sys2Proof.Machine

/-! ### A frame attempt -/

/-- A frame attempt that began in `s` has come to its end in `u`, with event `e`: back to seeking, no stop pending. -/
def Ended (e : Event) (s u : State) : Prop :=
  ∃ rx', u = { s with rx := rx', rxEvents := s.rxEvents ++ [e] } ∧
    rx'.state = .seek ∧ rx'.stopPending = false ∧ rx'.cause = s.rx.cause

section
variable {s : State} {n : Len} {l raw rest : List Byte} {v : Byte}

theorem HasRead.reading {c : Cfg} {r : Rx} (hr : HasRead c n l r) : r.state = .body ∨ r.state = .csum := by
  rw [hr.state]
  split
  · exact .inr rfl
  · exact .inl rfl

/-- R171, R172: in BODY the logical byte at the front of the raw bytes is the next one read. -/
theorem HasRead.feed_byte (hr : HasRead s.cfg n l s.rx) (h : l.length < n.toNat) (hu : unescape raw = .byte v rest) :
    feed raw s = feed rest (setRx (acceptRx v s.rx) s) := by
  rcases eq_of_unescape_byte hu with rfl | ⟨hv, rfl⟩
  · rw [hr.feed_pair h, xor_escXor_xor_escXor]
  · exact hr.feed_literal h hv rest

/-- R29: the frame RX has read stands inside the buffer, or is not read from it. -/
theorem HasRead.read_fits {c : Cfg} {r : Rx} (hr : HasRead c n l r) : r.oversize = true ∨ r.len ≤ c.rxMaxLen := by
  rw [hr.oversize, hr.len]
  exact Decidable.or_iff_not_imp_left.mpr BitVec.not_lt.mp

/-- R177, R178: in CSUM the logical byte at the front of the raw bytes ends the frame. -/
theorem HasRead.feed_checksum (hr : HasRead s.cfg n l s.rx) (h : l.length = n.toNat)
    (hu : unescape raw = .byte v rest) : feed raw s = feed rest (endFrame (verifyEvent v s) s) := by
  have hst : s.rx.state = .csum := by rw [hr.state, if_pos h]
  rcases eq_of_unescape_byte hu with rfl | ⟨hv, rfl⟩
  · rw [show escByte :: (v ^^^ escXor) :: rest = [escByte, v ^^^ escXor] ++ rest from rfl, feed_append,
      feed_pair_of_csum hst hr.esc, escClear_of_clear hr.esc, opVerify_of_fits hr.read_fits, andThen_next]
  · rw [feed_cons, rxSymbol_byte_of_csum hst, opCsumByte, if_neg (by simp [hr.esc]), if_neg hv,
      opVerify_of_fits hr.read_fits, andThen_next]

/-- R188: RX waits, with no event, where the raw bytes run out before a logical byte. -/
theorem HasRead.feed_short (hr : HasRead s.cfg n l s.rx) (hu : ∀ v rest, unescape raw ≠ .byte v rest) :
    ∃ t, feed raw s = .next t ∧ t.rxEvents = s.rxEvents := by
  rcases eq_of_unescape_ne_byte hu with rfl | rfl
  · exact ⟨s, rfl, rfl⟩
  · exact ⟨_, (feed_singleton _ s).trans (rxSymbol_escByte hr.reading hr.esc), rfl⟩

/-- R173, R29: the buffer of a frame that fits holds the logical bytes read, in order. -/
theorem HasRead.bufSlice_eq {c : Cfg} {r : Rx} (hr : HasRead c n l r) (ho : r.oversize = false) :
    bufSlice r.buf 0 l.length = l := by
  apply List.ext_getElem (bufSlice_length _ _ _)
  intro i h1 h2
  simp [bufSlice_eq_map, bufByte, hr.buf ho i h2, h2]

/-- R180: the event for a checksum byte is the class of the frame read. -/
theorem HasRead.verifyEvent_eq_classify (hr : HasRead s.cfg n l s.rx) (h : l.length = n.toNat) (c : Byte) :
    verifyEvent c s = classify s.cfg n l c := by
  have hsum : sumBytes l + c ≠ csumOk ↔ verify l c = false := by simp [verify]
  unfold verifyEvent classify
  simp only [hr.sum, hsum, hr.len, hr.oversize, checksum]
  cases l with
  | nil =>
    have hn : n = 0 := BitVec.eq_of_toNat_eq h.symm
    simp only [hn, if_true]
  | cons t data =>
    have hn : n ≠ 0 := by rintro rfl; cases h
    by_cases ho : s.cfg.rxMaxLen < n
    · simp only [hn, ho, if_true, if_false]
    · have hslice := hr.bufSlice_eq (by rwa [← Bool.not_eq_true, hr.oversize])
      rw [List.length_cons, bufSlice] at hslice
      obtain ⟨ht, hdata⟩ := List.cons.inj hslice
      have hlen : n.toNat - 1 = data.length := by rw [← h]; rfl
      rw [Nat.zero_add] at hdata
      simp only [hn, ho, if_false, frameEvent, hr.len, hlen, ht, hdata]

end

/-- One byte read is one less to read. -/
theorem length_append_singleton_add {l : List Byte} {k n : Nat} (v : Byte) (h : l.length + (k + 1) = n) :
    (l ++ [v]).length + k = n := by
  rw [List.length_append, List.length_singleton]
  omega

/-- R188: an attempt for whose rest the raw bytes hold enough logical bytes ends with the event of its class. -/
theorem HasRead.feed_of_takeLogical_some {n : Len} (k : Nat) :
    ∀ {s : State} {l raw m rest : List Byte}, HasRead s.cfg n l s.rx → l.length + k = n.toNat →
      s.rx.stopPending = false → takeLogical (k + 1) raw = some (m, rest) →
      ∃ u, feed raw s = feed rest u ∧ Ended (classify s.cfg n (l ++ m.take k) (m.getD k 0)) s u := by
  induction k with
  | zero =>
    intro s l raw m rest hr hlen hstop ht
    obtain ⟨v, raw', m', hu, ht', rfl⟩ := takeLogical_succ_eq_some ht
    cases ht'
    refine ⟨_, hr.feed_checksum hlen hu, { s.rx with state := .seek }, ?_, rfl, hstop, rfl⟩
    rw [hr.verifyEvent_eq_classify hlen, endFrame_eq]
    simp [hstop]
  | succ k ih =>
    intro s l raw m rest hr hlen hstop ht
    obtain ⟨v, raw', m', hu, ht', rfl⟩ := takeLogical_succ_eq_some ht
    have hlt : l.length < n.toNat := by omega
    have hlen' := length_append_singleton_add v hlen
    obtain ⟨u, hu', rx', rfl, hend⟩ :=
      ih (s := setRx (acceptRx v s.rx) s) (hr.after_accept hlt v) hlen' hstop ht'
    refine ⟨_, (hr.feed_byte hlt hu).trans hu', rx', ?_, hend⟩
    simp [setRx]

/-- R188: an attempt for whose rest the raw bytes hold too few logical bytes waits, with no event. -/
theorem HasRead.feed_of_takeLogical_none {n : Len} (k : Nat) :
    ∀ {s : State} {l raw : List Byte}, HasRead s.cfg n l s.rx → l.length + k = n.toNat →
      takeLogical (k + 1) raw = none → ∃ t, feed raw s = .next t ∧ t.rxEvents = s.rxEvents := by
  induction k with
  | zero =>
    intro s l raw hr _ ht
    refine hr.feed_short fun v rest hu => ?_
    rw [takeLogical_succ_of_byte hu] at ht
    cases ht
  | succ k ih =>
    intro s l raw hr hlen ht
    by_cases hb : ∃ v rest, unescape raw = .byte v rest
    · obtain ⟨v, rest, hu⟩ := hb
      rw [takeLogical_succ_of_byte hu, Option.map_eq_none_iff] at ht
      have hlt : l.length < n.toNat := by omega
      have hlen' := length_append_singleton_add v hlen
      rw [hr.feed_byte hlt hu]
      exact ih (s := setRx (acceptRx v s.rx) s) (hr.after_accept hlt v) hlen' ht
    · exact hr.feed_short fun v rest hu => hb ⟨v, rest, hu⟩

/-! ### From SEEK -/

section
variable {s : State} {hi lo : Byte} {raw : List Byte}

/-- R162, R163, R164: after a header in SEEK, the raw bytes are those of a frame with nothing read. -/
theorem feed_header_append (hst : s.rx.state = .seek) (hi lo : Byte) (raw : List Byte) :
    feed (startByte :: hi :: lo :: raw) s = feed raw (setRx (lenLoRx s.cfg (lenDecode hi lo) s.rx) s) := by
  rw [show startByte :: hi :: lo :: raw = [startByte, hi, lo] ++ raw from rfl, feed_append, feed_header hst,
    andThen_next]

/-- R188: from SEEK, a header and raw bytes that hold the frame's logical bytes give one event. -/
theorem feed_frame_of_takeLogical_some (hst : s.rx.state = .seek) (hstop : s.rx.stopPending = false)
    {m rest : List Byte} (ht : takeLogical ((lenDecode hi lo).toNat + 1) raw = some (m, rest)) :
    ∃ u, feed (startByte :: hi :: lo :: raw) s = feed rest u ∧
      Ended (classify s.cfg (lenDecode hi lo) (m.take (lenDecode hi lo).toNat) (m.getD (lenDecode hi lo).toNat 0))
        s u := by
  obtain ⟨u, hu, rx', rfl, hend⟩ := HasRead.feed_of_takeLogical_some _
    (s := setRx (lenLoRx s.cfg (lenDecode hi lo) s.rx) s) (hasRead_nil s.cfg (lenDecode hi lo) s.rx)
    (Nat.zero_add _) hstop ht
  exact ⟨_, (feed_header_append hst hi lo raw).trans hu, rx', rfl, hend⟩

/-- R188: from SEEK, a header and raw bytes that run out inside the frame give no event. -/
theorem feed_frame_of_takeLogical_none (hst : s.rx.state = .seek)
    (ht : takeLogical ((lenDecode hi lo).toNat + 1) raw = none) :
    ∃ t, feed (startByte :: hi :: lo :: raw) s = .next t ∧ t.rxEvents = s.rxEvents := by
  rw [feed_header_append hst]
  exact HasRead.feed_of_takeLogical_none _ (s := setRx (lenLoRx s.cfg (lenDecode hi lo) s.rx) s)
    (hasRead_nil s.cfg (lenDecode hi lo) s.rx) (Nat.zero_add _) ht

end

/-- R180: the class of a frame that carries its own checksum and fits the buffer. -/
theorem classify_checksum {c : Cfg} {n : Len} {t : Byte} {data : List Byte} (h : n ≤ c.rxMaxLen) :
    classify c n (t :: data) (checksum (t :: data)) =
      if typeKnown c t then .frame t data else .unknownType t data := by
  simp only [classify, verify_checksum, Bool.true_eq_false, if_false, BitVec.not_lt.mpr h]

/-- Settles O24: the raw bytes after the header hold the payload and its checksum, and nothing is left. -/
theorem frameDeliversItsPayload : Obligations.FrameDeliversItsPayload := by
  intro s t data hst hstop hfit
  have hlt := s.cfg.rxMaxLen.isLt
  have hlen : (BitVec.ofNat 16 (t :: data).length).toNat = (t :: data).length := Nat.mod_eq_of_lt (by omega)
  have hle : BitVec.ofNat 16 (t :: data).length ≤ s.cfg.rxMaxLen := by rwa [BitVec.le_def, hlen]
  have htake := takeLogical_stuff_append (t :: data ++ [checksum (t :: data)]) []
  rw [List.append_nil, List.length_append, List.length_singleton, ← hlen,
    ← lenDecode_hiByte_loByte (BitVec.ofNat 16 (t :: data).length)] at htake
  obtain ⟨u, hu, rx', rfl, hend⟩ := feed_frame_of_takeLogical_some hst hstop htake
  refine ⟨rx', ?_, hend⟩
  rw [lenDecode_hiByte_loByte, hlen, List.take_left, List.getD_append_right _ _ _ _ le_rfl, Nat.sub_self,
    List.getD_cons_zero, classify_checksum hle] at hu
  exact hu

theorem rxSymbol_byte_of_seek {s : State} (h : s.rx.state = .seek) {b : Byte} (hb : b ≠ startByte) :
    rxSymbol (.byte b) s = opSkip b s := by simp only [rxSymbol, h, if_neg hb]

theorem deframeUpTo_of_ne_start {b : Byte} (hb : b ≠ startByte) (c : Cfg) (k : Nat) (r : List Byte) :
    deframeUpTo c (k + 1) (b :: r) = deframeUpTo c k r := by
  simp only [deframeUpTo, if_pos hb]

/-- R188: from SEEK with no stop pending, the raw bytes fed give the events of the whole-stream function. -/
theorem feed_deframeUpTo (c : Cfg) (k : Nat) (r : List Byte) :
    ∀ s : State, s.cfg = c → r.length ≤ k → s.rx.state = .seek → s.rx.stopPending = false →
      ∃ t, feed r s = .next t ∧ t.rxEvents = s.rxEvents ++ deframeUpTo c k r := by
  induction k, r using deframeUpTo.induct with
  | case1 r =>
    intro s _ hlen _ _
    rw [List.eq_nil_of_length_eq_zero (Nat.le_zero.mp hlen)]
    exact ⟨s, rfl, (List.append_nil _).symm⟩
  | case2 k =>
    intro s _ _ _ _
    exact ⟨s, rfl, (List.append_nil _).symm⟩
  | case3 k b r hb ih =>
    intro s hc hlen hst hstop
    rw [feed_cons, rxSymbol_byte_of_seek hst hb, opSkip, andThen_next, deframeUpTo_of_ne_start hb]
    exact ih (traceSkip b s) hc (Nat.le_of_succ_le_succ hlen) hst hstop
  | case4 k b hb hi lo raw m rest ht ih =>
    intro s hc hlen hst hstop
    obtain rfl := not_not.mp hb
    obtain ⟨u, hu, rx', rfl, hst', hstop', -⟩ := feed_frame_of_takeLogical_some hst hstop ht
    have hle := length_le_of_takeLogical ht
    simp only [List.length_cons] at hlen
    obtain ⟨t, hfeed, hev⟩ := ih { s with rx := rx', rxEvents := _ } hc (by omega) hst' hstop'
    refine ⟨t, hu.trans hfeed, ?_⟩
    simp only [hev, deframeUpTo, if_neg hb, ht, hc, List.append_assoc, List.singleton_append]
  | case5 k b hb hi lo raw ht =>
    intro s _ _ hst _
    obtain rfl := not_not.mp hb
    obtain ⟨t, hfeed, hev⟩ := feed_frame_of_takeLogical_none hst ht
    refine ⟨t, hfeed, ?_⟩
    simp only [hev, deframeUpTo, if_neg hb, ht, List.append_nil]
  | case6 k b hb hi =>
    intro s _ _ hst _
    obtain rfl := not_not.mp hb
    rw [feed_cons, rxSymbol_startByte_of_seek hst, opStart, andThen_next, feed_singleton, rxSymbol_byte_of_lenHi rfl]
    refine ⟨_, rfl, ?_⟩
    simp [deframeUpTo]
  | case7 k b hb =>
    intro s _ _ hst _
    obtain rfl := not_not.mp hb
    rw [feed_singleton, rxSymbol_startByte_of_seek hst]
    refine ⟨_, rfl, ?_⟩
    simp [deframeUpTo]

/-- Settles O25: the row's result is the whole-stream function's, and raw bytes change RX's registers and outputs
only. -/
theorem streamGivesTheEventsOfDeframe : Obligations.StreamGivesTheEventsOfDeframe := by
  intro s r hst hstop
  obtain ⟨t, hfeed, hev⟩ := feed_deframeUpTo s.cfg r.length r s rfl le_rfl hst hstop
  obtain ⟨hframe, -, -⟩ := feed_frame r hfeed
  refine ⟨deframe s.cfg r, t, rfl, hfeed, hev, ?_⟩
  rw [hframe]
  exact ⟨rfl, rfl, rfl⟩

end Sys2Proof.Machine
end

section
/-! The TX steps by name, one by one (R210 to R226), and the frame they send: a request taken from T_IDLE and answered
OK throughout sends exactly its encoding (R223). -/

open Sys2Proof.Statements

namespace Sys2Proof

/-- R91, R221: after the header and the payload a frame ends with the raw bytes of its checksum. -/
theorem drop_frameBytes_payload (p : List Byte) :
    (frameBytes p).drop (3 + (stuff p).length) = escape (checksum p) := by
  rw [frameBytes_eq, stuff_append, stuff_cons, stuff_nil, List.append_nil, Nat.add_comm]
  exact List.drop_left

end Sys2Proof

namespace Sys2Proof.Machine

/-! ### The whole frame as a function -/

/-- R223 in integer arithmetic. -/
theorem txEncode_eq_ofNat {p : List Byte} (h : 1 ≤ p.length) (h' : p.length ≤ 65535) :
    txEncode p = [0x7E, BitVec.ofNat 8 (p.length / 256), BitVec.ofNat 8 (p.length % 256)] ++
      stuff (p ++ [checksum p]) := by
  have hlen : (BitVec.ofNat 16 p.length).toNat = p.length := Nat.mod_eq_of_lt (Nat.lt_succ_of_le h')
  rw [txEncode_of_domain h h', frameBytes, lenEncode_eq_ofNat, hlen]
  rfl

/-- Settles O9: both rows set what `tx_encode` gives. -/
theorem wholeFrameFunctionsReturn : Obligations.WholeFrameFunctionsReturn := fun s p =>
  ⟨fun h h' => ⟨returns_of_eq (congrArg FnResult.bytes (txEncode_eq_ofNat h h')) s, rfl⟩,
    txEncode p, returns_of_eq rfl s, returns_of_eq rfl s⟩

/-! ### A request -/

/-- Settles O28: by the mode of TX, and in T_IDLE by the length of the payload. -/
theorem txRequestIsTakenRefusedOrWaits : Obligations.TxRequestIsTakenRefusedOrWaits := by
  refine fun s p => ⟨fun hst => ?_, fun hst => ?_, ?_, fun hst _ hlen => ?_, fun hst hp hlen => ?_⟩
  · exact congrArg Host.Outcome.next (opReq_of_sending p hst)
  · exact congrArg Host.Outcome.next (opReq_of_dead p hst)
  · rintro hst rfl
    exact congrArg Host.Outcome.next (opReq_of_empty hst)
  · exact congrArg Host.Outcome.next (opReq_of_long hst hlen)
  · exact congrArg Host.Outcome.next (opReq_of_fits hst (List.length_pos_iff.mpr hp) hlen)

/-! ### The byte steps -/

section
variable {s : State} {v : Byte}

theorem withPayByte_of_some (hv : payByte s.tx = some v) (f : Byte → Res) : withPayByte s f = f v := by
  simp only [withPayByte, hv]

theorem withPayByte_of_none (hv : payByte s.tx = none) (f : Byte → Res) :
    withPayByte s f = .fault .payAddress := by
  simp only [withPayByte, hv]

theorem exec_txStart (hst : s.tx.state = .start) :
    exec .txStart s = .next (sendByte startByte { s.tx with state := .lenHi } s) :=
  onlyIf_of (beq_iff_eq.mpr hst) _

theorem exec_txLenHi (hst : s.tx.state = .lenHi) :
    exec .txLenHi s = .next (sendByte (hiByte s.tx.len) { s.tx with state := .lenLo } s) :=
  onlyIf_of (beq_iff_eq.mpr hst) _

theorem exec_txLenLo (hst : s.tx.state = .lenLo) :
    exec .txLenLo s = .next (sendByte (loByte s.tx.len) { s.tx with state := .data } s) :=
  onlyIf_of (beq_iff_eq.mpr hst) _

theorem exec_txData_of_data (hst : s.tx.state = .data) :
    exec .txData s = withPayByte s fun v => onlyIf (!isSpecial v) (.next (sendByte v (advanceTx v s.tx) s)) :=
  onlyIf_of (beq_iff_eq.mpr hst) _

theorem exec_txDataEsc1_of_data (hst : s.tx.state = .data) :
    exec .txDataEsc1 s =
      withPayByte s fun v => onlyIf (isSpecial v) (.next (sendByte escByte { s.tx with state := .dataEsc } s)) :=
  onlyIf_of (beq_iff_eq.mpr hst) _

theorem exec_txDataEsc2_of_dataEsc (hst : s.tx.state = .dataEsc) :
    exec .txDataEsc2 s = withPayByte s fun v => .next (sendByte (v ^^^ escXor) (advanceTx v s.tx) s) :=
  onlyIf_of (beq_iff_eq.mpr hst) _

theorem exec_txData (hst : s.tx.state = .data) (hv : payByte s.tx = some v) (hsp : isSpecial v = false) :
    exec .txData s = .next (sendByte v (advanceTx v s.tx) s) := by
  rw [exec_txData_of_data hst, withPayByte_of_some hv, hsp]
  rfl

theorem exec_txDataEsc1 (hst : s.tx.state = .data) (hv : payByte s.tx = some v) (hsp : isSpecial v = true) :
    exec .txDataEsc1 s = .next (sendByte escByte { s.tx with state := .dataEsc } s) := by
  rw [exec_txDataEsc1_of_data hst, withPayByte_of_some hv, hsp, onlyIf_true]

theorem exec_txDataEsc2 (hst : s.tx.state = .dataEsc) (hv : payByte s.tx = some v) :
    exec .txDataEsc2 s = .next (sendByte (v ^^^ escXor) (advanceTx v s.tx) s) := by
  rw [exec_txDataEsc2_of_dataEsc hst, withPayByte_of_some hv]

theorem exec_txCsum_of_csum (hst : s.tx.state = .csum) :
    exec .txCsum s = .next (if isSpecial (txCheck s.tx) then sendByte escByte { s.tx with state := .csumEsc } s
      else finishTx (sendByte (txCheck s.tx) s.tx s)) :=
  onlyIf_of (beq_iff_eq.mpr hst) _

theorem exec_txCsum_of_special (hst : s.tx.state = .csum) (hsp : isSpecial (txCheck s.tx) = true) :
    exec .txCsum s = .next (sendByte escByte { s.tx with state := .csumEsc } s) := by
  rw [exec_txCsum_of_csum hst, if_pos hsp]

theorem exec_txCsum_of_not_special (hst : s.tx.state = .csum) (hsp : isSpecial (txCheck s.tx) = false) :
    exec .txCsum s = .next (finishTx (sendByte (txCheck s.tx) s.tx s)) := by
  rw [exec_txCsum_of_csum hst, if_neg (by simp [hsp])]

theorem exec_txCsumEsc2 (hst : s.tx.state = .csumEsc) :
    exec .txCsumEsc2 s = .next (finishTx (sendByte (txCheck s.tx ^^^ escXor) s.tx s)) :=
  onlyIf_of (beq_iff_eq.mpr hst) _

theorem exec_finish (h : s.tx.state = .csumEsc ∨ s.tx.state = .csum ∧ isSpecial (txCheck s.tx) = false) :
    exec .finish s = .next (finishTx s) :=
  onlyIf_of (by simpa [or_comm] using h) _

end

/-- R92: the high byte of the length in integer arithmetic. -/
theorem hiByte_eq_ofNat (n : Len) : hiByte n = BitVec.ofNat 8 (n.toNat / 256) :=
  (List.cons.inj (lenEncode_eq_ofNat n)).1

/-- R92: the low byte of the length in integer arithmetic. -/
theorem loByte_eq_ofNat (n : Len) : loByte n = BitVec.ofNat 8 (n.toNat % 256) := by
  rw [← loByte_toNat, BitVec.ofNat_toNat, BitVec.setWidth_eq]

/-- Settles O29: the marker and the two bytes of the length register. -/
theorem txHeaderBytesAreSentRaw : Obligations.TxHeaderBytesAreSentRaw := by
  refine fun s => ⟨exec_txStart, fun hst => ?_, fun hst => ?_⟩
  · rw [exec_txLenHi hst, hiByte_eq_ofNat]
    rfl
  · rw [exec_txLenLo hst, loByte_eq_ofNat]
    rfl

/-- Settles O30: each step on the payload byte at the index, or on none. -/
theorem txPayloadBytesAreStuffed : Obligations.TxPayloadBytesAreStuffed := by
  refine fun s => ⟨fun v hv => ⟨fun hst hsp => exec_txData hst hv hsp, fun hst hsp => exec_txDataEsc1 hst hv hsp,
    fun hst => exec_txDataEsc2 hst hv⟩, fun hv => ⟨fun hst => ⟨?_, ?_⟩, fun hst => ?_⟩⟩
  · rw [exec_txData_of_data hst, withPayByte_of_none hv]
  · rw [exec_txDataEsc1_of_data hst, withPayByte_of_none hv]
  · rw [exec_txDataEsc2_of_dataEsc hst, withPayByte_of_none hv]

/-- Settles O31: the checksum byte is the one the register gives, and `finish` follows its last raw byte. -/
theorem txChecksumEndsTheFrame : Obligations.TxChecksumEndsTheFrame := by
  rintro s c rfl
  exact ⟨exec_txCsum_of_special, exec_txCsum_of_not_special, exec_txCsumEsc2, exec_finish⟩

/-- Settles O32: the step is selected in every sending state, and its event is fatal to TX. -/
theorem txSinkFailureIsFatal : Obligations.TxSinkFailureIsFatal := fun _ hs => onlyIf_of hs _

/-! ### Selection -/

section
variable {s : State} {i : Instr}

/-- R210: in T_DATA the payload byte selects one of the two steps, and the other is refused. -/
theorem exec_of_ne_selectTxByte_data (hi : TxInv s.cfg s.tx) (hmem : i = .txData ∨ i = .txDataEsc1)
    (hne : selectTxByte s.tx ≠ some i) : exec i s = .refused .notSelected := by
  by_cases hst : s.tx.state = .data
  · obtain ⟨v, hv⟩ := hi.exists_payByte (.inl hst)
    rcases hmem with rfl | rfl
    · have hsp : isSpecial v = true := by simpa [selectTxByte, hst, hv] using hne
      rw [exec_txData_of_data hst, withPayByte_of_some hv, hsp]
      rfl
    · have hsp : isSpecial v = false := by simpa [selectTxByte, hst, hv] using hne
      rw [exec_txDataEsc1_of_data hst, withPayByte_of_some hv, hsp, onlyIf_false]
  · rcases hmem with rfl | rfl <;> exact onlyIf_of_not (by simpa using hst) _

/-- R210: a byte step that the state does not select is refused (log entry 13). -/
theorem exec_of_ne_selectTxByte (hi : TxInv s.cfg s.tx) (hmem : i ∈ byteSteps) (hne : selectTxByte s.tx ≠ some i) :
    exec i s = .refused .notSelected := by
  simp only [byteSteps, List.mem_cons, List.not_mem_nil, or_false] at hmem
  rcases hmem with rfl | rfl | rfl | rfl | rfl | rfl | rfl | rfl
  case inr.inr.inr.inl => exact exec_of_ne_selectTxByte_data hi (.inl rfl) hne
  case inr.inr.inr.inr.inl => exact exec_of_ne_selectTxByte_data hi (.inr rfl) hne
  all_goals exact onlyIf_of_not (fun hst => hne (by rw [selectTxByte, beq_iff_eq.mp hst])) _

end

/-- R210: every sending state selects a byte step. -/
theorem exists_selectTxByte {t : Tx} (hs : t.state.sending = true) : ∃ i ∈ byteSteps, selectTxByte t = some i := by
  unfold selectTxByte
  cases hst : t.state
  case idle | dead => rw [hst] at hs; cases hs
  case data =>
    dsimp only
    split
    · exact ⟨_, by simp [byteSteps], rfl⟩
    · exact ⟨_, by simp [byteSteps], rfl⟩
  all_goals exact ⟨_, by simp [byteSteps], rfl⟩

/-- Settles O33: under the invariants the payload byte that T_DATA selects by is there. -/
theorem exactlyOneTxByteStepIsSelected : Obligations.ExactlyOneTxByteStepIsSelected := fun _ hi =>
  ⟨fun _ hmem => ⟨exec_selectTx_completes hi, exec_of_ne_selectTxByte hi hmem⟩, exists_selectTxByte,
    fun hs => ⟨selectTx_of_not_sending hs true, onlyIf_of_not (by simp [hs]) _⟩⟩

/-! ### Requests and completions -/

/-- R218, R220: a payload byte sent whole leaves TX sending. -/
theorem advanceTx_sending (v : Byte) (t : Tx) : (advanceTx v t).state.sending = true := by
  rcases advanceTx_state (t := t) (v := v) with ⟨hq, -⟩ | ⟨hq, -⟩ <;> rw [hq] <;> rfl

theorem inProgress_of_sending {s : State} (h : s.tx.state.sending = true) : inProgress s = 1 := if_pos h

theorem inProgress_of_not_sending {s : State} (h : s.tx.state.sending = false) : inProgress s = 0 :=
  if_neg (by simp [h])

/-- R224: a frame in progress that is finished is a request answered. -/
theorem finishTx_balance {s : State} (h : s.tx.state.sending = true) :
    (finishTx s).txEvents.length + inProgress (finishTx s) = s.txEvents.length + inProgress s := by
  rw [inProgress_of_sending h, inProgress_of_not_sending (s := finishTx s) rfl]
  exact List.length_append

/-- R225: a frame in progress that the sink fails is a request answered. -/
theorem failTx_balance {s : State} (h : s.tx.state.sending = true) :
    (failTx s).txEvents.length + inProgress (failTx s) = s.txEvents.length + inProgress s := by
  rw [inProgress_of_sending h, inProgress_of_not_sending (s := failTx s) rfl]
  exact List.length_append

/-- R211: a byte sent inside the frame answers nothing. -/
theorem sendByte_balance {s : State} {b : Byte} {t : Tx} (h : s.tx.state.sending = true)
    (ht : t.state.sending = true) :
    (sendByte b t s).txEvents.length + inProgress (sendByte b t s) = s.txEvents.length + inProgress s := by
  rw [inProgress_of_sending h, inProgress_of_sending (s := sendByte b t s) ht]
  rfl

/-- Settles O35: by what a TX operation can lead to. -/
theorem oneCompletionPerRequest : Obligations.OneCompletionPerRequest := by
  intro s t i hi h
  cases txOp_cases (isTxOp_iff.mp hi) h with
  | waits p hs => simp [hs, inProgress]
  | refused p e hs => simp [hs, inProgress]
  | taken p hst => simp [hst, inProgress, acceptTx, TxSeq.sending]
  | start hst | lenHi hst | lenLo hst | dataEsc1 _ hst | csumEsc1 hst =>
    exact sendByte_balance (by rw [hst]; rfl) rfl
  | data v hst | dataEsc2 v hst => exact sendByte_balance (by rw [hst]; rfl) (advanceTx_sending v s.tx)
  | csum hst | csumEsc2 hst =>
    have hs : s.tx.state.sending = true := by rw [hst]; rfl
    exact (finishTx_balance (s := sendByte _ s.tx s) hs).trans (sendByte_balance hs hs)
  | fail hs => exact failTx_balance hs
  | finish hst => exact finishTx_balance (by rcases hst with ⟨hst, -⟩ | hst <;> rw [hst] <;> rfl)

/-! ### The frame sent -/

/-- The TX registers with no cause. No byte step reads `tx.cause`, so what is sent depends on these alone. -/
def Tx.causeless (t : Tx) : Tx := { t with cause := 0 }

/-- The sink's OK in state `s` leads to `u`: raw byte `b` of the frame in progress is sent, and the frame goes on, or
it was the last and the frame is finished (R211, R224). -/
inductive SendsNext (s : State) (b : Byte) : State → Prop where
  | goesOn (t : Tx) (ha : Advances s.tx.causeless b t.causeless) : SendsNext s b (sendByte b t s)
  | ends (hlast : (frameBytes s.tx.pay).drop (sentCount s.tx) = [b]) : SendsNext s b (finishTx (sendByte b s.tx s))

/-- The raw byte sent is the next one of the frame. -/
theorem SendsNext.drop_eq {s u : State} {b : Byte} (h : SendsNext s b u) :
    (frameBytes s.tx.pay).drop (sentCount s.tx) = b :: (frameBytes s.tx.pay).drop (sentCount s.tx + 1) := by
  cases h with
  | goesOn t ha =>
    obtain ⟨hlt, hb⟩ := List.getElem?_eq_some_iff.mp ha.next
    rw [← hb]
    exact List.drop_eq_getElem_cons hlt
  | ends hlast => rw [← List.tail_drop, hlast, List.tail_cons]

section
variable {s : State}

/-- R221, R222: with the payload sent what is left of the frame is the raw bytes of the checksum. -/
theorem drop_frameBytes_csum (hi : TxInv s.cfg s.tx.causeless) (hst : s.tx.state = .csum) :
    (frameBytes s.tx.pay).drop (sentCount s.tx) = escape (txCheck s.tx) := by
  rw [show txCheck s.tx = checksum s.tx.pay from hi.txCheck_eq (.inl hst), sentCount, hst]
  exact drop_frameBytes_payload _

theorem drop_frameBytes_csumEsc (hi : TxInv s.cfg s.tx.causeless) (hst : s.tx.state = .csumEsc) :
    (frameBytes s.tx.pay).drop (sentCount s.tx) = [txCheck s.tx ^^^ escXor] := by
  have hk : sentCount s.tx = 3 + (stuff s.tx.pay).length + 1 := by rw [sentCount, hst]
  have hc : txCheck s.tx = checksum s.tx.pay := hi.txCheck_eq (.inr hst)
  have hsp : isSpecial (txCheck s.tx) = true := hi.csumEsc hst
  rw [hk, ← List.tail_drop, drop_frameBytes_payload, ← hc, escape_of_special hsp, List.tail_cons]

/-- R215 to R222: in a sending state the sink's OK selects a step that sends the next raw byte of the frame. -/
theorem exists_sendsNext (hi : TxInv s.cfg s.tx.causeless) (hs : s.tx.state.sending = true) :
    ∃ i b u, selectTxByte s.tx = some i ∧ exec i s = .next u ∧ SendsNext s b u := by
  cases hst : s.tx.state with
  | idle | dead => rw [hst] at hs; cases hs
  | start => exact ⟨_, _, _, by rw [selectTxByte, hst], exec_txStart hst, .goesOn _ (hi.advances_start hst)⟩
  | lenHi => exact ⟨_, _, _, by rw [selectTxByte, hst], exec_txLenHi hst, .goesOn _ (hi.advances_lenHi hst)⟩
  | lenLo => exact ⟨_, _, _, by rw [selectTxByte, hst], exec_txLenLo hst, .goesOn _ (hi.advances_lenLo hst)⟩
  | data =>
    obtain ⟨v, hv⟩ : ∃ v, payByte s.tx = some v := hi.exists_payByte (.inl hst)
    cases hsp : isSpecial v
    · refine ⟨_, _, _, by simp [selectTxByte, hst, hv, hsp], exec_txData hst hv hsp, .goesOn _ ?_⟩
      exact hi.advances_data (j := 0) (.inl hst) hv (by rw [escape_of_not_special hsp]; rfl)
        (by rw [escape_of_not_special hsp]; rfl) (by simp [sentCount, Tx.causeless, hst])
    · exact ⟨_, _, _, by simp [selectTxByte, hst, hv, hsp], exec_txDataEsc1 hst hv hsp,
        .goesOn _ (hi.advances_dataEsc1 hst hv hsp)⟩
  | dataEsc =>
    obtain ⟨v, hv⟩ : ∃ v, payByte s.tx = some v := hi.exists_payByte (.inr hst)
    have hany : (payByte s.tx).any isSpecial = true := hi.dataEsc hst
    have hsp : isSpecial v = true := by simpa [hv] using hany
    refine ⟨_, _, _, by rw [selectTxByte, hst], exec_txDataEsc2 hst hv, .goesOn _ ?_⟩
    exact hi.advances_data (j := 1) (.inr hst) hv (by rw [escape_of_special hsp]; rfl)
      (by rw [escape_of_special hsp]; rfl) (by simp [sentCount, Tx.causeless, hst])
  | csum =>
    refine ⟨.txCsum, ?_⟩
    cases hsp : isSpecial (txCheck s.tx)
    · refine ⟨_, _, by rw [selectTxByte, hst], exec_txCsum_of_not_special hst hsp, .ends ?_⟩
      rw [drop_frameBytes_csum hi hst, escape_of_not_special hsp]
    · exact ⟨_, _, by rw [selectTxByte, hst], exec_txCsum_of_special hst hsp,
        .goesOn _ (hi.advances_csumEsc1 hst hsp)⟩
  | csumEsc =>
    exact ⟨_, _, _, by rw [selectTxByte, hst], exec_txCsumEsc2 hst, .ends (drop_frameBytes_csumEsc hi hst)⟩

/-- R41: the count of raw bytes does not wrap, and with the last byte it is the length of the frame. -/
theorem sent_succ_of_last (hi : TxInv s.cfg s.tx.causeless) (hs : s.tx.state.sending = true) {b : Byte}
    (hlast : (frameBytes s.tx.pay).drop (sentCount s.tx) = [b]) :
    (s.tx.sent + 1).toNat = (frameBytes s.tx.pay).length := by
  have hk := congrArg List.length hlast
  rw [List.length_drop, List.length_singleton] at hk
  have hlt : sentCount s.tx < 2 ^ 18 - 1 := sentCount_lt (hi.payLen hs)
  have hsent : s.tx.sent.toNat = sentCount s.tx := hi.sent hs
  have hone : (1 : Sent).toNat = 1 := rfl
  rw [BitVec.toNat_add, hsent, hone, Nat.mod_eq_of_lt (Nat.add_lt_of_lt_sub hlt)]
  omega

end

/-- R211, R215 to R222: the sink's OK, presented in a sending state, sends the next raw byte of the frame. -/
theorem step_answer_ok {s : State} {e : List Stimulus} (hi : TxInv s.cfg s.tx.causeless)
    (hs : s.tx.state.sending = true) (henv : s.env = .answer true :: e) :
    ∃ b u, step s = .next u ∧ SendsNext (setEnv e s) b u := by
  obtain ⟨i, b, u, hsel, hx, hnext⟩ := exists_sendsNext (s := setEnv e s) hi hs
  exact ⟨b, u, (step_of_run henv (fetchStimulus_answer hsel)).trans hx, hnext⟩

/-- R223: answered OK as often as raw bytes are left of its frame, TX sends these and finishes. -/
theorem run_answers_ok (r : List Byte) : ∀ {s : State} {rest : List Stimulus},
    TxInv s.cfg s.tx.causeless → s.tx.state.sending = true →
    (frameBytes s.tx.pay).drop (sentCount s.tx) = r → s.env = List.replicate r.length (.answer true) ++ rest →
    ∃ tx', run r.length s = .next { s with
        env := rest, tx := tx', txOut := s.txOut ++ r, txEvents := s.txEvents ++ [.txDone s.tx.len] } ∧
      tx'.state = .idle ∧ tx'.sent.toNat = (frameBytes s.tx.pay).length := by
  induction r with
  | nil =>
    intro s rest hi hs hr _
    obtain ⟨i, b, u, -, -, hnext⟩ := exists_sendsNext hi hs
    rw [hnext.drop_eq] at hr
    cases hr
  | cons b r ih =>
    intro s rest hi hs hr henv
    rw [List.length_cons, List.replicate_succ, List.cons_append] at henv
    generalize he : List.replicate r.length (.answer true) ++ rest = e at henv
    obtain ⟨b', u, hstep, hnext⟩ := step_answer_ok hi hs henv
    obtain ⟨rfl, hr'⟩ := List.cons.inj (hnext.drop_eq.symm.trans hr)
    have hrun : run (r.length + 1) s = run r.length u := core_run_succ hstep
    rw [List.length_cons, hrun]
    cases hnext with
    | goesOn t ha =>
      have hpay : t.pay = s.tx.pay := ha.pay
      have hlen : t.len = s.tx.len := ha.len
      have hcount : sentCount { t with sent := t.sent + 1 } = sentCount s.tx + 1 := ha.count
      have hleft : (frameBytes t.pay).drop (sentCount { t with sent := t.sent + 1 }) = r := by
        rw [hcount, hpay]
        exact hr'
      obtain ⟨tx', hrun', hidle, hsent⟩ :=
        ih (s := sendByte b' t (setEnv e s)) (ha.txInv hi hs) ha.sending hleft he.symm
      refine ⟨tx', ?_, hidle, hpay ▸ hsent⟩
      rw [hrun', ← hlen, List.append_cons s.txOut]
      rfl
    | ends hlast =>
      have hlast' : (frameBytes s.tx.pay).drop (sentCount s.tx) = [b'] := hlast
      obtain rfl : r = [] := (List.cons.inj (hr.symm.trans hlast')).2
      subst he
      exact ⟨{ s.tx with state := .idle, sent := s.tx.sent + 1 }, rfl, rfl, sent_succ_of_last hi hs hlast'⟩

/-- Settles O34: the request is taken, and then the whole frame is what is left to send. -/
theorem txSendsExactlyTheEncodedFrame : Obligations.TxSendsExactlyTheEncodedFrame := by
  intro s p rest hst hp hl henv
  have hmax : p.length ≤ 65535 := hl.trans (Nat.le_of_lt_succ s.cfg.txMaxLen.isLt)
  rw [txEncode_of_domain hp hmax, List.cons_append] at henv
  generalize he : List.replicate (frameBytes p).length (.answer true) ++ rest = e at henv
  have hstep : step s = .next (setTx (acceptTx p s.tx) (setEnv e s)) :=
    (step_of_run henv rfl).trans (congrArg Host.Outcome.next (opReq_of_fits (s := setEnv e s) hst hp hl))
  have hinv : TxInv s.cfg (acceptTx p s.tx.causeless) :=
    (txInv_of_idle (t := s.tx.causeless) hst rfl).after_accept hst hp hl
  rw [txEncode_of_domain hp hmax, Nat.add_comm, run, core_run_succ hstep]
  exact run_answers_ok (frameBytes p) (s := setTx (acceptTx p s.tx) (setEnv e s)) hinv rfl rfl he.symm

end Sys2Proof.Machine
end

section
/-! The payload layouts (R250 to R261): what the accessors read at the front of a field's bytes, what each layout reads
from the bytes of its fields, and what the registry makes of a delivered frame and of a request. -/

open Sys2Proof.Statements

namespace Sys2Proof.Machine

/-! ### Fields -/

@[simp] theorem be16Bytes_length (v : BitVec 16) : (be16Bytes v).length = 2 := rfl

@[simp] theorem be64Bytes_length (v : BitVec 64) : (be64Bytes v).length = 8 := rfl

/-- R251: a 16-bit field is the number its bytes hold. -/
theorem beNat_be16Bytes (v : BitVec 16) : beNat (be16Bytes v) = v.toNat := by
  have := v.isLt
  simp only [be16Bytes, beNat, List.foldl_cons, List.foldl_nil, BitVec.toNat_setWidth, BitVec.toNat_ushiftRight,
    Nat.shiftRight_eq_div_pow]
  omega

/-- R251: a 64-bit field is the number its bytes hold. -/
theorem beNat_be64Bytes (v : BitVec 64) : beNat (be64Bytes v) = v.toNat := by
  have := v.isLt
  simp only [be64Bytes, beNat, List.foldl_cons, List.foldl_nil, BitVec.toNat_setWidth, BitVec.toNat_ushiftRight,
    Nat.shiftRight_eq_div_pow]
  omega

theorem field16_of_drop {p t : List Byte} {i : Nat} {v : BitVec 16} (h : p.drop i = be16Bytes v ++ t) :
    field16 p i = v := by
  have htake : (be16Bytes v ++ t).take 2 = be16Bytes v := rfl
  rw [field16, fieldBytes, h, htake, beNat_be16Bytes, BitVec.ofNat_toNat, BitVec.setWidth_eq]

theorem field64_of_drop {p t : List Byte} {i : Nat} {v : BitVec 64} (h : p.drop i = be64Bytes v ++ t) :
    field64 p i = v := by
  have htake : (be64Bytes v ++ t).take 8 = be64Bytes v := rfl
  rw [field64, fieldBytes, h, htake, beNat_be64Bytes, BitVec.ofNat_toNat, BitVec.setWidth_eq]

theorem field8_of_drop {p t : List Byte} {i : Nat} {b : Byte} (h : p.drop i = b :: t) : field8 p i = b := by
  have hi : p[i]? = some b := by rw [← List.head?_drop, h, List.head?_cons]
  rw [field8, List.getD_eq_getElem?_getD, hi, Option.getD_some]

/-- Where some bytes stand at an index, what follows them stands at the index after them. -/
theorem drop_add_of_drop {p xs t : List Byte} {i n : Nat} (h : p.drop i = xs ++ t) (hn : xs.length = n) :
    p.drop (i + n) = t := by
  rw [← List.drop_drop, h, ← hn, List.drop_left]

/-! ### What a row sets -/

/-- A row that sets its result returns that result alone. -/
theorem eq_of_returns {r r' : FnResult} {s : State} (h : Returns r s (.next (setRet r' s))) : r' = r :=
  Option.some.inj (congrArg State.ret (Host.Outcome.next.inj h))

/-- A layout whose result is one read has read it. -/
theorem eq_ok_of_layoutResult {α : Type} {f : α → FnResult} {x : Except LayoutError α} {a : α}
    (hf : ∀ b, f b = f a → b = a) (he : ∀ e, .layoutError e ≠ f a) (h : layoutResult f x = f a) : x = .ok a := by
  cases x with
  | error e => exact absurd h (he e)
  | ok b => rw [hf b h]

/-- A layout whose result is an error has failed with it. -/
theorem eq_error_of_layoutResult {α : Type} {f : α → FnResult} {x : Except LayoutError α} {e : LayoutError}
    (hf : ∀ a, f a ≠ .layoutError e) (h : layoutResult f x = .layoutError e) : x = .error e := by
  cases x with
  | error e' => rw [FnResult.layoutError.inj h]
  | ok a => exact absurd h (hf a)

/-! ### Command responses and numbers -/

/-- R253: a local response is read from the bytes of its fields. -/
theorem readLocalResponse_of_fields (fid c0 c1 st : Byte) (q : List Byte) :
    readLocalResponse (0x88 :: ([fid, c0, c1, st] ++ q)) = .ok ⟨fid, c0, c1, readStatus .inLocal st, q⟩ :=
  withLength_of_le 0x88 _ (Nat.le_add_left 5 q.length)

/-- Settles O44: five bytes suffice, and each field is at its index. -/
theorem localResponseLayout : Obligations.LocalResponseLayout := by
  intro s fid c0 c1 st q data
  refine ⟨returns_of_eq ?_ s, fun h => returns_of_eq ?_ s⟩
  · rw [readLocalResponse_of_fields, layoutResult_ok]
  · rw [readLocalResponse, List.length_cons, Nat.add_comm, withLength_of_short 0x88 _ (by omega), layoutResult_error]

/-- R254: a remote response is read from the bytes of its fields. -/
theorem readRemoteResponse_of_fields (fid c0 c1 st : Byte) (a64 : BitVec 64) (a16 : BitVec 16) (q : List Byte) :
    readRemoteResponse (0x97 :: ([fid] ++ be64Bytes a64 ++ be16Bytes a16 ++ [c0, c1, st] ++ q)) =
      .ok ⟨fid, a64, a16, c0, c1, readStatus .inRemote st, q⟩ := by
  rw [readRemoteResponse, withLength_of_le 0x97 _ (by simp; omega), field64_of_drop (i := 2) (v := a64),
    field16_of_drop (i := 10) (v := a16)] <;> rfl

/-- Settles O45: fifteen bytes suffice, and each field is at its index. -/
theorem remoteResponseLayout : Obligations.RemoteResponseLayout := by
  intro s fid c0 c1 st a64 a16 q data
  refine ⟨returns_of_eq ?_ s, fun h => returns_of_eq ?_ s⟩
  · rw [readRemoteResponse_of_fields, layoutResult_ok]
  · rw [readRemoteResponse, List.length_cons, Nat.add_comm, withLength_of_short 0x97 _ (by omega), layoutResult_error]

/-- R259: a number is read from the bytes of its width, and the rest is its tail. -/
theorem readNumber_append {bs : List Byte} {w : Nat} (ftype : Byte) (h : bs.length = w) (q : List Byte) :
    readNumber ftype w (bs ++ q) = .ok (beNat bs, q) := by
  subst h
  rw [readNumber, withLength_of_le ftype _ (by simp), List.take_left, List.drop_left]

/-- R259: the row on the bytes of its width returns the number they hold. -/
theorem numDecode_returns {bs : List Byte} {w : NumWidth} (ftype : Byte) (h : bs.length = widthBytes w)
    (q : List Byte) (s : State) : Returns (.number (beNat bs) q) s (exec (.numDecode w ⟨ftype, bs ++ q⟩) s) :=
  returns_of_eq (by rw [readNumber_append ftype h, layoutResult_ok]) s

/-- Settles O48: at each width the number is that of the bytes in front. -/
theorem numericPayloads : Obligations.NumericPayloads := by
  intro s ft a b c d q w
  have h1 : beNat [a] = a.toNat := by simp [beNat]
  have h2 : beNat [a, b] = a.toNat * 256 + b.toNat := by simp [beNat]
  have h4 : beNat [a, b, c, d] = a.toNat * 256 ^ 3 + b.toNat * 256 ^ 2 + c.toNat * 256 + d.toNat := by
    simp only [beNat, List.foldl_cons, List.foldl_nil]
    omega
  refine ⟨?_, ?_, ?_, fun h => returns_of_eq ?_ s, rfl, rfl, rfl⟩
  · exact h1 ▸ numDecode_returns (bs := [a]) (w := .one) ft rfl q s
  · exact h2 ▸ numDecode_returns (bs := [a, b]) (w := .two) ft rfl q s
  · exact h4 ▸ numDecode_returns (bs := [a, b, c, d]) (w := .four) ft rfl q s
  · rw [readNumber, withLength_of_short ft _ h, layoutResult_error]

/-! ### The node-discovery record -/

/-- R257: past the addresses and a printable identifier the scan goes on at the byte after it. -/
theorem scanFrom_ident (n16 : BitVec 16) (e64 : BitVec 64) {ident : List Byte} (h : ∀ c ∈ ident, 32 ≤ c ∧ c ≤ 126)
    (t : List Byte) :
    scanFrom 10 ((be16Bytes n16 ++ be64Bytes e64 ++ ident ++ t).drop 10) = scanFrom (10 + ident.length) t :=
  scanFrom_append h t 10

/-- R257: the scan ends at a zero byte. -/
theorem scanIdent_terminated {n16 : BitVec 16} {e64 : BitVec 64} {ident more q : List Byte} (ftype : Byte)
    (h : ∀ c ∈ ident, 32 ≤ c ∧ c ≤ 126) (hq : q = be16Bytes n16 ++ be64Bytes e64 ++ ident ++ 0x00 :: more) :
    scanIdent ftype q = .ok (10 + ident.length) := by
  rw [scanIdent, hq, scanFrom_ident n16 e64 h, scanFrom, if_pos rfl]

/-- R257: the scan fails at a byte that is not printable. -/
theorem scanIdent_bad {n16 : BitVec 16} {e64 : BitVec 64} {ident more q : List Byte} {bad : Byte} (ftype : Byte)
    (h : ∀ c ∈ ident, 32 ≤ c ∧ c ≤ 126) (hq : q = be16Bytes n16 ++ be64Bytes e64 ++ ident ++ bad :: more)
    (h0 : bad ≠ 0x00) (hb : bad < 32 ∨ 126 < bad) :
    scanIdent ftype q = .error (.ndBadIdentifier (10 + ident.length) bad) := by
  rw [scanIdent, hq, scanFrom_ident n16 e64 h, scanFrom, if_neg h0, if_pos hb]

/-- R257: the scan fails where the record ends in its identifier, or before it. -/
theorem scanIdent_unterminated {n16 : BitVec 16} {e64 : BitVec 64} {ident q : List Byte} (ftype : Byte)
    (h : ∀ c ∈ ident, 32 ≤ c ∧ c ≤ 126) (hq : q = be16Bytes n16 ++ be64Bytes e64 ++ ident ∨ q.length < 10) :
    scanIdent ftype q = .error (.truncated ftype q.length (Config.unterminatedNeed q)) := by
  have hscan : scanFrom 10 (q.drop 10) = none := by
    obtain hq | hq := hq
    · rw [hq, ← List.append_nil (be16Bytes n16 ++ be64Bytes e64 ++ ident), scanFrom_ident n16 e64 h]
      rfl
    · rw [List.drop_eq_nil_of_le hq.le]
      rfl
  rw [scanIdent, hscan]

/-- R256: an error of the scan is the record's, where its minimum is there. -/
theorem readNdRecord_of_scanIdent_error {ftype : Byte} {q : List Byte} {e : LayoutError} (hl : 19 ≤ q.length)
    (h : scanIdent ftype q = .error e) : readNdRecord ftype q = .error e := by
  rw [readNdRecord, withLength_of_le ftype _ hl, h]

/-- R256: the record's expected length follows from the terminator's index. -/
theorem readNdRecord_of_scanIdent_ok {ftype : Byte} {q : List Byte} {z : Nat} (hl : 19 ≤ q.length)
    (h : scanIdent ftype q = .ok z) :
    readNdRecord ftype q = withLength ftype q.length (z + 9) (.ok (ndFields q z)) := by
  rw [readNdRecord, withLength_of_le ftype _ hl, h]

/-- The bytes of a record after its terminator (R256). -/
def ndTrailer (r : NdRecord) : List Byte :=
  be16Bytes r.parent16 ++ [r.deviceType, r.status] ++ be16Bytes r.profileId ++ be16Bytes r.manufacturerId ++ r.tail

theorem ndBytes_eq (r : NdRecord) :
    ndBytes r = be16Bytes r.net16 ++ be64Bytes r.ext64 ++ r.identifier ++ 0x00 :: ndTrailer r := by
  simp [ndBytes, ndTrailer]

theorem drop_ten_ndBytes (r : NdRecord) : (ndBytes r).drop 10 = r.identifier ++ 0x00 :: ndTrailer r := by
  rw [ndBytes_eq]
  rfl

theorem drop_ndBytes (r : NdRecord) (n : Nat) :
    (ndBytes r).drop (10 + r.identifier.length + 1 + n) = (ndTrailer r).drop n := by
  have hzero : (ndBytes r).drop (10 + r.identifier.length) = [0x00] ++ ndTrailer r :=
    drop_add_of_drop (drop_ten_ndBytes r) rfl
  rw [← List.drop_drop, drop_add_of_drop (n := 1) hzero rfl]

/-- R256: each field stands at its place from the terminator on. -/
theorem ndFields_ndBytes (r : NdRecord) : ndFields (ndBytes r) (10 + r.identifier.length) = r := by
  have hid : fieldBytes (ndBytes r) 10 (10 + r.identifier.length - 10) = r.identifier := by
    rw [fieldBytes, drop_ten_ndBytes, Nat.add_sub_cancel_left, List.take_left]
  have hpar : field16 (ndBytes r) (10 + r.identifier.length + 1) = r.parent16 := field16_of_drop (drop_ndBytes r 0)
  have hdev : field8 (ndBytes r) (10 + r.identifier.length + 3) = r.deviceType := field8_of_drop (drop_ndBytes r 2)
  have hst : field8 (ndBytes r) (10 + r.identifier.length + 4) = r.status := field8_of_drop (drop_ndBytes r 3)
  have hprof : field16 (ndBytes r) (10 + r.identifier.length + 5) = r.profileId :=
    field16_of_drop (drop_ndBytes r 4)
  have hman : field16 (ndBytes r) (10 + r.identifier.length + 7) = r.manufacturerId :=
    field16_of_drop (drop_ndBytes r 6)
  have htail : (ndBytes r).drop (10 + r.identifier.length + 9) = r.tail := drop_ndBytes r 8
  rw [ndFields, hid, hpar, hdev, hst, hprof, hman, htail, field16_of_drop (i := 0) (v := r.net16),
    field64_of_drop (i := 2) (v := r.ext64)] <;> rfl

/-- R256: a record is read from the bytes of its fields. -/
theorem readNdRecord_ndBytes (ftype : Byte) (r : NdRecord) (h : ∀ c ∈ r.identifier, 32 ≤ c ∧ c ≤ 126) :
    readNdRecord ftype (ndBytes r) = .ok r := by
  have hlen : 10 + r.identifier.length + 9 ≤ (ndBytes r).length := by
    simp [ndBytes]
    omega
  have hscan := scanIdent_terminated ftype h (ndBytes_eq r)
  rw [readNdRecord_of_scanIdent_ok (by omega) hscan, withLength_of_le ftype _ hlen,
    ndFields_ndBytes]

/-- Settles O46: by where the scan of the identifier ends. -/
theorem nodeDiscoveryLayout : Obligations.NodeDiscoveryLayout := by
  intro s n16 par prof man e64 ident tail q more ft dev st bad hid
  refine ⟨fun hq => returns_of_eq ?_ s, fun hq => returns_of_eq ?_ s, fun hq h0 hb => ?_,
    fun hl => returns_of_eq ?_ s, fun hq hmore hl => returns_of_eq ?_ s, fun hq => ?_⟩
  · have hr : readNdRecord ft q = .ok ⟨n16, e64, ident, par, dev, st, prof, man, tail⟩ :=
      hq ▸ readNdRecord_ndBytes ft ⟨n16, e64, ident, par, dev, st, prof, man, tail⟩ hid
    rw [hr, layoutResult_ok]
  · rw [List.append_assoc _ [0x00]] at hq
    rw [scanIdent_terminated ft hid hq, layoutResult_ok]
  · rw [List.append_assoc _ [bad]] at hq
    have hscan := scanIdent_bad ft hid hq h0 hb
    exact ⟨returns_of_eq (by rw [hscan, layoutResult_error]) s,
      fun hl => returns_of_eq (by rw [readNdRecord_of_scanIdent_error hl hscan, layoutResult_error]) s⟩
  · rw [readNdRecord, withLength_of_short ft _ hl, layoutResult_error]
  · rw [List.append_assoc _ [0x00]] at hq
    have hshort : q.length < 10 + ident.length + 9 := by
      rw [hq]
      simp
      omega
    rw [readNdRecord_of_scanIdent_ok hl (scanIdent_terminated ft hid hq), withLength_of_short ft _ hshort,
      layoutResult_error]
  · have hscan := scanIdent_unterminated ft hid hq
    exact ⟨Config.unterminatedNeed q, returns_of_eq (by rw [hscan, layoutResult_error]) s,
      fun hl => returns_of_eq (by rw [readNdRecord_of_scanIdent_error hl hscan, layoutResult_error]) s⟩

/-! ### The IO sample -/

/-- R258: two bytes from the index on for each bit are that bit's sample. -/
theorem analogSamples_of_drop {p t : List Byte} : ∀ {ks : List Nat} {vs : List (BitVec 16)} {i : Nat},
    vs.length = ks.length → p.drop i = vs.flatMap be16Bytes ++ t → analogSamples p i ks = ks.zip vs
  | [], [], _, _, _ => rfl
  | k :: ks, v :: vs, i, hl, hp => by
    rw [List.flatMap_cons, List.append_assoc] at hp
    have hrest : p.drop (i + 2) = vs.flatMap be16Bytes ++ t := drop_add_of_drop hp rfl
    rw [analogSamples, field16_of_drop hp, analogSamples_of_drop (Nat.succ.inj hl) hrest, List.zip_cons_cons]

theorem length_flatMap_be16Bytes (vs : List (BitVec 16)) : (vs.flatMap be16Bytes).length = 2 * vs.length := by
  simp [List.length_flatMap, Nat.mul_comm]

/-- The payload of an IO sample whose first sixteen bytes hold these fields, `rest` following them (R258). -/
def ioPayload (a64 : BitVec 64) (a16 : BitVec 16) (opt count : Byte) (dm : BitVec 16) (am : Byte)
    (rest : List Byte) : List Byte :=
  0x92 :: (be64Bytes a64 ++ be16Bytes a16 ++ [opt, count] ++ be16Bytes dm ++ [am] ++ rest)

section

variable (a64 : BitVec 64) (a16 dm : BitVec 16) (opt count am : Byte) (rest : List Byte)

theorem ioPayload_drop : (ioPayload a64 a16 opt count dm am rest).drop 16 = rest := rfl

theorem ioPayload_length : (ioPayload a64 a16 opt count dm am rest).length = 16 + rest.length := by
  simp [ioPayload]
  omega

/-- R258: from the sixteen bytes on, the masks decide what is read. -/
theorem readIoSample_ioPayload :
    readIoSample (ioPayload a64 a16 opt count dm am rest) =
      withLength 0x92 (16 + rest.length) (ioSampleLen dm am)
        (.ok (ioFields (ioPayload a64 a16 opt count dm am rest) dm am)) := by
  rw [readIoSample, field16_of_drop (i := 13) (v := dm), field8_of_drop (i := 15) (b := am), ioPayload_length,
    withLength_of_le 0x92 _ (Nat.le_add_right 16 _)] <;> rfl

end

/-- R258: the digital word, where the mask has it. -/
def digitalPart (dm dv : BitVec 16) : List Byte := if dm ≠ 0 then be16Bytes dv else []

theorem digitalPart_length (dm dv : BitVec 16) : (digitalPart dm dv).length = digitalBytes dm := by
  unfold digitalPart digitalBytes
  split <;> rfl

/-- R258: a sample is read from the bytes of its fields. -/
theorem ioFields_ioPayload (a64 : BitVec 64) (a16 dm dv : BitVec 16) (opt count am : Byte) {vs : List (BitVec 16)}
    (hl : vs.length = (maskBits am).length) (tail : List Byte) :
    ioFields (ioPayload a64 a16 opt count dm am (digitalPart dm dv ++ vs.flatMap be16Bytes ++ tail)) dm am =
      ⟨a64, a16, opt, count, dm, am, if dm ≠ 0 then some dv else none, (maskBits am).zip vs, tail⟩ := by
  generalize hp : ioPayload a64 a16 opt count dm am (digitalPart dm dv ++ vs.flatMap be16Bytes ++ tail) = p
  have h16 : p.drop 16 = digitalPart dm dv ++ (vs.flatMap be16Bytes ++ tail) := by
    rw [← hp, ioPayload_drop, List.append_assoc]
  have hanalog : p.drop (16 + digitalBytes dm) = vs.flatMap be16Bytes ++ tail :=
    drop_add_of_drop h16 (digitalPart_length dm dv)
  have htail : p.drop (ioSampleLen dm am) = tail :=
    drop_add_of_drop hanalog (by rw [length_flatMap_be16Bytes, hl])
  have hdigital : (if dm ≠ 0 then some (field16 p 16) else none) = if dm ≠ 0 then some dv else none := by
    split_ifs with h
    · rw [digitalPart, if_pos h] at h16
      rw [field16_of_drop h16]
    · rfl
  rw [ioFields, hdigital, htail, analogSamples_of_drop hl hanalog]
  subst hp
  rw [field64_of_drop (i := 1) (v := a64), field16_of_drop (i := 9) (v := a16)] <;> rfl

/-- Settles O47: the sixteen bytes of the header, and then the length its masks ask for. -/
theorem ioSampleLayout : Obligations.IoSampleLayout := by
  intro s a64 a16 dm dv opt count am vs tail data rest bits need hbits hneed
  subst hbits
  have hneed : ioSampleLen dm am = need := hneed.symm
  refine ⟨fun hl => returns_of_eq ?_ s, fun h => returns_of_eq ?_ s, fun h => returns_of_eq ?_ s⟩
  · have hr := readIoSample_ioPayload a64 a16 dm opt count am (digitalPart dm dv ++ vs.flatMap be16Bytes ++ tail)
    have hlen : ioSampleLen dm am ≤ 16 + (digitalPart dm dv ++ vs.flatMap be16Bytes ++ tail).length := by
      rw [List.length_append, List.length_append, digitalPart_length, length_flatMap_be16Bytes, hl, ioSampleLen,
        maskBits]
      omega
    rw [withLength_of_le 0x92 _ hlen, ioFields_ioPayload a64 a16 dm dv opt count am hl] at hr
    exact congrArg (layoutResult FnResult.ioSample) hr
  · rw [readIoSample, List.length_cons, Nat.add_comm, withLength_of_short 0x92 _ (by omega), layoutResult_error]
  · have hr := readIoSample_ioPayload a64 a16 dm opt count am rest
    rw [hneed, withLength_of_short 0x92 _ h] at hr
    exact congrArg (layoutResult FnResult.ioSample) hr

/-! ### Requests (R260, R261, R250) -/

theorem withValue_of_le {v : List Byte} (fixedPart : List Byte) (h : v.length ≤ 4) :
    withValue fixedPart v = .bytes (fixedPart ++ v) := if_neg (Nat.not_lt.mpr h)

theorem withValue_of_gt {v : List Byte} (fixedPart : List Byte) (h : 4 < v.length) :
    withValue fixedPart v = .layoutError .valueTooLong := if_pos h

/-- R250: the value of a request that has one is the bytes its command's decoder reads it from. -/
theorem requestValue_of_readCommand {c : Cfg} {ftype ftype' : Byte} {e : CmdRequest} {p : CmdPayload} {q : List Byte}
    (hv : e.value = some p) (h : readCommand ftype' (commandEncoder c ftype e.cmd0 e.cmd1) q = .ok p) :
    requestValue c ftype e = q := by
  simp only [requestValue, hv]
  exact writeCommand_of_readCommand h

theorem requestValue_of_query {e : CmdRequest} (c : Cfg) (ftype : Byte) (hv : e.value = none) :
    requestValue c ftype e = [] := by
  simp only [requestValue, hv]

theorem registryEncode_local {e : CmdRequest} {t : TypeArg} (c : Cfg) (h : e.target = .localNode t) :
    registryEncode c e = buildAtReq (typeArg c t) e.frameId e.cmd0 e.cmd1 (requestValue c (typeArg c t) e) := by
  simp only [registryEncode, h]

theorem registryEncode_remote {e : CmdRequest} {a64 : BitVec 64} {a16 : BitVec 16} {opt : Byte} (c : Cfg)
    (h : e.target = .remoteNode a64 a16 opt) :
    registryEncode c e = buildRatReq e.frameId a64 a16 opt e.cmd0 e.cmd1 (requestValue c 0x17 e) := by
  simp only [registryEncode, h]

/-- R250: the registry asked for a request returns it. -/
theorem stepReturns_encode {s : State} {e : CmdRequest} {rest : List Stimulus} (henv : s.env = .encode e :: rest) :
    StepReturns rest s (registryEncode s.cfg e) := step_of_move henv rfl

/-- Settles O49: the registry's request is the layout's, with the value that `requestValue` gives. -/
theorem requestLayouts : Obligations.RequestLayouts := by
  intro s t fid c0 c1 opt a64 a16 v
  refine ⟨fun e rest ft d henv hd => ?_, fun h => ?_, fun h => ?_⟩
  · have hstep := stepReturns_encode henv
    refine ⟨requestValue s.cfg ft e, requestValue_of_query s.cfg ft,
      fun p ft' q hv hq => requestValue_of_readCommand hv (hd ▸ hq),
      fun ty r htarget hty hr => ?_, fun b64 b16 o r htarget hft hr => ?_⟩
    · have htype : typeArg s.cfg ty = ft := by
        obtain rfl | ⟨rfl, rfl⟩ := hty <;> rfl
      subst htype
      rwa [registryEncode_local s.cfg htarget, eq_of_returns hr] at hstep
    · subst hft
      rwa [registryEncode_remote s.cfg htarget, eq_of_returns hr] at hstep
  · exact ⟨returns_of_eq (withValue_of_le _ h) s, returns_of_eq (withValue_of_le _ h) s,
      returns_of_eq (withValue_of_le _ h) s⟩
  · exact ⟨returns_of_eq (withValue_of_gt _ h) s, returns_of_eq (withValue_of_gt _ h) s,
      returns_of_eq (withValue_of_gt _ h) s⟩

/-! ### The registry on a delivered frame (R250) -/

section

variable {s : State} {ft : Byte} {data q : List Byte}

theorem readNdRecord_of_returns {r : NdRecord} (h : Returns (.ndRecord r) s (exec (.decodeNdRecord ⟨ft, q⟩) s)) :
    readNdRecord ft q = .ok r :=
  eq_ok_of_layoutResult (fun _ => FnResult.ndRecord.inj) nofun (eq_of_returns h)

theorem readNdRecord_of_returns_error {e : LayoutError}
    (h : Returns (.layoutError e) s (exec (.decodeNdRecord ⟨ft, q⟩) s)) : readNdRecord ft q = .error e :=
  eq_error_of_layoutResult (f := .ndRecord) (fun _ => nofun) (eq_of_returns h)

theorem readNumber_of_returns {w : NumWidth} {n : Nat} {tail : List Byte}
    (h : Returns (.number n tail) s (exec (.numDecode w ⟨ft, q⟩) s)) :
    readNumber ft (widthBytes w) q = .ok (n, tail) :=
  eq_ok_of_layoutResult (a := (n, tail)) (fun _ hb => Prod.ext (FnResult.number.inj hb).1 (FnResult.number.inj hb).2)
    nofun (eq_of_returns h)

theorem readNumber_of_returns_error {w : NumWidth} {e : LayoutError}
    (h : Returns (.layoutError e) s (exec (.numDecode w ⟨ft, q⟩) s)) : readNumber ft (widthBytes w) q = .error e :=
  eq_error_of_layoutResult (f := fun (n, tail) => .number n tail) (fun (_, _) => nofun) (eq_of_returns h)

theorem readLocalResponse_of_returns_error {e : LayoutError}
    (h : Returns (.layoutError e) s (exec (.decodeLocalResponse data) s)) :
    readLocalResponse (0x88 :: data) = .error e :=
  eq_error_of_layoutResult (f := .localResponse) (fun _ => nofun) (eq_of_returns h)

theorem readRemoteResponse_of_returns {r : RemoteResponse}
    (h : Returns (.remoteResponse r) s (exec (.decodeRemoteResponse data) s)) :
    readRemoteResponse (0x97 :: data) = .ok r :=
  eq_ok_of_layoutResult (fun _ => FnResult.remoteResponse.inj) nofun (eq_of_returns h)

theorem readRemoteResponse_of_returns_error {e : LayoutError}
    (h : Returns (.layoutError e) s (exec (.decodeRemoteResponse data) s)) :
    readRemoteResponse (0x97 :: data) = .error e :=
  eq_error_of_layoutResult (f := .remoteResponse) (fun _ => nofun) (eq_of_returns h)

end

theorem registryDecode_local_error {data : List Byte} {e : LayoutError} (c : Cfg)
    (h : readLocalResponse (0x88 :: data) = .error e) : registryDecode c 0x88 data = .layoutError e := by
  rw [registryDecode, if_pos rfl, h]

theorem registryDecode_remote_error {data : List Byte} {e : LayoutError} (c : Cfg)
    (h : readRemoteResponse (0x97 :: data) = .error e) : registryDecode c 0x97 data = .layoutError e := by
  rw [registryDecode, if_neg (by decide), if_pos rfl, h]

theorem registryDecode_ioSample (c : Cfg) (data : List Byte) :
    registryDecode c 0x92 data = layoutResult .ioSample (readIoSample (0x92 :: data)) := by
  rw [registryDecode, if_neg (by decide), if_neg (by decide), if_pos rfl]

/-- R250: the registry asked for a delivered frame returns what it decodes. -/
theorem stepReturns_registry {s : State} {k : Nat} {rest : List Stimulus} {ft : Byte} {data : List Byte}
    (henv : s.env = .registry k :: rest) (hk : s.rxEvents[k]? = some (.frame ft data)) :
    StepReturns rest s (registryDecode s.cfg ft data) :=
  (step_of_move henv rfl).trans (congrArg Host.Outcome.next (applyRegistry_frame (s := setEnv rest s) hk))

/-- R250: what comes of a response with command payload `q`, whose command has the decoder `d`, and which gives `f p`
where the decoder reads `p`. -/
def CommandPayloadDecoded (rest : List Stimulus) (s : State) (ft : Byte) (d : CmdShape) (q : List Byte)
    (f : CmdPayload → FnResult) : Prop :=
  (d = .opaqueBytes → StepReturns rest s (f (.bytes q))) ∧
  (∀ r, d = .ndRecord → Returns (.ndRecord r) s (exec (.decodeNdRecord ⟨ft, q⟩) s) →
    StepReturns rest s (f (.ndRecord r))) ∧
  (∀ w n tail, d = .number w → Returns (.number n tail) s (exec (.numDecode w ⟨ft, q⟩) s) →
    StepReturns rest s (f (.number n tail))) ∧
  (∀ e, d = .ndRecord → Returns (.layoutError e) s (exec (.decodeNdRecord ⟨ft, q⟩) s) →
    StepReturns rest s (.layoutError e)) ∧
  (∀ w e, d = .number w → Returns (.layoutError e) s (exec (.numDecode w ⟨ft, q⟩) s) →
    StepReturns rest s (.layoutError e)) ∧
  (∀ cs tail, d = .text → q = cs ++ tail → (∀ c ∈ cs, 32 ≤ c ∧ c ≤ 126) → tail.headD 0x00 = 0x00 →
    StepReturns rest s (f (.text cs tail))) ∧
  (∀ cs bad more, d = .text → q = cs ++ bad :: more → (∀ c ∈ cs, 32 ≤ c ∧ c ≤ 126) → bad ≠ 0x00 →
    bad < 32 ∨ 126 < bad → StepReturns rest s (.layoutError (.ndBadIdentifier cs.length bad)))

/-- R250: by the shape of the decoder. -/
theorem commandPayloadDecoded_of_stepReturns {rest : List Stimulus} {s : State} {ft : Byte} {d : CmdShape}
    {q : List Byte} {f : CmdPayload → FnResult} (h : StepReturns rest s (layoutResult f (readCommand ft d q))) :
    CommandPayloadDecoded rest s ft d q f := by
  have hok {p : CmdPayload} (hp : readCommand ft d q = .ok p) : StepReturns rest s (f p) := by
    rwa [hp, layoutResult_ok] at h
  have herr {e : LayoutError} (he : readCommand ft d q = .error e) : StepReturns rest s (.layoutError e) := by
    rwa [he, layoutResult_error] at h
  refine ⟨?_, ?_, ?_, ?_, ?_, ?_, ?_⟩
  · rintro rfl
    exact hok rfl
  · rintro r rfl hr
    exact hok (congrArg (Except.map _) (readNdRecord_of_returns hr))
  · rintro w n tail rfl hr
    exact hok (congrArg (Except.map _) (readNumber_of_returns hr))
  · rintro e rfl hr
    exact herr (congrArg (Except.map _) (readNdRecord_of_returns_error hr))
  · rintro w e rfl hr
    exact herr (congrArg (Except.map _) (readNumber_of_returns_error hr))
  · rintro cs tail rfl rfl hcs ht
    exact hok (congrArg (Except.map _) (readText_append hcs ht))
  · rintro cs bad more rfl rfl hcs h0 hb
    exact herr (congrArg (Except.map _) (readText_bad hcs h0 hb))

/-- Settles O60: by the type of the frame, and of a response by whether its own layout is good. -/
theorem registryDecodesDeliveredFrames : Obligations.RegistryDecodesDeliveredFrames := by
  intro s k ft fid c0 c1 st data q rest d henv hk hd
  have hstep := stepReturns_registry henv hk
  refine ⟨?_, ?_, ?_, ?_, ?_, ?_⟩
  · rintro rfl rfl
    rw [registryDecode_local s.cfg (readLocalResponse_of_fields fid c0 c1 st q)] at hstep
    exact commandPayloadDecoded_of_stepReturns (hd ▸ hstep)
  · rintro r rfl hr rfl rfl
    rw [registryDecode_remote s.cfg (readRemoteResponse_of_returns hr)] at hstep
    exact commandPayloadDecoded_of_stepReturns (hd ▸ hstep)
  · rintro e rfl he
    rwa [registryDecode_local_error s.cfg (readLocalResponse_of_returns_error he)] at hstep
  · rintro e rfl he
    rwa [registryDecode_remote_error s.cfg (readRemoteResponse_of_returns_error he)] at hstep
  · rintro r rfl hr
    rwa [registryDecode_ioSample, eq_of_returns hr] at hstep
  · intro h1 h2 h3
    rwa [registryDecode_other s.cfg data h1 h2 h3] at hstep

end Sys2Proof.Machine
end

section
/-! PROOFS. The frame-id allocator (R290 to R292). The valid ids in rising order are `fidNth dflt 0` to
`fidNth dflt 253`: `fidNext` takes each to the one after it, and the last to the first. -/

open Sys2Proof.Statements

namespace Sys2Proof.Machine

/-! ### One turn of the loop -/

theorem fidSucc_toNat {v : Byte} (h : v ≠ 0xFF) : (fidSucc v).toNat = v.toNat + 1 := by
  rw [fidSucc, if_neg h]
  bv_omega

/-! ### FID.NEXT against the order of the ids -/

/-- R292: where the successor is not the reserved default, the loop's body runs once. -/
theorem fidNext_of_succ_ne {dflt a : Byte} (h : fidSucc a ≠ dflt) : fidNext dflt a = fidSucc a := if_neg h

/-- R292: where the successor is the reserved default, the loop's body runs again. -/
theorem fidNext_of_succ_eq {dflt a : Byte} (h : fidSucc a = dflt) : fidNext dflt a = fidSucc dflt := by
  rw [fidNext, if_pos h, h]

theorem fidMax_eq_of_default_ne {dflt : Byte} (h : dflt ≠ 0xFF) : fidMax dflt = 0xFF := if_neg h

theorem ne_top_of_ne_fidMax {dflt a : Byte} (hd : a ≠ dflt) (hm : a ≠ fidMax dflt) : a ≠ 0xFF := by
  rintro rfl
  exact hm (fidMax_eq_of_default_ne hd.symm).symm

/-- R291: after a valid id other than the greatest comes the next byte, or, where that is the reserved default, the
byte after it. -/
theorem fidNext_toNat {dflt a : Byte} (hd : a ≠ dflt) (hm : a ≠ fidMax dflt) :
    (fidNext dflt a).toNat = if a.toNat + 1 = dflt.toNat then a.toNat + 2 else a.toNat + 1 := by
  have hs := fidSucc_toNat (ne_top_of_ne_fidMax hd hm)
  split
  · next h =>
    have he : fidSucc a = dflt := BitVec.eq_of_toNat_eq (hs.trans h)
    have hdt : dflt ≠ 0xFF := by
      rintro rfl
      exact hm (by rw [show fidMax 0xFF = 0xFE from rfl]; bv_omega)
    rw [fidNext_of_succ_eq he, fidSucc_toNat hdt, ← h]
  · next h => rw [fidNext_of_succ_ne (fun he => h (by rw [← he, hs])), hs]

/-- R291, R292: from the greatest id to the least, past 0. -/
theorem fidNext_fidMax (dflt : Byte) : fidNext dflt (fidMax dflt) = fidMin dflt := by
  by_cases h : dflt = 0xFF
  · subst h; rfl
  · rw [fidMax_eq_of_default_ne h]
    by_cases h1 : dflt = 0x01
    · subst h1; rfl
    · rw [fidMin, if_neg h1]
      exact fidNext_of_succ_ne (Ne.symm h1)

theorem fidMin_le {dflt a : Byte} (h0 : a ≠ 0) (hd : a ≠ dflt) : fidMin dflt ≤ a := by
  unfold fidMin
  split <;> bv_omega

theorem le_fidMax {dflt a : Byte} (hd : a ≠ dflt) : a ≤ fidMax dflt := by
  unfold fidMax
  split <;> bv_omega

theorem lt_fidNext {dflt a : Byte} (hd : a ≠ dflt) (hm : a ≠ fidMax dflt) : a < fidNext dflt a := by
  rw [BitVec.lt_def, fidNext_toNat hd hm]
  split <;> omega

/-- No valid id stands between one and its successor. -/
theorem fidNext_le {dflt a b : Byte} (hd : a ≠ dflt) (hm : a ≠ fidMax dflt) (hb : b ≠ dflt) (hab : a < b) :
    fidNext dflt a ≤ b := by
  rw [BitVec.le_def, fidNext_toNat hd hm]
  split <;> bv_omega

/-- Of two valid ids the greater has another successor: the greatest goes back to the least, which is no successor
of an id below the greatest, and any other rises above what the smaller rises to. -/
theorem fidNext_ne_of_lt {dflt a b : Byte} (ha0 : a ≠ 0) (ha : a ≠ dflt) (hb : b ≠ dflt) (hab : a < b) :
    fidNext dflt a ≠ fidNext dflt b := by
  have ham : a ≠ fidMax dflt := by
    have := le_fidMax hb
    bv_omega
  by_cases hbm : b = fidMax dflt
  · rw [hbm, fidNext_fidMax]
    have hmin := fidMin_le ha0 ha
    have hrise := lt_fidNext ha ham
    bv_omega
  · have hle := fidNext_le ha ham hb hab
    have hrise := lt_fidNext hb hbm
    bv_omega

theorem fidNext_injOn {dflt a b : Byte} (ha0 : a ≠ 0) (ha : a ≠ dflt) (hb0 : b ≠ 0) (hb : b ≠ dflt)
    (h : fidNext dflt a = fidNext dflt b) : a = b := by
  have hab : ¬ a < b := fun hab => fidNext_ne_of_lt ha0 ha hb hab h
  have hba : ¬ b < a := fun hba => fidNext_ne_of_lt hb0 hb ha hba h.symm
  bv_omega

/-! ### The cycle -/

/-- The valid id with `k` valid ids below it, for `k < 254` (R291). -/
def fidNth (dflt : Byte) (k : Nat) : Byte := BitVec.ofNat 8 (if k + 1 < dflt.toNat then k + 1 else k + 2)

theorem fidNth_toNat (dflt : Byte) {k : Nat} (hk : k < 254) :
    (fidNth dflt k).toNat = if k + 1 < dflt.toNat then k + 1 else k + 2 := by
  rw [fidNth, BitVec.toNat_ofNat, Nat.mod_eq_of_lt]
  split <;> omega

theorem fidNth_ne_default (dflt : Byte) {k : Nat} (hk : k < 254) : fidNth dflt k ≠ dflt := by
  intro h
  have hn := fidNth_toNat dflt hk
  rw [h] at hn
  split at hn <;> omega

theorem fidNth_zero {dflt : Byte} (hdflt : dflt ≠ 0) : fidNth dflt 0 = fidMin dflt := by
  apply BitVec.eq_of_toNat_eq
  rw [fidNth_toNat dflt (by omega), fidMin]
  split_ifs <;> bv_omega

theorem fidNth_last (dflt : Byte) : fidNth dflt 253 = fidMax dflt := by
  apply BitVec.eq_of_toNat_eq
  rw [fidNth_toNat dflt (by omega), fidMax]
  split_ifs <;> bv_omega

theorem fidNext_fidNth (dflt : Byte) {k : Nat} (hk : k < 253) : fidNext dflt (fidNth dflt k) = fidNth dflt (k + 1) := by
  have hn := fidNth_toNat dflt (show k < 254 by omega)
  have hlast := fidNth_toNat dflt (show 253 < 254 by omega)
  have hm : fidNth dflt k ≠ fidMax dflt := by
    rw [← fidNth_last]
    intro h
    rw [h, hlast] at hn
    split_ifs at hn <;> omega
  apply BitVec.eq_of_toNat_eq
  rw [fidNext_toNat (fidNth_ne_default dflt (by omega)) hm, hn, fidNth_toNat dflt (k := k + 1) (by omega)]
  split_ifs <;> omega

/-- R292: `k` calls from the least id return the id with `k` below it. -/
theorem iterate_fidNext_fidMin {dflt : Byte} (hdflt : dflt ≠ 0) :
    ∀ k < 254, (fidNext dflt)^[k] (fidMin dflt) = fidNth dflt k
  | 0, _ => (fidNth_zero hdflt).symm
  | k + 1, hk => by
    rw [Function.iterate_succ_apply', iterate_fidNext_fidMin hdflt k (by omega), fidNext_fidNth dflt (by omega)]

/-- Every valid id has its place in the order. -/
theorem exists_fidNth_eq {dflt a : Byte} (hdflt : dflt ≠ 0) (h0 : a ≠ 0) (hd : a ≠ dflt) :
    ∃ k < 254, fidNth dflt k = a := by
  have hpos : 0 < dflt.toNat := by bv_omega
  have ha : 0 < a.toNat := by bv_omega
  have hne : a.toNat ≠ dflt.toNat := fun h => hd (BitVec.eq_of_toNat_eq h)
  by_cases hlt : a.toNat < dflt.toNat
  · have hk : a.toNat - 1 < 254 := by omega
    refine ⟨_, hk, BitVec.eq_of_toNat_eq ?_⟩
    rw [fidNth_toNat dflt hk, if_pos] <;> omega
  · have hk : a.toNat - 2 < 254 := by omega
    refine ⟨_, hk, BitVec.eq_of_toNat_eq ?_⟩
    rw [fidNth_toNat dflt hk, if_neg] <;> omega

/-! ### The obligations -/

/-- Settles O51: by the order of the ids, and by the calls from the least one counted in it. -/
theorem frameIdsCycle : Obligations.FrameIdsCycle := by
  intro dflt hdflt
  refine ⟨fidNext_valid dflt, fidNext_fidMax dflt, fun a h0 hd => ⟨fidMin_le h0 hd, le_fidMax hd⟩,
    fun a b => fidNext_injOn, fun a _ hd hm => ⟨lt_fidNext hd hm, fun b _ => fidNext_le hd hm⟩, ?_, ?_⟩
  · intro a h0 hd
    obtain ⟨k, hk, rfl⟩ := exists_fidNth_eq hdflt h0 hd
    exact ⟨k, hk, iterate_fidNext_fidMin hdflt k hk⟩
  · calc (fidNext dflt)^[254] (fidMin dflt)
        = fidNext dflt ((fidNext dflt)^[253] (fidMin dflt)) := Function.iterate_succ_apply' _ _ _
      _ = fidNext dflt (fidMax dflt) := by rw [iterate_fidNext_fidMin hdflt 253 (by omega), fidNth_last]
      _ = fidMin dflt := fidNext_fidMax dflt

/-- FID.NEXT stores and returns `fidNext` of the last id. -/
theorem exec_fidNext (s : State) :
    exec .fidNext s = .next { s with
      fidLast := fidNext s.cfg.fidDefault s.fidLast, ret := some (.byte (fidNext s.cfg.fidDefault s.fidLast)) } := rfl

/-- Settles O50: `v` and `w` are one and two turns of the allocator's loop. -/
theorem frameIdNext : Obligations.FrameIdNext := by
  rintro s v w rfl rfl
  exact exec_fidNext s

end Sys2Proof.Machine
end

section
/-! PROOFS. What an event of RX does to RX (R301, R300), and the codes and classes of the events (R36). -/

namespace Sys2Proof.Machine

/-! ### The events of one RX step -/

/-- R301, R180, R185: an RX step with an event raises a fatal error, ends a frame at its checksum byte, or stops. -/
theorem RxStepTo.effect_of_event {sym : Symbol} {s t : State} {e : Event} {more : List Event}
    (h : RxStepTo sym s t) (hev : t.rxEvents = s.rxEvents ++ e :: more) :
    (e.cls = .fatal ∧ t.rx = { s.rx with cause := e.code, state := .dead } ∧ more = []) ∨
      ((e.cls = .good ∨ e.cls = .recoverable) ∧
        t.rx = { s.rx with esc := false, state := if s.rx.stopPending then .stopped else .seek } ∧
        more = if s.rx.stopPending then [.stopped] else []) ∨
      e.cls = .terminal := by
  cases h with
  | skip | start | lenHi | lenLo | marker | accept | stopLater | ignore =>
    exact absurd (List.self_eq_append_right.mp hev) (List.cons_ne_nil _ _)
  | eosIdle | eosLen | eosFrame =>
    obtain ⟨rfl, rfl⟩ := List.cons.inj (List.append_cancel_left hev)
    exact .inl ⟨rfl, rfl, rfl⟩
  | verify _ v =>
    rw [endFrame_eq] at hev ⊢
    obtain ⟨rfl, rfl⟩ := List.cons.inj (List.append_cancel_left hev)
    exact .inr (.inl ⟨verifyEvent_cls v s, rfl, rfl⟩)
  | stopNow =>
    obtain ⟨rfl, -⟩ := List.cons.inj (List.append_cancel_left hev)
    exact .inr (.inr rfl)

/-! ### The obligation -/

/-- Settles O27: the table by evaluation, and the effect of an error by what an RX step with an event can do: the class
of the event tells which. -/
theorem errorEventsDoWhatRaiseDoes : Obligations.ErrorEventsDoWhatRaiseDoes := by
  refine ⟨fun _ _ _ _ _ _ _ _ => rfl, fun s t sym e more h hev => ?_⟩
  rcases (rxSymbol_cases h).effect_of_event hev with ⟨hc, hfatal⟩ | ⟨hc, hend⟩ | hc
  · exact ⟨fun _ => hfatal, fun hr => by simp [hc] at hr⟩
  · exact ⟨fun hf => by simp [hf] at hc, fun _ => hend⟩
  · exact ⟨fun hf => by simp [hc] at hf, fun hr => by simp [hc] at hr⟩

end Sys2Proof.Machine
end

section
/-! PROOFS. Reset and the latches: what the reset input leaves (R340, R50), and that over any other step the terminal
states STOPPED, DEAD and T_DEAD and a pending stop stay (R320, R27, R186, R225). -/

open Sys2Proof.Statements

namespace Sys2Proof.Machine

/-! ### The reset input -/

/-- Settles O54: the reset input moves the environment, and the state it moves to is the block's at reset under the
configuration it has, with the waiting requests and the inputs to come as they were. -/
theorem resetInputGivesTheResetValues : Obligations.ResetInputGivesTheResetValues :=
  fun _ _ henv => step_of_move henv rfl

/-! ### The latches of RX -/

/-- From `s` to `t` RX has not left STOPPED or DEAD, where its registers and outputs stay, nor dropped a pending
stop. -/
def RxLatchesKept (s t : State) : Prop :=
  (s.rx.state = .stopped ∨ s.rx.state = .dead →
    t.rx = s.rx ∧ t.rxEvents = s.rxEvents ∧ t.rxTrace = s.rxTrace) ∧
    (s.rx.stopPending = true → t.rx.stopPending = true)

theorem rxLatchesKept_refl (s : State) : RxLatchesKept s s := ⟨fun _ => ⟨rfl, rfl, rfl⟩, id⟩

theorem RxLatchesKept.trans {s t u : State} (h : RxLatchesKept s t) (h' : RxLatchesKept t u) : RxLatchesKept s u := by
  refine ⟨fun hst => ?_, h'.2 ∘ h.2⟩
  obtain ⟨hrx, hev, htr⟩ := h.1 hst
  rw [← hrx, ← hev, ← htr]
  exact h'.1 (by rwa [hrx])

/-- In BODY and CSUM the pending stop is all there is to keep. -/
theorem rxLatchesKept_of_reading {s t : State} (hst : s.rx.state = .body ∨ s.rx.state = .csum)
    (hstop : t.rx.stopPending = s.rx.stopPending) : RxLatchesKept s t :=
  ⟨fun hterm => by rcases hst with hst | hst <;> simp [hst] at hterm, hstop.trans⟩

/-- R186: in STOPPED and DEAD a symbol is consumed and lost. -/
theorem rxSymbol_of_terminal {s : State} (h : s.rx.state = .stopped ∨ s.rx.state = .dead) (sym : Symbol) :
    rxSymbol sym s = .next s := by
  rcases h with h | h <;> simp only [rxSymbol, h, opIgnore]

/-- R27: no symbol takes a pending stop back. -/
theorem RxStepTo.stopPending {sym : Symbol} {s t : State} (h : RxStepTo sym s t) (hp : s.rx.stopPending = true) :
    t.rx.stopPending = true := by
  cases h with
  | stopNow | stopLater => rfl
  | verify =>
    rw [endFrame_eq]
    exact hp
  | skip | start | lenHi | lenLo | marker | accept | eosIdle | eosLen | eosFrame | ignore => exact hp

theorem rxSymbol_keeps_rxLatches {sym : Symbol} {s t : State} (h : rxSymbol sym s = .next t) : RxLatchesKept s t := by
  refine ⟨fun hst => ?_, (rxSymbol_cases h).stopPending⟩
  rw [rxSymbol_of_terminal hst] at h
  cases h
  exact ⟨rfl, rfl, rfl⟩

theorem feed_keeps_rxLatches (bs : List Byte) : ∀ {s t : State}, feed bs s = .next t → RxLatchesKept s t := by
  induction bs with
  | nil =>
    intro s t h
    cases h
    exact rxLatchesKept_refl s
  | cons b bs ih =>
    intro s t h
    rw [feed_cons, andThen_eq_next] at h
    obtain ⟨u, hu, ht⟩ := h
    exact (rxSymbol_keeps_rxLatches hu).trans (ih ht)

/-- R320, R27: every operation of RX by name keeps the latches of RX. -/
theorem exec_keeps_rxLatches {i : Instr} (hi : isRxOp i = true) {s t : State} (h : exec i s = .next t) :
    RxLatchesKept s t := by
  rcases isRxOp_cases hi with ⟨sym, hsym⟩ | hfmt | ⟨v, rfl⟩ | ⟨c, rfl⟩
  · exact rxSymbol_keeps_rxLatches (rxSymbol_of_exec hsym h)
  · exact feed_keeps_rxLatches _ (exec_eq_feed hfmt s ▸ h)
  · obtain ⟨hsel, h⟩ := onlyIf_eq_next.mp h
    rw [opAccept_eq_next h]
    exact rxLatchesKept_of_reading (.inl (by simp_all)) rfl
  · obtain ⟨hsel, h⟩ := onlyIf_eq_next.mp h
    rw [opVerify_eq_next h, endFrame_eq]
    exact rxLatchesKept_of_reading (.inr (by simp_all)) rfl

/-! ### The latch of TX -/

/-- From `s` to `t` TX has not left T_DEAD, where its registers and its raw stream stay. -/
def TxLatchKept (s t : State) : Prop := s.tx.state = .dead → t.tx = s.tx ∧ t.txOut = s.txOut

/-- R225, R214: of the operations of TX only a request does anything in T_DEAD, and it writes no register. -/
theorem TxStepTo.keeps_txLatch {i : Instr} {s t : State} (h : TxStepTo s i t) : TxLatchKept s t := by
  intro hd
  cases h with
  | waits | refused => exact ⟨rfl, rfl⟩
  | taken _ h | start h | lenHi h | lenLo h | data _ h | dataEsc1 _ h | dataEsc2 _ h | csumEsc1 h | csum h
    | csumEsc2 h | fail h | finish h => simp [hd, TxSeq.sending] at h

/-! ### The step -/

/-- R320, R27, R225: every operation by name keeps the latches of both agents. -/
theorem exec_keeps_latches {i : Instr} {s t : State} (h : exec i s = .next t) :
    RxLatchesKept s t ∧ TxLatchKept s t := by
  rcases exec_cases h with ⟨hr, ht⟩ | ⟨hx, ht⟩ | ⟨r, rfl⟩ | ⟨r, rfl⟩
  · refine ⟨exec_keeps_rxLatches hr h, fun _ => ?_⟩
    rw [ht]
    exact ⟨rfl, rfl⟩
  · refine ⟨?_, (txOp_cases (isTxOp_iff.mp hx) h).keeps_txLatch⟩
    rw [ht]
    exact rxLatchesKept_refl s
  · exact ⟨rxLatchesKept_refl s, fun _ => ⟨rfl, rfl⟩⟩
  · exact ⟨rxLatchesKept_refl s, fun _ => ⟨rfl, rfl⟩⟩

/-- A completed step on any input but a reset writes the result and takes the input, or is an operation by name on the
state with the input, and perhaps a waiting request, taken. -/
theorem step_cases_of_ne_reset {s t : State} (h : step s = .next t) (hne : s.env.head? ≠ some .reset) :
    t = { s with ret := t.ret, env := t.env } ∨
      ∃ i w rest, exec i (setWaiting w (setEnv rest s)) = .next t := by
  rcases step_cases h with ⟨_, rfl⟩ | ⟨st, rest, henv, hm | ⟨i, u, hf, hx⟩⟩
  · exact .inl rfl
  · have hst : st ≠ .reset := by
      rintro rfl
      exact hne (by rw [henv]; rfl)
    rcases fetchStimulus_move_of_ne_reset hst hm with rfl | ⟨r, rfl⟩ <;> exact .inl rfl
  · obtain ⟨w, rfl⟩ := fetchStimulus_run hf
    exact .inr ⟨i, w, rest, hx⟩

/-- Settles O41: a step on any input but a reset writes no register of either agent, or is an operation by name, and
each of these keeps the latches. -/
theorem onlyResetLeavesTheTerminalStates : Obligations.OnlyResetLeavesTheTerminalStates := by
  intro s t h hne
  rcases step_cases_of_ne_reset h hne with ht | ⟨i, w, rest, hx⟩
  · rw [ht]
    exact ⟨fun _ => ⟨rfl, rfl, rfl⟩, fun _ => ⟨rfl, rfl⟩, id⟩
  · obtain ⟨⟨hrx, hstop⟩, htx⟩ := exec_keeps_latches hx
    exact ⟨hrx, htx, hstop⟩

end Sys2Proof.Machine
end
